-- ==== Sys2Proof/Word.lean ====
section
/-! DEFINITION. The two word types of the block (spec 00_scope.md R11, 20_memory.md R46): buffers hold bytes,
registers are 32 bits and are accessed whole. -/

namespace Sys2Proof

/-- A byte: an unsigned value 0 to 255, bit 7 the most significant (R11). -/
abbrev Byte := BitVec 8

/-- A register or command word: 32 bits, accessed whole (R46, R69). -/
abbrev Word := BitVec 32

end Sys2Proof
end

