-- ==== Sys2Proof/Syntax.lean ====
section
/-! DEFINITION. The eleven operations of the block (30_encoding.md R70), one constructor per row of
spec/opcode_table.json. No operation has an operand field (R69): each takes its operand from `IN[0..INLEN)` or PIX. -/

namespace Sys2Proof

/-- An operation of the core (R70). -/
inductive Instr where
  /-- PACK, `bytesToSymbols` (R79). -/
  | pack
  /-- UNPACK, `symbolsToBytes` (R83). -/
  | unpack
  /-- PENC, ParityCodec `encode` (R89). -/
  | penc
  /-- PDEC, ParityCodec `decode` (R94). -/
  | pdec
  /-- FRAME, the header builder (R118). -/
  | frame
  /-- SCAN, the frame scanner (R122). -/
  | scan
  /-- INGEST, `ingestFrame` (R101). -/
  | ingest
  /-- EMBED, the pixel-buffer writer (R104). -/
  | embed
  /-- XTRACT, the pixel-buffer reader (R109). -/
  | xtract
  /-- INJECT, `injectPayload` (R129). -/
  | inject
  /-- EXTRACT, `extractPayload` (R134). -/
  | extract
deriving DecidableEq, Repr

end Sys2Proof
end

