-- ==== Sys2Proof/Config.lean ====
section
/-! DEFINITION. The instance parameters (00_scope.md R8) and the free values of everything the spec calls
unspecified (93_implementation_defined.md U1). -/

namespace Sys2Proof

/-- The four bytes `MAGIC[0..4)` (R8, R63): any four bytes are legal (R74). -/
structure Magic where
  m0 : Byte
  m1 : Byte
  m2 : Byte
  m3 : Byte
deriving DecidableEq, Repr

/-- MAGIC as a byte sequence, `MAGIC[0]` first (R63). -/
def Magic.bytes (g : Magic) : List Byte := [g.m0, g.m1, g.m2, g.m3]

/-- The instance parameters of R8, under the spec's names. They are fixed when an instance is created (at reset).
Which values are legal (R25) is `Params.legal`, in WellFormed.lean. -/
structure Params where
  /-- `B`: symbol width in bits. -/
  B      : Nat
  /-- `N`: parity length in bytes. -/
  N      : Nat
  /-- `MAGIC`: the four bytes a frame starts with. -/
  magic  : Magic
  /-- `WIDTH`: declared image width in pixels. -/
  width  : Nat
  /-- `HEIGHT`: declared image height in pixels. -/
  height : Nat
  /-- `ATOMIC`: the writer checks capacity before its first write. -/
  atomic : Bool
  /-- `INMAX`: capacity of IN in bytes. -/
  inmax  : Nat
  /-- `OUTMAX`: capacity of OUT in bytes. -/
  outmax : Nat
  /-- `PIXMAX`: capacity of PIX in bytes. -/
  pixmax : Nat
deriving DecidableEq, Repr

/-- The default MAGIC, `54 45 4E 54` (R8). -/
def Config.defaultMagic : Magic := ⟨0x54, 0x45, 0x4E, 0x54⟩

/-- The instance whose reset state is `State.reset`. `B`, `N`, MAGIC and `ATOMIC` are the defaults of R8; the spec
gives no default for the other five: DESIGN CHOICE (log entry 1), `WIDTH = 2` and `HEIGHT = 1` as in the spec's own
reset vector (95_test_vectors.md V29), the capacities 65536 each. Statements are about every legal instance. -/
def Config.instanceParams : Params where
  B      := 2
  N      := 16
  magic  := Config.defaultMagic
  width  := 2
  height := 1
  atomic := true
  inmax  := 65536
  outmax := 65536
  pixmax := 65536

/-- FREE VALUE (log entry 6): the byte found at a place whose contents the spec calls unspecified (U1), at draw number
`n` and index `i`. Nothing constrains it. -/
opaque Config.freeByte (n i : Nat) : Byte

/-- FREE VALUE (log entry 8): what a read of `FPOS` (`which = 0`) or `FLEN` (`which = 1`) returns while R32 calls it
unspecified, at draw number `n`. Nothing constrains it. -/
opaque Config.freeWord (n which : Nat) : Word

end Sys2Proof
end

