-- ==== Sys2Proof/WellFormed.lean ====
section
/-! DEFINITION. The checks the spec puts on what the outside world may hand the block: on a command word (30_encoding.md
R69, R72) and on the parameters of an instance (10_state.md R25). -/

namespace Sys2Proof

/-- Bits [31:8] of a command word must be 0 (R69). -/
def commandHighBitsZero (w : Word) : Bool := w.extractLsb' 8 24 == 0

/-- `op` is one of the eleven numbers `0x01` to `0x0B` (R70, R72). -/
def commandOpListed (w : Word) : Bool :=
  let op := (w.extractLsb' 0 8).toNat
  1 ≤ op && op ≤ 0x0B

/-- A command word that selects an operation (R70); every other word is reserved (R72). -/
def commandWellFormed (w : Word) : Bool := commandHighBitsZero w && commandOpListed w

/-- An operation has no register field, no immediate and no mode bit (R69), so as syntax every one is well formed. -/
def Instr.wellFormed : Instr → Bool
  | .pack => true
  | .unpack => true
  | .penc => true
  | .pdec => true
  | .frame => true
  | .scan => true
  | .ingest => true
  | .embed => true
  | .xtract => true
  | .inject => true
  | .extract => true

/-- The largest value of a 32-bit register, `2^32 - 1` (R25). -/
abbrev wordMax : Nat := 2 ^ 32 - 1

/-- `B` divides 8: it is one of 1, 2, 4, 8 (R8, U10). -/
def Params.widthLegal (p : Params) : Bool := p.B == 1 || p.B == 2 || p.B == 4 || p.B == 8

/-- Each of `INMAX`, `OUTMAX`, `PIXMAX`, `WIDTH`, `HEIGHT`, `N` is at most `2^32 - 1` (R25). -/
def Params.registersFit (p : Params) : Bool :=
  p.inmax ≤ wordMax && p.outmax ≤ wordMax && p.pixmax ≤ wordMax && p.width ≤ wordMax && p.height ≤ wordMax
    && p.N ≤ wordMax

/-- `INMAX + N <= 2^32 - 1` (R25), so that LENGTH cannot overflow (R120). -/
def Params.lengthFits (p : Params) : Bool := p.inmax + p.N ≤ wordMax

/-- `WIDTH * HEIGHT * 4 <= PIXMAX` (R25). -/
def Params.imageFits (p : Params) : Bool := p.width * p.height * 4 ≤ p.pixmax

/-- The parameters of an instance (R25): "An instance whose parameters break one of these constraints is not a TENT
CORE and a model refuses to build it." The legal instances outside `Params.shownByExamples` are forms that nothing shows
(R10, log entry 29). -/
def Params.legal (p : Params) : Bool :=
  p.widthLegal && p.registersFit && p.lengthFits && p.imageFits

/-- The forms an example of the source exercises (R10, U10): `B = 2`, `N = 16`, MAGIC "TENT". -/
def Params.shownByExamples (p : Params) : Bool := p.B == 2 && p.N == 16 && p.magic == Config.defaultMagic

end Sys2Proof
end

