-- ==== Sys2Proof/Decode.lean ====
section
/-! DEFINITION. The command word (30_encoding.md R69, R70, R72): the decoder, total on all 2^32 words and rejecting by
name, and the encoder, both from the spec's own table. -/

namespace Sys2Proof

/-- Why a word written to `CMD` selects no operation (R72). -/
inductive DecodeError where
  /-- Bits [31:8] are not all 0. -/
  | highBitsSet (hi : BitVec 24)
  /-- Bits [31:8] are 0 and `op` is `0x00` or one of `0x0C` to `0xFF`. -/
  | reservedOp (op : Byte)
deriving DecidableEq, Repr

/-- Bits [31:8] of a command word, "must be 0" (R69). -/
def commandHigh (w : Word) : BitVec 24 := w.extractLsb' 8 24

/-- Bits [7:0] of a command word, `op` (R69). -/
def commandOp (w : Word) : Byte := w.extractLsb' 0 8

/-- The operation an `op` number selects (R70), if any. -/
def opInstr (op : Byte) : Option Instr :=
  match op.toNat with
  | 0x01 => some .pack
  | 0x02 => some .unpack
  | 0x03 => some .penc
  | 0x04 => some .pdec
  | 0x05 => some .frame
  | 0x06 => some .scan
  | 0x07 => some .ingest
  | 0x08 => some .embed
  | 0x09 => some .xtract
  | 0x0A => some .inject
  | 0x0B => some .extract
  | _ => none

/-- The decoder: the operation a command word selects, or why it is reserved (R70, R72). -/
def decode (w : Word) : Except DecodeError Instr :=
  if commandHigh w = 0 then
    match opInstr (commandOp w) with
    | some i => .ok i
    | none => .error (.reservedOp (commandOp w))
  else .error (.highBitsSet (commandHigh w))

/-- The `op` number of an operation (R70). -/
def instrOp : Instr → Byte
  | .pack => 0x01
  | .unpack => 0x02
  | .penc => 0x03
  | .pdec => 0x04
  | .frame => 0x05
  | .scan => 0x06
  | .ingest => 0x07
  | .embed => 0x08
  | .xtract => 0x09
  | .inject => 0x0A
  | .extract => 0x0B

/-- The encoder: the command word of an operation, bits [31:8] zero, bits [7:0] its `op` (R69, R70). -/
def encode (i : Instr) : Word := (0 : BitVec 24) ++ instrOp i

/-- The operation this decoder reads from a table row's word `w` of `nbits` bits; the bits above `nbits` are 0. A
command word is written to `CMD` whole, as one 32-bit value, so it has no byte order (R46). -/
def decodeTableWord (nbits w : Nat) : Option Instr :=
  match decode (BitVec.ofNat 32 (w % 2 ^ nbits)) with
  | .ok i => some i
  | .error _ => none

end Sys2Proof
end

