-- ==== Sys2Proof/Machine/State.lean ====
section
/-! DEFINITION. The complete state of one instance (10_state.md R16), the accesses its host may make (20_memory.md
R41), the reasons a host access is refused (60_exceptions.md R158), and the state after reset (R38). Plain data. -/

namespace Sys2Proof.Machine

/-- The three buffers (R39). REG, the fourth space, is the record of registers in `State`. -/
inductive Space where
  /-- IN, the operand buffer (R33). -/
  | inBuf
  /-- OUT, the result buffer (R34). -/
  | outBuf
  /-- PIX, the pixel buffer (R35). -/
  | pix
deriving DecidableEq, Repr

/-- What an index that a buffer does not list reads as. IN and OUT: no value, because the spec leaves their contents
at reset unspecified (R38); a reader draws a free value then (log entry 6). PIX: `0x00`, the reset contents (R38). -/
def Space.unlisted : Space → Option Byte
  | .inBuf => none
  | .outBuf => none
  | .pix => some 0

/-- A buffer's contents: (index, byte) pairs. The canonical form is `Memory.wf`. -/
abbrev Memory := List Host.Cell

/-- The canonical form of a buffer: indices strictly rising, and no entry equal to what an unlisted index reads as. -/
abbrev Memory.wf (sp : Space) (m : Memory) : Prop :=
  m.Pairwise (fun c d => c.1 < d.1) ∧ ∀ c ∈ m, sp.unlisted ≠ some c.2

/-- The error kinds of R141; their numbers in `ERR[7:0]` are `ErrCode.code`. Ordinary results, not faults (R158). -/
inductive ErrCode where
  | ok
  | capacityExceeded
  | noPayloadFound
  | truncatedHeader
  | payloadOverrun
  | tooShort
  | illegalCommand
  | operandTooLong
deriving DecidableEq, Repr

/-- The hidden state of R36: what the core holds while an operation runs. No host access reads it and no operation
takes a value from it; the cycle machine of Machine/Sequencer.lean runs over it. -/
structure Hidden where
  /-- Symbol index. -/
  k      : Nat
  /-- Pixel byte pointer, `p = 2 + 4k`. -/
  p      : Nat
  /-- Byte index. -/
  q      : Nat
  /-- Symbol-within-byte index, 0 to `SPB - 1`. -/
  t      : Nat
  /-- 8-bit accumulator. -/
  acc    : Byte
  /-- The `N` parity accumulators. -/
  par    : List Byte
  /-- Rotation phase, `j mod 8`. -/
  phase  : Nat
  /-- Scan position. -/
  m      : Nat
  /-- 4-byte match window. -/
  window : List Byte
  /-- The model's own: the byte stream EXTRACT converts before it scans, "inside the block" (R128, log entry 28). -/
  stream : List Byte
deriving DecidableEq, Repr

/-- The hidden state at the start of an operation (R18, R36): every cursor 0, the pixel pointer at byte offset 2, the
accumulators 0. The match window is loaded by the scanner's first access (R123). -/
def Hidden.start (n : Nat) : Hidden where
  k      := 0
  p      := 2
  q      := 0
  t      := 0
  acc    := 0
  par    := List.replicate n 0
  phase  := 0
  m      := 0
  window := [0, 0, 0, 0]
  stream := []

/-- One access of the host (R41), or one line of a host program (R75). -/
inductive HostAction where
  /-- Read register number `n`. -/
  | readReg (n : Nat)
  /-- Write `v` to register number `n`; a write to `CMD` issues an operation (R26). -/
  | writeReg (n : Nat) (v : Word)
  /-- Read the byte at index `i` of a buffer. -/
  | readByte (sp : Space) (i : Nat)
  /-- Write the byte at index `i` of a buffer. -/
  | writeByte (sp : Space) (i : Nat) (b : Byte)
  /-- `LOAD`: the bytes to `IN[0..)` and their count to `INLEN` (R75). -/
  | load (bs : List Byte)
  /-- `MOVE`: `OUT[0..OUTLEN)` to `IN[0..)` and `OUTLEN` to `INLEN` (R75). -/
  | move
  /-- Reset: the creation of an instance with parameters `p` (R159). -/
  | reset (p : Params)
deriving DecidableEq, Repr

/-- What the last host read returned. The model's own field: the block's answer to a read of R41. -/
inductive ReadData where
  /-- No read yet. -/
  | nothing
  /-- A register's 32-bit value (R46). -/
  | word (v : Word)
  /-- A buffer's byte (R46). -/
  | byte (b : Byte)
deriving DecidableEq, Repr

/-- The complete state of one instance (R16), and after it three fields of the model's own. -/
structure State where
  /-- The instance parameters, read in CFG_B, CFG_N, CFG_MAGIC, WIDTH, HEIGHT, CFG_MODE, INMAX, OUTMAX, PIXMAX
  (R19 to R25). -/
  params    : Params
  /-- `STATUS.BUSY` (R27). -/
  busy      : Bool
  /-- `STATUS.INGESTED` (R27). -/
  ingested  : Bool
  /-- `ERR` (R28). -/
  err       : ErrCode
  /-- `INLEN` (R29). -/
  inlen     : Word
  /-- `OUTLEN` (R30). -/
  outlen    : Word
  /-- `PIXLEN` (R31). -/
  pixlen    : Word
  /-- `FPOS` as last written by the scanner (R32). -/
  fpos      : Word
  /-- `FLEN` as last written by the scanner (R32). -/
  flen      : Word
  /-- `FPOS` is valid (R32). -/
  fposValid : Bool
  /-- `FLEN` is valid (R32). -/
  flenValid : Bool
  /-- IN (R33). -/
  inMem     : Memory
  /-- OUT (R34). -/
  outMem    : Memory
  /-- PIX: the held bytes `PIX[0..PIXLEN)` (R35). -/
  pixMem    : Memory
  /-- The hidden state (R36). -/
  hidden    : Hidden
  /-- The model's own: the host's coming accesses, first to be performed first (log entry 3). -/
  pending   : List HostAction
  /-- The model's own: what the last host read returned (log entry 10). -/
  readData  : ReadData
  /-- The model's own: the draw counter of the free values (log entry 9). -/
  fresh     : Nat
deriving DecidableEq, Repr

/-- A step that stops the machine with a fault. There is none: "all non-fatal to the process (signal failure to
caller, never abort)" (R140), and no item of this hardware is stuck (93_implementation_defined.md). Safe. -/
inductive Fault where
deriving DecidableEq, Repr

/-- Situations the spec puts outside the block, for which "a model refuses" (R41, R158). -/
inductive Refusal where
  /-- An operation without a meaning in this model. Raised by an arm of `exec` only; no arm does. Safe. -/
  | notModelled (mnemonic : String)
  /-- Raised by a host access to a register number above `0x10` (R41, U12). Safe: the spec gives it no effect. -/
  | registerOutside (n : Nat)
  /-- Raised by a host access to a buffer index at or above the buffer's capacity (R41). Safe: the spec gives it no
  effect. -/
  | indexOutside (sp : Space) (i : Nat)
  /-- Raised by a host access other than reading `STATUS` while `BUSY = 1` (R27, R41, R164, U16). Safe: the spec gives
  it no effect. -/
  | hostWhileBusy
  /-- Raised by reset while `BUSY = 1` (R159, U18). Safe: the spec gives it no effect. -/
  | resetWhileBusy
  /-- Raised by a reset with parameters that break R25 (U19): "a model refuses to build it". Safe. -/
  | instanceIllegal
deriving DecidableEq, Repr

/-- The state after reset of the instance with parameters `p`: the table of R38, row by row. Where that table says
"unspecified" the buffers list nothing, so that a read draws a free value, and `FPOS` and `FLEN` are not valid. The
values of `fpos`, `flen`, `hidden`, `readData` and `fresh` are DESIGN CHOICE (log entries 8, 9, 10, 11). -/
def State.resetWith (p : Params) : State where
  params    := p
  busy      := false
  ingested  := false
  err       := .ok
  inlen     := 0
  outlen    := 0
  pixlen    := BitVec.ofNat 32 (p.width * p.height * 4)
  fpos      := 0
  flen      := 0
  fposValid := false
  flenValid := false
  inMem     := []
  outMem    := []
  pixMem    := []
  hidden    := Hidden.start p.N
  pending   := []
  readData  := .nothing
  fresh     := 0

/-- The machine right after reset (R38, R160), for the instance of `Config.instanceParams`; no host access pending. -/
def State.reset : State := State.resetWith Config.instanceParams

end Sys2Proof.Machine
end

