-- ==== Sys2Proof/Machine/Ops.lean ====
section
/-! DEFINITION. The shared operations: reading and storing buffer bytes (10_state.md R33 to R35), the byte arithmetic
of 00_scope.md R11 and R12, the start of an operation (R26, R36), and its two ends, `return s` (60_exceptions.md R145)
and `raise E` (R146). -/

namespace Sys2Proof.Machine

/-- The byte listed at index `a`, if any. The list is in rising order, so the search stops at the first larger
index. -/
def Memory.read : Memory → Nat → Option Byte
  | [], _ => none
  | (c, b) :: m, a => if a < c then none else if c = a then some b else Memory.read m a

/-- The bytes at indices `a, a+1, …` (`n` of them), an unlisted one as `dflt` says. A listed index is taken off the
front of the list, so that reading a whole buffer passes over it once. -/
def Memory.range (dflt : Nat → Byte) : Memory → Nat → Nat → List Byte
  | _, _, 0 => []
  | [], a, n + 1 => dflt a :: Memory.range dflt [] (a + 1) n
  | (c, b) :: m, a, n + 1 =>
    if c = a then b :: Memory.range dflt m (a + 1) n
    else (Memory.read ((c, b) :: m) a).getD (dflt a) :: Memory.range dflt ((c, b) :: m) (a + 1) n

/-- The bytes `bs` at indices `a, a+1, …`, in canonical form: a byte equal to what an unlisted index reads as is not
listed. -/
def Memory.ofBytes (sp : Space) : Nat → List Byte → Memory
  | _, [] => []
  | a, b :: bs => if sp.unlisted = some b then Memory.ofBytes sp (a + 1) bs else (a, b) :: Memory.ofBytes sp (a + 1) bs

/-- Storing the bytes `bs` at indices `base, base+1, …`; every other index keeps its byte. -/
def Memory.store (sp : Space) (m : Memory) (base : Nat) (bs : List Byte) : Memory :=
  m.filter (fun c => decide (c.1 < base)) ++ Memory.ofBytes sp base bs
    ++ m.filter (fun c => decide (base + bs.length ≤ c.1))

/-- The byte an unlisted index `i` of a buffer reads as, at draw number `n`: the reset contents of PIX (R38), a free
value in IN and OUT (U1). -/
def unlistedByte (sp : Space) (n i : Nat) : Byte := sp.unlisted.getD (Config.freeByte n i)

/-- The contents of a buffer. -/
def State.mem (s : State) : Space → Memory
  | .inBuf => s.inMem
  | .outBuf => s.outMem
  | .pix => s.pixMem

/-- `MemRead(space, i, 1)` (R13): the byte at index `i` of a buffer. -/
def State.byteAt (s : State) (sp : Space) (i : Nat) : Byte :=
  (Memory.read (s.mem sp) i).getD (unlistedByte sp s.fresh i)

/-- `rotl8(b, r)` for `0 <= r <= 7` (R11). -/
def rotl8 (b : Byte) (r : Nat) : Byte := (b <<< r) ||| (b >>> (8 - r))

/-- `be32(v)`: the four bytes of `v`, bits [31:24] first (R12, R43). -/
def be32 (v : Word) : List Byte :=
  [v.extractLsb' 24 8, v.extractLsb' 16 8, v.extractLsb' 8 8, v.extractLsb' 0 8]

/-- `ube32(s)` of a 4-byte sequence: the first byte is the most significant (R12, R43). -/
def ube32 (s : List Byte) : Nat := s.foldl (fun v b => v * 256 + b.toNat) 0

/-- The start of an operation: `BUSY` becomes 1 (R27) and the hidden state takes its start values (R36). -/
def State.startOp (s : State) : State := { s with busy := true, hidden := Hidden.start s.params.N }

/-- What every operation does when it completes (R27, R28, R30): `ERR` and `OUTLEN` written once, `BUSY` 0. `FPOS` and
`FLEN` become invalid, as "after any other operation" (R32); SCAN and EXTRACT then write them by `State.detected`. The
free values of the next operation are fresh ones. -/
def State.endOp (s : State) (e : ErrCode) (outlen : Nat) : State :=
  { s with
    err := e, outlen := BitVec.ofNat 32 outlen, busy := false, fposValid := false, flenValid := false,
    fresh := s.fresh + 1 }

/-- `return res` (R145): `OUT[0..len res) <- res`, `OUTLEN <- len res`, `ERR <- 0`, `BUSY <- 0`. -/
def State.complete (s : State) (res : List Byte) : State :=
  { s with outMem := Memory.store .outBuf s.outMem 0 res }.endOp .ok res.length

/-- `raise e` (R146): `ERR <- code(e)`, `OUTLEN <- 0`, `BUSY <- 0`; the bytes of OUT become unspecified, so none is
listed any more. Every other write the operation made before it stays. -/
def State.raise (s : State) (e : ErrCode) : State := { s with outMem := [] }.endOp e 0

/-- `FPOS <- m`, and `FLEN <- L` where the LENGTH field was read (R32, R122, R134). -/
def State.detected (s : State) (m : Nat) : Option Nat → State
  | none => { s with fpos := BitVec.ofNat 32 m, fposValid := true }
  | some l =>
    { s with fpos := BitVec.ofNat 32 m, fposValid := true, flen := BitVec.ofNat 32 l, flenValid := true }

end Sys2Proof.Machine
end

