-- ==== Sys2Proof/Machine/Operands.lean ====
section
/-! DEFINITION. The operand forms (30_encoding.md R71): the operand `IN[0..INLEN)`, the pixel buffer `PIX[0..PIXLEN)`,
the result `OUT[0..OUTLEN)`, and the constants and places derived from the parameters (R9, R60, R99). -/

namespace Sys2Proof.Machine

/-- `SPB = 8 / B`, symbols per byte (R9). -/
def spb (B : Nat) : Nat := 8 / B

/-- `MASK = 2^B - 1` as a byte (R9). -/
def mask (B : Nat) : Byte := BitVec.ofNat 8 (2 ^ B - 1)

/-- The low `B` bits of a symbol unit; bits [7:B] are ignored, whatever they hold (R59). -/
def symbolOf (B : Nat) (u : Byte) : Byte := u &&& mask B

/-- The byte offset of slot `k`, `2 + 4k` (R45, R99). -/
def slotAddr (k : Nat) : Nat := 2 + 4 * k

/-- `slots(n)`: how many slots a buffer of `n` bytes offers (R99). -/
def slots (n : Nat) : Nat := (n + 1) / 4

/-- `IN[0..INLEN)`, the operand of every operation that takes one (R71). -/
def State.operand (s : State) : List Byte :=
  Memory.range (unlistedByte .inBuf s.fresh) s.inMem 0 s.inlen.toNat

/-- `PIX[0..PIXLEN)`, the pixel buffer held (R35). -/
def State.pixels (s : State) : List Byte :=
  Memory.range (unlistedByte .pix s.fresh) s.pixMem 0 s.pixlen.toNat

/-- `OUT[0..OUTLEN)`, the result of the last operation (R34). -/
def State.result (s : State) : List Byte :=
  Memory.range (unlistedByte .outBuf s.fresh) s.outMem 0 s.outlen.toNat

/-- `PIX[0..len X) <- X`, with nothing held beyond it: the byte sequence `X` is the whole buffer (R101, R103). -/
def State.withPixels (s : State) (X : List Byte) : State := { s with pixMem := Memory.ofBytes .pix 0 X }

/-- `INLEN > INMAX` (R149a): the operand does not fit IN. -/
def State.operandTooLong (s : State) : Bool := s.params.inmax < s.inlen.toNat

/-- A result of `n` bytes would be longer than `OUTMAX` (R149b). -/
def State.resultTooLong (s : State) (n : Nat) : Bool := s.params.outmax < n

end Sys2Proof.Machine
end

