-- ==== Sys2Proof/Machine/BitPacker.lean ====
section
/-! DEFINITION. The bit-packer (40_bit_packer.md): the pure functions `pack` and `unpack`, and PACK and UNPACK. -/

namespace Sys2Proof.Machine

/-- Symbol `t` of byte `b`: `(b >> (8 - B*(t+1))) & MASK`, most significant group first (R58). -/
def packSymbol (B : Nat) (b : Byte) (t : Nat) : Byte := (b >>> (8 - B * (t + 1))) &&& mask B

/-- `pack(s)` (R78): for each byte, its `SPB` symbols in order. -/
def pack (B : Nat) (s : List Byte) : List Byte :=
  s.flatMap fun b => (List.range (spb B)).map (packSymbol B b)

/-- One step of the accumulator of R82: `((acc << B) | (u & MASK)) & 0xFF`. -/
def joinStep (B : Nat) (acc u : Byte) : Byte := (acc <<< B) ||| symbolOf B u

/-- The byte a group of symbol units stands for, by left-shifting and OR-ing (R82). -/
def joinByte (B : Nat) (g : List Byte) : Byte := g.foldl (joinStep B) 0

/-- The bytes of the first `n` groups of `SPB` symbol units. -/
def unpackGroups (B : Nat) : Nat → List Byte → List Byte
  | 0, _ => []
  | n + 1, y => joinByte B (y.take (spb B)) :: unpackGroups B n (y.drop (spb B))

/-- `unpack(y)` (R82): whole groups only, a trailing partial group is dropped. -/
def unpack (B : Nat) (y : List Byte) : List Byte := unpackGroups B (y.length / spb B) y

/-- PACK (R79). -/
def execPack (s : State) : Host.Outcome State Fault Refusal :=
  if s.operandTooLong then .next (s.raise .operandTooLong)
  else if s.resultTooLong (s.inlen.toNat * spb s.params.B) then .next (s.raise .operandTooLong)
  else .next (s.complete (pack s.params.B s.operand))

/-- UNPACK (R83). -/
def execUnpack (s : State) : Host.Outcome State Fault Refusal :=
  if s.operandTooLong then .next (s.raise .operandTooLong)
  else if s.resultTooLong (s.inlen.toNat / spb s.params.B) then .next (s.raise .operandTooLong)
  else .next (s.complete (unpack s.params.B s.operand))

end Sys2Proof.Machine
end

