-- ==== Sys2Proof/Machine/FrameUnits.lean ====
section
/-! DEFINITION. The frame builder and the frame scanner (43_frame.md): the pure functions `frame` and `scan`, and FRAME
and SCAN. -/

namespace Sys2Proof.Machine

/-- `frame(e) = MAGIC || be32(len(e)) || e` (R62, R117). -/
def frame (g : Magic) (e : List Byte) : List Byte := g.bytes ++ be32 (BitVec.ofNat 32 e.length) ++ e

/-- The least `m` with `m + 4 <= len(s)` and `s[m..m+4) = MAGIC` (R121 step 1), scanning left to right. -/
def findMagic (g : Magic) : List Byte → Option Nat
  | [] => none
  | b :: s => if g.bytes.isPrefixOf (b :: s) then some 0 else (findMagic g s).map (· + 1)

/-- The four outcomes of `scan` (R121). -/
inductive ScanResult where
  | noPayloadFound
  | truncatedHeader (m : Nat)
  | payloadOverrun (m l : Nat)
  | found (m l : Nat) (e : List Byte)
deriving DecidableEq, Repr

/-- `scan(s)` (R121): the outcome is decided in the order of its steps. -/
def scan (g : Magic) (s : List Byte) : ScanResult :=
  match findMagic g s with
  | none => .noPayloadFound
  | some m =>
    if s.length - m < 8 then .truncatedHeader m
    else
      let l := ube32 ((s.drop (m + 4)).take 4)
      if s.length - (m + 8) < l then .payloadOverrun m l
      else .found m l ((s.drop (m + 8)).take l)

/-- FRAME (R118). -/
def execFrame (s : State) : Host.Outcome State Fault Refusal :=
  if s.operandTooLong then .next (s.raise .operandTooLong)
  else if s.resultTooLong (8 + s.inlen.toNat) then .next (s.raise .operandTooLong)
  else .next (s.complete (frame s.params.magic s.operand))

/-- SCAN (R122): the result capacity is tested before `FPOS` and `FLEN` are written (90_conflicts.md C11). -/
def execScan (s : State) : Host.Outcome State Fault Refusal :=
  if s.operandTooLong then .next (s.raise .operandTooLong)
  else
    match scan s.params.magic s.operand with
    | .noPayloadFound => .next (s.raise .noPayloadFound)
    | .truncatedHeader m => .next ((s.raise .truncatedHeader).detected m none)
    | .payloadOverrun m l => .next ((s.raise .payloadOverrun).detected m (some l))
    | .found m l e =>
      if s.resultTooLong l then .next (s.raise .operandTooLong)
      else .next ((s.complete e).detected m (some l))

end Sys2Proof.Machine
end

