-- ==== Sys2Proof/Machine/Parity.lean ====
section
/-! DEFINITION. The parity codec (41_parity.md): the pure functions `penc` and `pdec`, and PENC and PDEC. -/

namespace Sys2Proof.Machine

/-- XOR over the bytes of `p` of the byte rotated left, the first by `r mod 8`, each next one by one more; `0x00` over
no bytes (R88). -/
def parityFrom : Nat → List Byte → Byte
  | _, [] => 0
  | r, b :: p => rotl8 b (r % 8) ^^^ parityFrom (r + 1) p

/-- `par[i]`: XOR over `j` of `rotl8(p[j], (i + j) mod 8)`, with `j` counted from 0 (R88, log entry 19). -/
def parityByte (p : List Byte) (i : Nat) : Byte := parityFrom i p

/-- The `N` parity bytes of a payload (R88). -/
def parity (N : Nat) (p : List Byte) : List Byte := (List.range N).map (parityByte p)

/-- `penc(p) = p || par` (R88). -/
def penc (N : Nat) (p : List Byte) : List Byte := p ++ parity N p

/-- `pdec(d)` (R93): fails with TooShort (here `none`) when `len(d) < N`, else `d` less its last `N` bytes, which are
not looked at. -/
def pdec (N : Nat) (d : List Byte) : Option (List Byte) :=
  if d.length < N then none else some (d.take (d.length - N))

/-- PENC (R89). -/
def execPenc (s : State) : Host.Outcome State Fault Refusal :=
  if s.operandTooLong then .next (s.raise .operandTooLong)
  else if s.resultTooLong (s.inlen.toNat + s.params.N) then .next (s.raise .operandTooLong)
  else .next (s.complete (penc s.params.N s.operand))

/-- PDEC (R94). -/
def execPdec (s : State) : Host.Outcome State Fault Refusal :=
  if s.operandTooLong then .next (s.raise .operandTooLong)
  else
    match pdec s.params.N s.operand with
    | none => .next (s.raise .tooShort)
    | some p =>
      if s.resultTooLong (s.inlen.toNat - s.params.N) then .next (s.raise .operandTooLong)
      else .next (s.complete p)

end Sys2Proof.Machine
end

