-- ==== Sys2Proof/Machine/PixelBuffer.lean ====
section
/-! DEFINITION. The pixel buffer (42_pixel_buffer.md): the pure functions `embed` and `xtract` over pixel quads (R60),
and INGEST, EMBED and XTRACT. -/

namespace Sys2Proof.Machine

/-- A blue byte with a symbol written: bits [7:B] kept, bits [B-1:0] the symbol (R61, R103). -/
def embedByte (B : Nat) (x u : Byte) : Byte := (x &&& (0xFF - mask B)) ||| symbolOf B u

/-- `embed(X, y, len y)` (R103): the next symbol into the blue byte of the next pixel quad, in buffer order, until the
symbols or the slots are exhausted. A last quad cut short after its blue byte still has its slot (R99). -/
def embed (B : Nat) : List Byte → List Byte → List Byte
  | r :: g :: b :: a :: X, u :: y => r :: g :: embedByte B b u :: a :: embed B X y
  | [r, g, b], u :: _ => [r, g, embedByte B b u]
  | X, _ => X

/-- `xtract(X)` (R108): the low `B` bits of every blue byte, in buffer order. -/
def xtract (B : Nat) : List Byte → List Byte
  | _ :: _ :: b :: _ :: X => symbolOf B b :: xtract B X
  | [_, _, b] => [symbolOf B b]
  | _ => []

/-- The writer (R104, R129): the symbols `y` into the buffer held. With `ATOMIC = 1` capacity is checked before the
first write; with `ATOMIC = 0` the slots there are have been written when CapacityExceeded is raised (R105). -/
def State.writeSymbols (s : State) (y : List Byte) : State :=
  let S := slots s.pixlen.toNat
  if s.params.atomic && decide (S < y.length) then s.raise .capacityExceeded
  else
    let w := s.withPixels (embed s.params.B s.pixels (y.take (min y.length S)))
    if S < y.length then w.raise .capacityExceeded else w.complete []

/-- INGEST (R101): IN replaces the buffer held wholesale; its length is not checked against the dimensions (R102). -/
def execIngest (s : State) : Host.Outcome State Fault Refusal :=
  if s.operandTooLong then .next (s.raise .operandTooLong)
  else if s.params.pixmax < s.inlen.toNat then .next (s.raise .operandTooLong)
  else .next ({ s.withPixels s.operand with pixlen := s.inlen, ingested := true }.complete [])

/-- EMBED (R104, R105). -/
def execEmbed (s : State) : Host.Outcome State Fault Refusal :=
  if s.operandTooLong then .next (s.raise .operandTooLong)
  else .next (s.writeSymbols s.operand)

/-- XTRACT (R109). -/
def execXtract (s : State) : Host.Outcome State Fault Refusal :=
  if s.resultTooLong (slots s.pixlen.toNat) then .next (s.raise .operandTooLong)
  else .next (s.complete (xtract s.params.B s.pixels))

end Sys2Proof.Machine
end

