-- ==== Sys2Proof/Machine/Composite.lean ====
section
/-! DEFINITION. The composite operations (44_composite.md): INJECT and EXTRACT. Their intermediate sequences are inside
the block, bounded by neither `INMAX` nor `OUTMAX` (R128). -/

namespace Sys2Proof.Machine

/-- The symbols INJECT writes for a payload: `pack(frame(penc(p)))` (R129). -/
def injectSymbols (p : Params) (payload : List Byte) : List Byte :=
  pack p.B (frame p.magic (penc p.N payload))

/-- The stream EXTRACT scans: `unpack(xtract(X))`, over the whole buffer (R134, R136). -/
def extractStream (p : Params) (X : List Byte) : List Byte := unpack p.B (xtract p.B X)

/-- INJECT (R129). -/
def execInject (s : State) : Host.Outcome State Fault Refusal :=
  if s.operandTooLong then .next (s.raise .operandTooLong)
  else .next (s.writeSymbols (injectSymbols s.params s.operand))

/-- EXTRACT (R134): IN and `INLEN` are ignored. -/
def execExtract (s : State) : Host.Outcome State Fault Refusal :=
  match scan s.params.magic (extractStream s.params s.pixels) with
  | .noPayloadFound => .next (s.raise .noPayloadFound)
  | .truncatedHeader m => .next ((s.raise .truncatedHeader).detected m none)
  | .payloadOverrun m l => .next ((s.raise .payloadOverrun).detected m (some l))
  | .found m l e =>
    match pdec s.params.N e with
    | none => .next ((s.raise .tooShort).detected m (some l))
    | some p =>
      if s.resultTooLong (l - s.params.N) then .next (s.raise .operandTooLong)
      else .next ((s.complete p).detected m (some l))

end Sys2Proof.Machine
end

