-- ==== Sys2Proof/Machine/Dispatch.lean ====
section
/-! DEFINITION. The meaning of every operation of 30_encoding.md R70, one arm each. -/

namespace Sys2Proof.Machine

def exec (i : Instr) (s : State) : Host.Outcome State Fault Refusal :=
  match i with
  | .pack => Sys2Proof.Machine.execPack s
  | .unpack => Sys2Proof.Machine.execUnpack s
  | .penc => Sys2Proof.Machine.execPenc s
  | .pdec => Sys2Proof.Machine.execPdec s
  | .frame => Sys2Proof.Machine.execFrame s
  | .scan => Sys2Proof.Machine.execScan s
  | .ingest => Sys2Proof.Machine.execIngest s
  | .embed => Sys2Proof.Machine.execEmbed s
  | .xtract => Sys2Proof.Machine.execXtract s
  | .inject => Sys2Proof.Machine.execInject s
  | .extract => Sys2Proof.Machine.execExtract s

end Sys2Proof.Machine
end

