-- ==== Sys2Proof/Machine/Flags.lean ====
section
/-! DEFINITION. The numbered registers as the host sees them: register numbers, the fields of `STATUS`, `ERR` and the
parameter registers (10_state.md R19 to R32), and the codes of the error kinds (60_exceptions.md R141). -/

namespace Sys2Proof.Machine

/-- The seventeen registers (R19 to R32). -/
inductive Reg where
  | cmd | status | err | inlen | outlen | pixlen | width | height
  | cfgB | cfgN | cfgMagic | cfgMode | inmax | outmax | pixmax | fpos | flen
deriving DecidableEq, Repr

/-- The register of a register number, `0x00` to `0x10` (R39); no other number is a register (R41). -/
def regOfNumber : Nat → Option Reg
  | 0x00 => some .cmd
  | 0x01 => some .status
  | 0x02 => some .err
  | 0x03 => some .inlen
  | 0x04 => some .outlen
  | 0x05 => some .pixlen
  | 0x06 => some .width
  | 0x07 => some .height
  | 0x08 => some .cfgB
  | 0x09 => some .cfgN
  | 0x0A => some .cfgMagic
  | 0x0B => some .cfgMode
  | 0x0C => some .inmax
  | 0x0D => some .outmax
  | 0x0E => some .pixmax
  | 0x0F => some .fpos
  | 0x10 => some .flen
  | _ => none

/-- The number of an error kind in `ERR[7:0]` (R141). -/
def ErrCode.code : ErrCode → Byte
  | .ok => 0
  | .capacityExceeded => 1
  | .noPayloadFound => 2
  | .truncatedHeader => 3
  | .payloadOverrun => 4
  | .tooShort => 5
  | .illegalCommand => 6
  | .operandTooLong => 7

/-- `ERR`: bits [7:0] the code, bits [31:8] read 0 (R28). -/
def errWord (e : ErrCode) : Word := (0 : BitVec 24) ++ e.code

/-- `STATUS`: bit 0 `BUSY`, bit 1 `INGESTED`, bits [31:2] read 0 (R27). -/
def statusWord (busy ingested : Bool) : Word :=
  (0 : BitVec 30) ++ BitVec.ofBool ingested ++ BitVec.ofBool busy

/-- `CFG_B`: bits [3:0] hold `B`, bits [31:4] read 0 (R19). -/
def cfgBWord (B : Nat) : Word := (0 : BitVec 28) ++ BitVec.ofNat 4 B

/-- `CFG_MAGIC`: `MAGIC[0]` in bits [31:24] down to `MAGIC[3]` in bits [7:0] (R21). -/
def cfgMagicWord (g : Magic) : Word := g.m0 ++ g.m1 ++ g.m2 ++ g.m3

/-- `CFG_MODE`: bit 0 holds `ATOMIC`, bits [31:1] read 0 (R24). -/
def cfgModeWord (atomic : Bool) : Word := (0 : BitVec 31) ++ BitVec.ofBool atomic

/-- What a read of a register returns (R19 to R32). `CMD` is write-only and reads 0 (R26). `FPOS` and `FLEN`, while not
valid, read as a free value (R32). -/
def State.regValue (s : State) : Reg → Word
  | .cmd => 0
  | .status => statusWord s.busy s.ingested
  | .err => errWord s.err
  | .inlen => s.inlen
  | .outlen => s.outlen
  | .pixlen => s.pixlen
  | .width => BitVec.ofNat 32 s.params.width
  | .height => BitVec.ofNat 32 s.params.height
  | .cfgB => cfgBWord s.params.B
  | .cfgN => BitVec.ofNat 32 s.params.N
  | .cfgMagic => cfgMagicWord s.params.magic
  | .cfgMode => cfgModeWord s.params.atomic
  | .inmax => BitVec.ofNat 32 s.params.inmax
  | .outmax => BitVec.ofNat 32 s.params.outmax
  | .pixmax => BitVec.ofNat 32 s.params.pixmax
  | .fpos => if s.fposValid then s.fpos else Config.freeWord s.fresh 0
  | .flen => if s.flenValid then s.flen else Config.freeWord s.fresh 1

end Sys2Proof.Machine
end

