-- ==== Sys2Proof/Machine/HostPort.lean ====
section
/-! DEFINITION. What each access of the host does (20_memory.md R41, R46, R50), issuing an operation by a write to `CMD`
(10_state.md R26, 60_exceptions.md R148), the `LOAD` and `MOVE` lines of a host program (30_encoding.md R75), and reset
(70_reset_and_hazards.md R159). -/

namespace Sys2Proof.Machine

/-- The capacity of a buffer in bytes (R39). -/
def State.capacity (s : State) : Space → Nat
  | .inBuf => s.params.inmax
  | .outBuf => s.params.outmax
  | .pix => s.params.pixmax

/-- How many bytes of a buffer a host read shows: any byte of IN (R33), `OUT[0..OUTLEN)` (R34), `PIX[0..PIXLEN)`
(R35). -/
def State.shown (s : State) : Space → Nat
  | .inBuf => s.params.inmax
  | .outBuf => s.outlen.toNat
  | .pix => s.pixlen.toNat

/-- What a host read of a buffer byte returns: the byte held, or a free value where the spec calls it unspecified
(R34, R35). -/
def State.hostByte (s : State) (sp : Space) (i : Nat) : Byte :=
  if i < s.shown sp then s.byteAt sp i else Config.freeByte s.fresh i

/-- `dimensions()`: the declared width and height (R112). -/
def State.dimensions (s : State) : Nat × Nat := (s.params.width, s.params.height)

/-- `pixelData()`: a read-only view of the buffer held (R112). -/
def State.pixelData (s : State) : List Byte := s.pixels

/-- A write of the word `w` to `CMD` (R26): the operation it selects runs to completion; a reserved word completes at
once as `raise IllegalCommand` (R72, R148). -/
def writeCmd (w : Word) (s : State) : Host.Outcome State Fault Refusal :=
  match decode w with
  | .ok i => exec i s.startOp
  | .error _ => .next (s.startOp.raise .illegalCommand)

/-- A host read of a register. It changes nothing of the block (R50). While `BUSY = 1` only `STATUS` may be read
(R41). -/
def hostReadReg (n : Nat) (s : State) : Host.Outcome State Fault Refusal :=
  match regOfNumber n with
  | none => .refused (.registerOutside n)
  | some r =>
    if s.busy && r != .status then .refused .hostWhileBusy
    else .next { s with readData := .word (s.regValue r), fresh := s.fresh + 1 }

/-- A host write of a register: `CMD` issues an operation, `INLEN` stores the value as written (R29), every other
register is read-only and nothing changes (R41). -/
def hostWriteReg (n : Nat) (v : Word) (s : State) : Host.Outcome State Fault Refusal :=
  match regOfNumber n with
  | none => .refused (.registerOutside n)
  | some r =>
    if s.busy then .refused .hostWhileBusy
    else
      match r with
      | .cmd => writeCmd v s
      | .inlen => .next { s with inlen := v }
      | _ => .next s

/-- A host read of a buffer byte. It changes nothing of the block (R50). -/
def hostReadByte (sp : Space) (i : Nat) (s : State) : Host.Outcome State Fault Refusal :=
  if s.busy then .refused .hostWhileBusy
  else if s.capacity sp ≤ i then .refused (.indexOutside sp i)
  else .next { s with readData := .byte (s.hostByte sp i), fresh := s.fresh + 1 }

/-- A host write of a buffer byte: IN stores it; "A host write to a read-only register, to OUT or to PIX changes
nothing" (R41). -/
def hostWriteByte (sp : Space) (i : Nat) (b : Byte) (s : State) : Host.Outcome State Fault Refusal :=
  if s.busy then .refused .hostWhileBusy
  else if s.capacity sp ≤ i then .refused (.indexOutside sp i)
  else
    match sp with
    | .inBuf => .next { s with inMem := Memory.store .inBuf s.inMem i [b] }
    | .outBuf => .next s
    | .pix => .next s

/-- `LOAD` (R75): the bytes to `IN[0..)` and their count to `INLEN`, in one step (log entry 4). -/
def hostLoad (bs : List Byte) (s : State) : Host.Outcome State Fault Refusal :=
  if s.busy then .refused .hostWhileBusy
  else if s.params.inmax < bs.length then .refused (.indexOutside .inBuf s.params.inmax)
  else .next { s with inMem := Memory.store .inBuf s.inMem 0 bs, inlen := BitVec.ofNat 32 bs.length }

/-- `MOVE` (R75): `OUT[0..OUTLEN)` to `IN[0..)` and `OUTLEN` to `INLEN`, in one step (log entry 4). Of a result longer
than IN the bytes that IN has room for are copied, and `INLEN` is stored as it is (R29), so that the next operation that
reads IN ends with OperandTooLong (R132, log entry 27). -/
def hostMove (s : State) : Host.Outcome State Fault Refusal :=
  if s.busy then .refused .hostWhileBusy
  else
    .next { s with
      inMem := Memory.store .inBuf s.inMem 0 (s.result.take s.params.inmax)
      inlen := s.outlen
      fresh := s.fresh + 1 }

/-- Reset with instance parameters `p` (R159, R160): the state of R38. The host's coming accesses are not the block's
and stay. An instance whose parameters break R25 is refused. -/
def hostReset (p : Params) (s : State) : Host.Outcome State Fault Refusal :=
  if s.busy then .refused .resetWhileBusy
  else if p.legal then
    .next { State.resetWith p with pending := s.pending, readData := s.readData, fresh := s.fresh }
  else .refused .instanceIllegal

/-- One access of the host (R41, R75, R159). -/
def hostStep (a : HostAction) (s : State) : Host.Outcome State Fault Refusal :=
  match a with
  | .readReg n => hostReadReg n s
  | .writeReg n v => hostWriteReg n v s
  | .readByte sp i => hostReadByte sp i s
  | .writeByte sp i b => hostWriteByte sp i b s
  | .load bs => hostLoad bs s
  | .move => hostMove s
  | .reset p => hostReset p s

/-- The host program line of a mnemonic (R75): the host writes the operation's command word to `CMD`. -/
def hostCommand (i : Instr) : HostAction := .writeReg 0x00 (encode i)

end Sys2Proof.Machine
end

