-- ==== Sys2Proof/Machine/Step.lean ====
section
/-! DEFINITION. One step of the machine: the host's next access is performed. There is no program counter and no fetch
(10_state.md R18): the operation is the word the host writes to `CMD`. -/

namespace Sys2Proof.Machine

/-- One step: the first pending access of the host; with none pending the block waits (R160, R175). -/
def step (s : State) : Host.Outcome State Fault Refusal :=
  match s.pending with
  | [] => .next s
  | a :: rest => hostStep a { s with pending := rest }

/-- The state `s` with the command word `w` as the host's very next access, a write to `CMD` (R26), and with `BUSY = 0`,
which such a write needs (log entry 5). The bits of `w` above `nbits` are 0. -/
def State.withFetchWord (s : State) (nbits w : Nat) : State :=
  { s with busy := false, pending := .writeReg 0x00 (BitVec.ofNat 32 (w % 2 ^ nbits)) :: s.pending }

end Sys2Proof.Machine
end

