-- ==== Sys2Proof/Machine/Sequencer.lean ====
section
/-! DEFINITION. The operations as sequencers, with the step counts of R177: the six loops the spec writes out (R80, R84,
R90, R106, R110, R123) and the five whose count R177 gives (PDEC, FRAME, INGEST, INJECT, EXTRACT), as machines that take
one symbol, byte or slot per cycle over the hidden state of R36. `exec` takes one operation as one transition and runs
none of them (R27, R36); each starts from `State.startOp` and its last cycle is the completion of R145 or R146. -/

namespace Sys2Proof.Machine

/-- One cycle of a sequencer: it goes on with `BUSY = 1`, or the operation has completed. -/
inductive Cycle where
  | busy (s : State)
  | done (s : State)
deriving DecidableEq, Repr

/-- At most `n` cycles of a sequencer, stopping when the operation completes. -/
def Cycle.run (cycle : State → Cycle) : Nat → State → Cycle
  | 0, s => .busy s
  | n + 1, s =>
    match cycle s with
    | .busy t => Cycle.run cycle n t
    | .done t => .done t

/-- `OUT[i] <- b`. -/
def State.putOut (s : State) (i : Nat) (b : Byte) : State :=
  { s with outMem := Memory.store .outBuf s.outMem i [b] }

/-- `PIX[i] <- b`. -/
def State.putPix (s : State) (i : Nat) (b : Byte) : State :=
  { s with pixMem := Memory.store .pix s.pixMem i [b] }

/-- One cycle of a copy of `n` bytes to `OUT[0..n)`, byte `q` from `src q`. -/
def copyCycle (n : Nat) (src : Nat → Byte) (s : State) : Cycle :=
  let h := s.hidden
  if h.q < n then .busy { s.putOut h.q (src h.q) with hidden := { h with q := h.q + 1 } }
  else .done (s.endOp .ok n)

/-- A payload byte into all `N` parity accumulators at phase `j mod 8` (R90). -/
def Hidden.absorb (h : Hidden) (b : Byte) : Hidden :=
  { h with
    phase := (h.phase + 1) % 8
    par := h.par.mapIdx fun i a => a ^^^ rotl8 b ((i + h.phase) % 8) }

/-- Byte `q` of the frame header `MAGIC || be32(len)` (R62), `q < 8`. -/
def headerByte (g : Magic) (len q : Nat) : Byte := (g.bytes ++ be32 (BitVec.ofNat 32 len)).getD q 0

/-! ### The bit-packer -/

/-- One cycle of R80: symbol `t` of byte `q`. -/
def packCycle (s : State) : Cycle :=
  let h := s.hidden
  let B := s.params.B
  if h.q < s.inlen.toNat then
    let w := s.putOut (h.q * spb B + h.t) (packSymbol B (s.byteAt .inBuf h.q) h.t)
    if h.t + 1 = spb B then .busy { w with hidden := { h with t := 0, q := h.q + 1 } }
    else .busy { w with hidden := { h with t := h.t + 1 } }
  else .done (s.endOp .ok (s.inlen.toNat * spb B))

/-- PACK as a sequencer (R79's tests, then R80). -/
def packSequencer (n : Nat) (s : State) : Cycle :=
  if s.operandTooLong || s.resultTooLong (s.inlen.toNat * spb s.params.B) then .done (s.raise .operandTooLong)
  else Cycle.run packCycle n s

/-- One cycle of R84: unit `k` into the accumulator; a full group is written, a partial one never. -/
def unpackCycle (s : State) : Cycle :=
  let h := s.hidden
  let B := s.params.B
  if h.k < s.inlen.toNat then
    let acc := joinStep B h.acc (s.byteAt .inBuf h.k)
    if h.t + 1 = spb B then
      .busy { s.putOut h.q acc with hidden := { h with k := h.k + 1, q := h.q + 1, t := 0, acc := 0 } }
    else .busy { s with hidden := { h with k := h.k + 1, t := h.t + 1, acc := acc } }
  else .done (s.endOp .ok h.q)

/-- UNPACK as a sequencer (R83's tests, then R84). -/
def unpackSequencer (n : Nat) (s : State) : Cycle :=
  if s.operandTooLong || s.resultTooLong (s.inlen.toNat / spb s.params.B) then .done (s.raise .operandTooLong)
  else Cycle.run unpackCycle n s

/-! ### The parity codec -/

/-- One cycle of R90: a payload byte into OUT and into all `N` accumulators at phase `j mod 8`; then one accumulator
into OUT. -/
def pencCycle (s : State) : Cycle :=
  let h := s.hidden
  if h.q < s.inlen.toNat then
    let b := s.byteAt .inBuf h.q
    .busy { s.putOut h.q b with hidden := { h.absorb b with q := h.q + 1 } }
  else if h.k < s.params.N then
    .busy { s.putOut (s.inlen.toNat + h.k) (h.par.getD h.k 0) with hidden := { h with k := h.k + 1 } }
  else .done (s.endOp .ok (s.inlen.toNat + s.params.N))

/-- PENC as a sequencer (R89's tests, then R90). -/
def pencSequencer (n : Nat) (s : State) : Cycle :=
  if s.operandTooLong || s.resultTooLong (s.inlen.toNat + s.params.N) then .done (s.raise .operandTooLong)
  else Cycle.run pencCycle n s

/-- One cycle of PDEC: one of the `INLEN - N` copies of R177. The last `N` bytes of IN are not read (R94). -/
def pdecCycle (s : State) : Cycle := copyCycle (s.inlen.toNat - s.params.N) (s.byteAt .inBuf) s

/-- PDEC as a sequencer (R94's tests, then the copies). -/
def pdecSequencer (n : Nat) (s : State) : Cycle :=
  if s.operandTooLong then .done (s.raise .operandTooLong)
  else if s.inlen.toNat < s.params.N then .done (s.raise .tooShort)
  else if s.resultTooLong (s.inlen.toNat - s.params.N) then .done (s.raise .operandTooLong)
  else Cycle.run pdecCycle n s

/-! ### The pixel buffer -/

/-- One cycle of R101's loop: `PIX[q] <- IN[q]`; after the last byte the buffer held is the `INLEN` bytes written. -/
def ingestCycle (s : State) : Cycle :=
  let h := s.hidden
  if h.q < s.inlen.toNat then
    .busy { s.putPix h.q (s.byteAt .inBuf h.q) with hidden := { h with q := h.q + 1 } }
  else
    .done ({ s with
      pixMem := s.pixMem.filter (fun c => decide (c.1 < s.inlen.toNat)), pixlen := s.inlen,
      ingested := true }.endOp .ok 0)

/-- INGEST as a sequencer (R101). -/
def ingestSequencer (n : Nat) (s : State) : Cycle :=
  if s.operandTooLong || decide (s.params.pixmax < s.inlen.toNat) then .done (s.raise .operandTooLong)
  else Cycle.run ingestCycle n s

/-- One cycle of R106: symbol `k` into the byte at `p`; past the end of the buffer, CapacityExceeded. -/
def embedCycle (s : State) : Cycle :=
  let h := s.hidden
  if h.k < s.inlen.toNat then
    if s.pixlen.toNat ≤ h.p then .done (s.raise .capacityExceeded)
    else
      .busy { s.putPix h.p (embedByte s.params.B (s.byteAt .pix h.p) (s.byteAt .inBuf h.k)) with
        hidden := { h with k := h.k + 1, p := h.p + 4 } }
  else .done (s.endOp .ok 0)

/-- EMBED as a sequencer (R104's tests, then R106). -/
def embedSequencer (n : Nat) (s : State) : Cycle :=
  if s.operandTooLong then .done (s.raise .operandTooLong)
  else if s.params.atomic && decide (slots s.pixlen.toNat < s.inlen.toNat) then .done (s.raise .capacityExceeded)
  else Cycle.run embedCycle n s

/-- One cycle of R110: the low bits of the byte at `p` into `OUT[k]`. -/
def xtractCycle (s : State) : Cycle :=
  let h := s.hidden
  if h.p < s.pixlen.toNat then
    .busy { s.putOut h.k (symbolOf s.params.B (s.byteAt .pix h.p)) with
      hidden := { h with k := h.k + 1, p := h.p + 4 } }
  else .done (s.endOp .ok h.k)

/-- XTRACT as a sequencer (R109's test, then R110). -/
def xtractSequencer (n : Nat) (s : State) : Cycle :=
  if s.resultTooLong (slots s.pixlen.toNat) then .done (s.raise .operandTooLong)
  else Cycle.run xtractCycle n s

/-! ### The frame units -/

/-- One cycle of FRAME: one of the `8 + INLEN` bytes of R177, the header's first. -/
def frameCycle (s : State) : Cycle :=
  copyCycle (8 + s.inlen.toNat)
    (fun q => if q < 8 then headerByte s.params.magic s.inlen.toNat q else s.byteAt .inBuf (q - 8)) s

/-- FRAME as a sequencer (R118's tests, then the bytes). -/
def frameSequencer (n : Nat) (s : State) : Cycle :=
  if s.operandTooLong || s.resultTooLong (8 + s.inlen.toNat) then .done (s.raise .operandTooLong)
  else Cycle.run frameCycle n s

/-- One cycle of R123 over a stream of `n` bytes, byte `i` being `src i`: the window slides by one byte until it holds
MAGIC; then the header is judged, and the payload is copied one byte per cycle, but for its last `strip` bytes. -/
def streamCycle (n : Nat) (src : Nat → Byte) (strip : Nat) (s : State) : Cycle :=
  let h := s.hidden
  if h.m + 4 ≤ n ∧ h.window ≠ s.params.magic.bytes then
    .busy { s with hidden := { h with m := h.m + 1, window := h.window.drop 1 ++ [src (h.m + 4)] } }
  else if n < h.m + 4 then .done (s.raise .noPayloadFound)
  else if n - h.m < 8 then .done ((s.raise .truncatedHeader).detected h.m none)
  else
    let l := ube32 ((List.range 4).map fun i => src (h.m + 4 + i))
    if n - h.m - 8 < l then .done ((s.raise .payloadOverrun).detected h.m (some l))
    else if l < strip then .done ((s.raise .tooShort).detected h.m (some l))
    else if s.resultTooLong (l - strip) then .done (s.raise .operandTooLong)
    else if h.q < l - strip then
      .busy { s.putOut h.q (src (h.m + 8 + h.q)) with hidden := { h with q := h.q + 1 } }
    else .done ((s.endOp .ok (l - strip)).detected h.m (some l))

/-- One cycle of SCAN (R123), over IN. -/
def scanCycle (s : State) : Cycle := streamCycle s.inlen.toNat (s.byteAt .inBuf) 0 s

/-- SCAN as a sequencer (R122's test, the window loaded at position 0, then R123). -/
def scanSequencer (n : Nat) (s : State) : Cycle :=
  if s.operandTooLong then .done (s.raise .operandTooLong)
  else
    Cycle.run scanCycle n
      { s with hidden := { s.hidden with window := (List.range 4).map fun i => s.byteAt .inBuf i } }

/-! ### The composite operations -/

/-- Byte `q` of the frame INJECT writes: the header, the payload from IN, the parity accumulators (R129). -/
def State.injectByte (s : State) (q : Nat) : Byte :=
  if q < 8 then headerByte s.params.magic (s.inlen.toNat + s.params.N) q
  else if q < 8 + s.inlen.toNat then s.byteAt .inBuf (q - 8)
  else s.hidden.par.getD (q - 8 - s.inlen.toNat) 0

/-- The hidden state after symbol `t` of frame byte `q`, the byte `b`: a payload byte whose last symbol is out has gone
into the parity accumulators. -/
def State.injectNext (s : State) (b : Byte) : Hidden :=
  let h := { s.hidden with k := s.hidden.k + 1, p := s.hidden.p + 4 }
  if h.t + 1 = spb s.params.B then
    if 8 ≤ h.q ∧ h.q < 8 + s.inlen.toNat then { h.absorb b with t := 0, q := h.q + 1 }
    else { h with t := 0, q := h.q + 1 }
  else { h with t := h.t + 1 }

/-- One cycle of INJECT: one of the slot writes of R177, symbol `t` of frame byte `q`; past the end of the buffer,
CapacityExceeded. -/
def injectCycle (s : State) : Cycle :=
  let h := s.hidden
  if h.q < 8 + s.inlen.toNat + s.params.N then
    if s.pixlen.toNat ≤ h.p then .done (s.raise .capacityExceeded)
    else
      let b := s.injectByte h.q
      .busy { s.putPix h.p (embedByte s.params.B (s.byteAt .pix h.p) (packSymbol s.params.B b h.t)) with
        hidden := s.injectNext b }
  else .done (s.endOp .ok 0)

/-- INJECT as a sequencer (R129's tests, then the slot writes). -/
def injectSequencer (n : Nat) (s : State) : Cycle :=
  if s.operandTooLong then .done (s.raise .operandTooLong)
  else if s.params.atomic &&
      decide (slots s.pixlen.toNat < (8 + s.inlen.toNat + s.params.N) * spb s.params.B) then
    .done (s.raise .capacityExceeded)
  else Cycle.run injectCycle n s

/-- The hidden state after a slot read of EXTRACT that gave the symbol unit `u`: a full group is a byte of the stream,
whose first four bytes are the match window; a partial group never is one (R136). -/
def State.extractNext (s : State) (u : Byte) : Hidden :=
  let h := { s.hidden with k := s.hidden.k + 1, p := s.hidden.p + 4 }
  let acc := joinStep s.params.B h.acc u
  if h.t + 1 = spb s.params.B then
    { h with t := 0, acc := 0, stream := h.stream ++ [acc], window := (h.stream ++ [acc]).take 4 }
  else { h with t := h.t + 1, acc := acc }

/-- One cycle of EXTRACT: a slot read, until every slot has been converted (R136); then the scan, over the stream, with
the last `N` bytes of the payload found not copied (R134). -/
def extractCycle (s : State) : Cycle :=
  let h := s.hidden
  if h.p < s.pixlen.toNat then
    .busy { s with hidden := s.extractNext (symbolOf s.params.B (s.byteAt .pix h.p)) }
  else streamCycle h.stream.length (fun i => h.stream.getD i 0) s.params.N s

/-- EXTRACT as a sequencer (R134: it tests nothing before the scan). -/
def extractSequencer (n : Nat) (s : State) : Cycle := Cycle.run extractCycle n s

end Sys2Proof.Machine
end

