-- ==== Sys2Proof/Safety.lean ====
section
/-! DEFINITION. What counts as a good state and a safe step, in the terms the claims use: the invariant every step keeps,
the host accesses R41 allows, and the frames of an operation. -/

namespace Sys2Proof.Machine

/-- The invariant of an instance: its parameters are legal (R25), each buffer is in canonical form within its bounds
(R33, R34, R35), `PIXLEN <= PIXMAX` (R31), the result fits OUT and every byte of it is determined (R34), an error leaves
no result (R30, R146), and `FLEN` is valid only where `FPOS` is (R32). -/
structure State.Inv (s : State) : Prop where
  legal     : s.params.legal = true
  inWf      : s.inMem.wf .inBuf
  outWf     : s.outMem.wf .outBuf
  pixWf     : s.pixMem.wf .pix
  inBound   : ∀ c ∈ s.inMem, c.1 < s.params.inmax
  outBound  : ∀ c ∈ s.outMem, c.1 < s.params.outmax
  pixBound  : ∀ c ∈ s.pixMem, c.1 < s.pixlen.toNat
  pixFits   : s.pixlen.toNat ≤ s.params.pixmax
  outFits   : s.outlen.toNat ≤ s.params.outmax
  outListed : ∀ i < s.outlen.toNat, (Memory.read s.outMem i).isSome = true
  errEmpty  : s.err ≠ .ok → s.outlen = 0
  flenFpos  : s.flenValid = true → s.fposValid = true

/-- The host accesses the model allows: while `BUSY = 0` the reads and writes of R41, reset with legal parameters (R159,
R25), and the lines `LOAD` and `MOVE` of R75, each as one access (log entry 4), a `MOVE` whatever its length (log entry 27)
and a `LOAD` of what IN has room for (log entry 15); while `BUSY = 1` only a read of `STATUS` (R27). -/
def State.allows (s : State) (a : HostAction) : Prop :=
  if s.busy then a = .readReg 0x01
  else
    match a with
    | .readReg n => n ≤ 0x10
    | .writeReg n _ => n ≤ 0x10
    | .readByte sp i => i < s.capacity sp
    | .writeByte sp i _ => i < s.capacity sp
    | .load bs => bs.length ≤ s.params.inmax
    | .move => True
    | .reset p => p.legal = true

/-- What no operation changes: the parameters (R8), `INLEN` and every byte of IN (R29, R33), and what is the host's
own. -/
structure State.KeepsOperand (s t : State) : Prop where
  params   : t.params = s.params
  inlen    : t.inlen = s.inlen
  inBytes  : ∀ a, Memory.read t.inMem a = Memory.read s.inMem a
  pending  : t.pending = s.pending
  readData : t.readData = s.readData

/-- The pixel buffer is unchanged: every byte of it, its length, and whether one was ingested. -/
structure State.KeepsPixels (s t : State) : Prop where
  pixlen   : t.pixlen = s.pixlen
  ingested : t.ingested = s.ingested
  pixBytes : ∀ a, Memory.read t.pixMem a = Memory.read s.pixMem a

/-- `FPOS` and `FLEN` are not written, and no read shows their old values any more (R32: "after any other operation, a
read returns an unspecified value"). -/
structure State.ScanUnspecified (s t : State) : Prop where
  fpos      : t.fpos = s.fpos
  flen      : t.flen = s.flen
  fposValid : t.fposValid = false
  flenValid : t.flenValid = false

/-- The operation has completed with `res` as its result (R145): `OUT[0..len res) = res`, byte by byte, every byte of OUT
from there on as before, `OUTLEN = len res`, `ERR = 0`, `BUSY = 0`. -/
structure State.Returns (s t : State) (res : List Byte) : Prop where
  err      : t.err = .ok
  outlen   : t.outlen.toNat = res.length
  idle     : t.busy = false
  outBytes : ∀ i < res.length, Memory.read t.outMem i = some (res.getD i 0)
  outRest  : ∀ i, res.length ≤ i → Memory.read t.outMem i = Memory.read s.outMem i

/-- The operation has completed with error `e` (R146): `ERR` the code, `OUTLEN = 0`, `BUSY = 0`, and no byte of OUT is
determined any more. -/
structure State.Raises (t : State) (e : ErrCode) : Prop where
  err     : t.err = e
  outlen  : t.outlen = 0
  idle    : t.busy = false
  outGone : ∀ i, Memory.read t.outMem i = none

/-- The host performs the accesses of a list one after the other, all of them. -/
def hostRun : List HostAction → State → Host.Outcome State Fault Refusal
  | [], s => .next s
  | a :: as, s =>
    match hostStep a s with
    | .next t => hostRun as t
    | .fault f => .fault f
    | .refused r => .refused r

/-- The host issues operations one after the other with a `MOVE` between two, and stops at the first that ends with an
error (R137: "the host does not issue the rest"). -/
def hostChain : List Instr → State → Host.Outcome State Fault Refusal
  | [], s => .next s
  | i :: is, s =>
    match hostStep (hostCommand i) s with
    | .next t =>
      if t.err = .ok ∧ is ≠ [] then
        match hostStep .move t with
        | .next u => hostChain is u
        | .fault f => .fault f
        | .refused r => .refused r
      else .next t
    | .fault f => .fault f
    | .refused r => .refused r

/-- The error codes an operation can end with (R151). -/
def endCodes : Instr → List ErrCode
  | .pack => [.ok, .operandTooLong]
  | .unpack => [.ok, .operandTooLong]
  | .penc => [.ok, .operandTooLong]
  | .pdec => [.ok, .tooShort, .operandTooLong]
  | .frame => [.ok, .operandTooLong]
  | .scan => [.ok, .noPayloadFound, .truncatedHeader, .payloadOverrun, .operandTooLong]
  | .ingest => [.ok, .operandTooLong]
  | .embed => [.ok, .capacityExceeded, .operandTooLong]
  | .xtract => [.ok, .operandTooLong]
  | .inject => [.ok, .capacityExceeded, .operandTooLong]
  | .extract => [.ok, .noPayloadFound, .truncatedHeader, .payloadOverrun, .tooShort, .operandTooLong]

/-- The operations that take an operand from IN (R40). -/
def readsOperand : Instr → Bool
  | .pack => true
  | .unpack => true
  | .penc => true
  | .pdec => true
  | .frame => true
  | .scan => true
  | .ingest => true
  | .embed => true
  | .xtract => false
  | .inject => true
  | .extract => false

end Sys2Proof.Machine
end

