-- ==== Sys2Proof/Certificates/Slice0/Obligations.lean ====
section
/-! DEFINITION. The statements about the block, from the numbered rules of spec/. A statement about `exec` holds of every
state that meets `State.Inv`, which every step keeps (`EveryStepKeepsTheInvariant`), unless it names less. -/

open Sys2Proof Sys2Proof.Machine

/-! ## The command word -/

/-- R70: the eleven command words and the operations they select. -/
def Obligations.CommandWordsDecodeAsListed : Prop :=
  decode 0x00000001 = .ok .pack ∧ decode 0x00000002 = .ok .unpack ∧ decode 0x00000003 = .ok .penc ∧
  decode 0x00000004 = .ok .pdec ∧ decode 0x00000005 = .ok .frame ∧ decode 0x00000006 = .ok .scan ∧
  decode 0x00000007 = .ok .ingest ∧ decode 0x00000008 = .ok .embed ∧ decode 0x00000009 = .ok .xtract ∧
  decode 0x0000000A = .ok .inject ∧ decode 0x0000000B = .ok .extract

/-- R69, R70, R72: decode of encode is the operation, encode of decode is the word, bits [31:8] of an encoding are 0, and
the words that decode are exactly `0x01` to `0x0B`. -/
def Obligations.DecodeAndEncodeAgree : Prop :=
  (∀ i, decode (encode i) = .ok i ∧ (encode i).extractLsb' 8 24 = 0) ∧
  (∀ w i, decode w = .ok i → encode i = w) ∧
  (∀ w : Word, (∃ i, decode w = .ok i) ↔ 0x01 ≤ w.toNat ∧ w.toNat ≤ 0x0B)

/-- R72, R148: a reserved word written to `CMD` performs no operation: `ERR` becomes IllegalCommand (6), `OUTLEN` 0;
PIX, IN, `PIXLEN`, `INLEN`, `INGESTED` keep their values; `FPOS`, `FLEN` and the bytes of OUT become unspecified. -/
def Obligations.ReservedWordRaisesIllegalCommand : Prop :=
  ∀ (s : State) (w : Word) (rest : List HostAction),
    s.busy = false → s.pending = .writeReg 0x00 w :: rest →
    (w.extractLsb' 8 24 ≠ 0 ∨ (w.extractLsb' 0 8).toNat = 0 ∨ 0x0C ≤ (w.extractLsb' 0 8).toNat) →
    ∃ t, step s = .next t ∧ t.Raises .illegalCommand ∧ t.regValue .err = 6 ∧
      State.KeepsOperand { s with pending := rest } t ∧ s.KeepsPixels t ∧ s.ScanUnspecified t ∧
      t.regValue .fpos = Config.freeWord t.fresh 0 ∧ t.regValue .flen = Config.freeWord t.fresh 1

/-! ## The step -/

/-- R26, R27, R55: when the host's next access writes a command word to `CMD` and `BUSY = 0`, the step is `exec` of the
operation the word decodes to, on the state with the access taken off, `BUSY` set and the hidden state at its start. -/
def Obligations.StepRunsTheDecodedCommand : Prop :=
  ∀ (s : State) (w : Word) (i : Instr) (rest : List HostAction),
    s.busy = false → s.pending = .writeReg 0x00 w :: rest → decode w = .ok i →
    step s = exec i { s with pending := rest, busy := true, hidden := Hidden.start s.params.N }

/-- R160, R175: a step performs the host's next access; with none pending the block waits (log entry 3). -/
def Obligations.StepPerformsTheNextAccess : Prop :=
  (∀ s : State, s.pending = [] → step s = .next s) ∧
  (∀ (s : State) (a : HostAction) (rest : List HostAction), s.pending = a :: rest →
    step s = hostStep a { s with pending := rest })

/-- Log entry 5: the step after `withFetchWord` runs exactly the operation of the word. -/
def Obligations.FetchWordRunsNext : Prop :=
  ∀ (s : State) (w : Nat) (i : Instr), decodeTableWord 32 w = some i →
    step (s.withFetchWord 32 w) = exec i { s with busy := true, hidden := Hidden.start s.params.N }

/-! ## The pure functions -/

/-- R78: `pack(s)[q*SPB + t] = (s[q] >> (8 - B*(t+1))) & MASK`, of length `len(s) * SPB`; `pack([]) = []`. -/
def Obligations.PackFunction : Prop :=
  ∀ B ∈ [1, 2, 4, 8], pack B [] = [] ∧ ∀ s : List Byte,
    (pack B s).length = s.length * spb B ∧
    ∀ q < s.length, ∀ t < spb B,
      (pack B s).getD (q * spb B + t) 0 = (s.getD q 0 >>> (8 - B * (t + 1))) &&& mask B

/-- R81: the laws of `pack`, (a) to (e). -/
def Obligations.PackLaws : Prop :=
  ∀ B ∈ [1, 2, 4, 8], ∀ s u : List Byte,
    (pack B s).length = s.length * spb B ∧
    (∀ x ∈ pack B s, x.toNat ≤ 2 ^ B - 1) ∧
    pack B (s ++ u) = pack B s ++ pack B u ∧
    (pack B s = pack B u → s = u) ∧
    (pack B s).length % spb B = 0

/-- R82: `unpack(y)` has length `len(y) div SPB`; byte `q` is the sum of its group's symbols, each shifted to its place,
and equally the accumulator of the shift-and-OR loop; a trailing partial group contributes nothing. -/
def Obligations.UnpackFunction : Prop :=
  ∀ B ∈ [1, 2, 4, 8], unpack B [] = [] ∧ ∀ y : List Byte,
    (unpack B y).length = y.length / spb B ∧
    (∀ q < y.length / spb B,
      ((unpack B y).getD q 0).toNat =
        ((List.range (spb B)).map fun t => (y.getD (q * spb B + t) 0 &&& mask B).toNat <<< (8 - B * (t + 1))).sum ∧
      (unpack B y).getD q 0 =
        (List.range (spb B)).foldl
          (fun (acc : Byte) t => (acc <<< B) ||| (y.getD (q * spb B + t) 0 &&& mask B)) (0 : Byte)) ∧
    unpack B (y.take (y.length / spb B * spb B)) = unpack B y

/-- R85: the round-trip laws of `pack` and `unpack`, (a) to (d). -/
def Obligations.UnpackInvertsPack : Prop :=
  ∀ B ∈ [1, 2, 4, 8],
    (∀ s, unpack B (pack B s) = s) ∧
    (∀ s z : List Byte, z.length < spb B → unpack B (pack B s ++ z) = s) ∧
    (∀ y : List Byte, (∀ x ∈ y, x.toNat < 2 ^ B) → pack B (unpack B y) = y.take (y.length / spb B * spb B)) ∧
    (∀ y z : List Byte, y.length % spb B = 0 → unpack B (y ++ z) = unpack B y ++ unpack B z)

/-- R88: `penc(p) = p || par`, `par[i]` the XOR over `j` in `0 .. len(p)-1` of `rotl8(p[j], (i + j) mod 8)`. -/
def Obligations.PencFunction : Prop :=
  ∀ (N : Nat) (p : List Byte),
    (penc N p).length = p.length + N ∧ (penc N p).take p.length = p ∧
    ∀ i < N, (penc N p).getD (p.length + i) 0 =
      (List.range p.length).foldl (fun x j => x ^^^ rotl8 (p.getD j 0) ((i + j) % 8)) 0

/-- R91: the laws of the parity bytes: (a) period 8, (b) rotations of `par[0]`, (c) linearity, (d) zero on zeros, (e) not
injective. -/
def Obligations.ParityLaws : Prop :=
  (∀ p i, parityByte p (i + 8) = parityByte p i) ∧
  (∀ p i, parityByte p i = rotl8 (parityByte p 0) (i % 8)) ∧
  (∀ p p' : List Byte, p.length = p'.length → ∀ i,
    parityByte (List.zipWith (· ^^^ ·) p p') i = parityByte p i ^^^ parityByte p' i) ∧
  (∀ n i, parityByte (List.replicate n 0) i = 0) ∧
  (∀ i, parityByte [0x01, 0x00] i = parityByte [0x00, 0x80] i)

/-- R93, R95: `pdec` fails exactly when `len(d) < N`, otherwise drops the last `N` bytes whatever they hold and changes no
byte it returns. -/
def Obligations.PdecStripsWithoutVerifying : Prop :=
  ∀ N : Nat,
    (∀ d : List Byte, d.length < N → pdec N d = none) ∧
    (∀ d : List Byte, N ≤ d.length → pdec N d = some (d.take (d.length - N))) ∧
    (∀ d : List Byte, d.length = N → pdec N d = some []) ∧
    (∀ p, pdec N (penc N p) = some p) ∧
    (∀ p z : List Byte, z.length = N → pdec N (p ++ z) = some p)

/-- R99: the slots of a buffer of `n` bytes are the offsets `2 + 4k < n`; there are `(n + 1) div 4`, which is `n / 4` for
`n` a multiple of 4. -/
def Obligations.SlotsFunction : Prop :=
  (∀ n k, k < slots n ↔ 2 + 4 * k < n) ∧ (∀ n, slots n = (n + 1) / 4) ∧ (∀ n, n % 4 = 0 → slots n = n / 4) ∧
  (List.range 12).map slots = [0, 0, 0, 1, 1, 1, 1, 2, 2, 2, 2, 3]

/-- R103: `embed(X, y, c)` writes the first `c` symbols into the low `B` bits of slots `0 .. c-1` and nothing else. -/
def Obligations.EmbedFunction : Prop :=
  ∀ B ∈ [1, 2, 4, 8], ∀ (X y : List Byte) (c : Nat), c ≤ min y.length (slots X.length) →
    (embed B X (y.take c)).length = X.length ∧
    (∀ k < c, (embed B X (y.take c)).getD (2 + 4 * k) 0 =
      (X.getD (2 + 4 * k) 0 &&& (0xFF - mask B)) ||| (y.getD k 0 &&& mask B)) ∧
    (∀ i, (∀ k < c, i ≠ 2 + 4 * k) → (embed B X (y.take c)).getD i 0 = X.getD i 0)

/-- R108: `xtract(X)` has length `slots(n)` and `xtract(X)[k] = X[2 + 4k] & MASK`. -/
def Obligations.XtractFunction : Prop :=
  ∀ B ∈ [1, 2, 4, 8], ∀ X : List Byte,
    (xtract B X).length = slots X.length ∧
    ∀ k < slots X.length, (xtract B X).getD k 0 = X.getD (2 + 4 * k) 0 &&& mask B

/-- R111: the laws joining writer and reader, (a) to (d). -/
def Obligations.WriterReaderLaws : Prop :=
  ∀ B ∈ [1, 2, 4, 8], ∀ (X y : List Byte) (c : Nat), c ≤ min y.length (slots X.length) →
    (∀ k < c, (xtract B (embed B X (y.take c))).getD k 0 = y.getD k 0 &&& mask B) ∧
    (∀ k, c ≤ k → (xtract B (embed B X (y.take c))).getD k 0 = (xtract B X).getD k 0) ∧
    embed B (embed B X (y.take c)) (y.take c) = embed B X (y.take c) ∧
    embed B X (xtract B X) = X

/-- R117, R119: `frame(e) = MAGIC || be32(len(e)) || e` and the laws of `frame`, (a) to (e), for `len(e) <= 2^32 - 1`. -/
def Obligations.FrameLaws : Prop :=
  ∀ (g : Magic) (e : List Byte), e.length ≤ 2 ^ 32 - 1 →
    frame g e = [g.m0, g.m1, g.m2, g.m3] ++ be32 (BitVec.ofNat 32 e.length) ++ e ∧
    (frame g e).length = 8 + e.length ∧
    (frame g e).take 4 = [g.m0, g.m1, g.m2, g.m3] ∧
    ube32 (((frame g e).drop 4).take 4) = e.length ∧
    (frame g e).drop 8 = e ∧
    (∀ e' : List Byte, e'.length ≤ 2 ^ 32 - 1 → frame g e = frame g e' → e = e') ∧
    (e.length = 17 + 16 → ((frame g e).drop 4).take 4 = [0x00, 0x00, 0x00, 0x21] ∧ (frame g e).length = 41)

/-- R121: `scan` takes the least position of MAGIC and decides its outcome in the order of the rule's steps. -/
def Obligations.ScanFunction : Prop :=
  ∀ (g : Magic) (s : List Byte),
    ((∀ m, m + 4 ≤ s.length → (s.drop m).take 4 ≠ g.bytes) → scan g s = .noPayloadFound) ∧
    ∀ m, m + 4 ≤ s.length → (s.drop m).take 4 = g.bytes → (∀ m' < m, (s.drop m').take 4 ≠ g.bytes) →
      (s.length - m < 8 → scan g s = .truncatedHeader m) ∧
      (8 ≤ s.length - m → ∀ L,
        L = (s.getD (m + 4) 0).toNat * 2 ^ 24 + (s.getD (m + 5) 0).toNat * 2 ^ 16
          + (s.getD (m + 6) 0).toNat * 2 ^ 8 + (s.getD (m + 7) 0).toNat →
        (s.length - (m + 8) < L → scan g s = .payloadOverrun m L) ∧
        (L ≤ s.length - (m + 8) → scan g s = .found m L ((s.drop (m + 8)).take L)))

/-- R125 (a), (b), (c): a frame at the start of a stream is found there, what is found is a frame, and nothing after it
matters. -/
def Obligations.ScanFindsFrames : Prop :=
  ∀ g : Magic,
    (∀ e z : List Byte, e.length ≤ 2 ^ 32 - 1 → scan g (frame g e ++ z) = .found 0 e.length e) ∧
    (∀ s m l e, scan g s = .found m l e → (s.drop m).take (8 + l) = frame g e) ∧
    (∀ s m l e, scan g s = .found m l e → ∀ z, scan g (s.take (m + 8 + l) ++ z) = .found m l e)

/-! ## The operations: what each leaves, and what it leaves unchanged -/

/-- R79: PACK. -/
def Obligations.PackRuns : Prop :=
  encode .pack = 0x00000001 ∧ ∀ s : State, s.Inv →
    (s.inlen.toNat ≤ s.params.inmax → s.inlen.toNat * spb s.params.B ≤ s.params.outmax →
      ∃ t, exec .pack s = .next t ∧ s.Returns t (pack s.params.B s.operand) ∧
        t.outlen.toNat = s.inlen.toNat * spb s.params.B) ∧
    (s.params.inmax < s.inlen.toNat ∨ s.params.outmax < s.inlen.toNat * spb s.params.B →
      ∃ t, exec .pack s = .next t ∧ t.Raises .operandTooLong) ∧
    (∀ t, exec .pack s = .next t → s.KeepsOperand t ∧ s.KeepsPixels t ∧ s.ScanUnspecified t)

/-- R83: UNPACK. A trailing partial group is no error. -/
def Obligations.UnpackRuns : Prop :=
  encode .unpack = 0x00000002 ∧ ∀ s : State, s.Inv →
    (s.inlen.toNat ≤ s.params.inmax → s.inlen.toNat / spb s.params.B ≤ s.params.outmax →
      ∃ t, exec .unpack s = .next t ∧ s.Returns t (unpack s.params.B s.operand) ∧
        t.outlen.toNat = s.inlen.toNat / spb s.params.B) ∧
    (s.params.inmax < s.inlen.toNat ∨ s.params.outmax < s.inlen.toNat / spb s.params.B →
      ∃ t, exec .unpack s = .next t ∧ t.Raises .operandTooLong) ∧
    (∀ t, exec .unpack s = .next t → s.KeepsOperand t ∧ s.KeepsPixels t ∧ s.ScanUnspecified t)

/-- R89: PENC. -/
def Obligations.PencRuns : Prop :=
  encode .penc = 0x00000003 ∧ ∀ s : State, s.Inv →
    (s.inlen.toNat ≤ s.params.inmax → s.inlen.toNat + s.params.N ≤ s.params.outmax →
      ∃ t, exec .penc s = .next t ∧ s.Returns t (penc s.params.N s.operand) ∧
        t.outlen.toNat = s.inlen.toNat + s.params.N) ∧
    (s.params.inmax < s.inlen.toNat ∨ s.params.outmax < s.inlen.toNat + s.params.N →
      ∃ t, exec .penc s = .next t ∧ t.Raises .operandTooLong) ∧
    (∀ t, exec .penc s = .next t → s.KeepsOperand t ∧ s.KeepsPixels t ∧ s.ScanUnspecified t)

/-- R94: PDEC. TooShort exactly when `INLEN < N`, tested after the operand's length and before the result's. -/
def Obligations.PdecRuns : Prop :=
  encode .pdec = 0x00000004 ∧ ∀ s : State, s.Inv →
    (s.inlen.toNat ≤ s.params.inmax → s.params.N ≤ s.inlen.toNat → s.inlen.toNat - s.params.N ≤ s.params.outmax →
      ∃ t, exec .pdec s = .next t ∧ s.Returns t (s.operand.take (s.inlen.toNat - s.params.N)) ∧
        t.outlen.toNat = s.inlen.toNat - s.params.N) ∧
    (s.inlen.toNat ≤ s.params.inmax → s.inlen.toNat < s.params.N →
      ∃ t, exec .pdec s = .next t ∧ t.Raises .tooShort) ∧
    (s.params.inmax < s.inlen.toNat ∨ s.params.outmax < s.inlen.toNat - s.params.N →
      ∃ t, exec .pdec s = .next t ∧ t.Raises .operandTooLong) ∧
    (∀ t, exec .pdec s = .next t → s.KeepsOperand t ∧ s.KeepsPixels t ∧ s.ScanUnspecified t)

/-- R118: FRAME. It adds no parity and does not look at `N`. -/
def Obligations.FrameRuns : Prop :=
  encode .frame = 0x00000005 ∧ ∀ s : State, s.Inv →
    (s.inlen.toNat ≤ s.params.inmax → 8 + s.inlen.toNat ≤ s.params.outmax →
      ∃ t, exec .frame s = .next t ∧
        s.Returns t (s.params.magic.bytes ++ be32 (BitVec.ofNat 32 s.inlen.toNat) ++ s.operand) ∧
        t.outlen.toNat = 8 + s.inlen.toNat) ∧
    (s.params.inmax < s.inlen.toNat ∨ s.params.outmax < 8 + s.inlen.toNat →
      ∃ t, exec .frame s = .next t ∧ t.Raises .operandTooLong) ∧
    (∀ t, exec .frame s = .next t → s.KeepsOperand t ∧ s.KeepsPixels t ∧ s.ScanUnspecified t)

/-- R122: SCAN, by the outcome of `scan` on the operand; `FPOS` and `FLEN` hold the position and the length where R32
calls them valid. -/
def Obligations.ScanRuns : Prop :=
  encode .scan = 0x00000006 ∧ ∀ s : State, s.Inv →
    (s.params.inmax < s.inlen.toNat →
      ∃ t, exec .scan s = .next t ∧ t.Raises .operandTooLong ∧ s.ScanUnspecified t) ∧
    (s.inlen.toNat ≤ s.params.inmax →
      (scan s.params.magic s.operand = .noPayloadFound →
        ∃ t, exec .scan s = .next t ∧ t.Raises .noPayloadFound ∧ s.ScanUnspecified t) ∧
      (∀ m, scan s.params.magic s.operand = .truncatedHeader m →
        ∃ t, exec .scan s = .next t ∧ t.Raises .truncatedHeader ∧
          t.fposValid = true ∧ t.fpos.toNat = m ∧ t.flenValid = false) ∧
      (∀ m L, scan s.params.magic s.operand = .payloadOverrun m L →
        ∃ t, exec .scan s = .next t ∧ t.Raises .payloadOverrun ∧
          t.fposValid = true ∧ t.fpos.toNat = m ∧ t.flenValid = true ∧ t.flen.toNat = L) ∧
      (∀ m L e, scan s.params.magic s.operand = .found m L e → s.params.outmax < L →
        ∃ t, exec .scan s = .next t ∧ t.Raises .operandTooLong ∧ s.ScanUnspecified t) ∧
      (∀ m L e, scan s.params.magic s.operand = .found m L e → L ≤ s.params.outmax →
        ∃ t, exec .scan s = .next t ∧ s.Returns t e ∧ t.outlen.toNat = L ∧
          t.fposValid = true ∧ t.fpos.toNat = m ∧ t.flenValid = true ∧ t.flen.toNat = L)) ∧
    (∀ t, exec .scan s = .next t → s.KeepsOperand t ∧ s.KeepsPixels t)

/-- R101, R102: INGEST replaces the pixel buffer wholesale, of whatever length, and leaves the dimensions. -/
def Obligations.IngestRuns : Prop :=
  encode .ingest = 0x00000007 ∧ ∀ s : State, s.Inv →
    (s.inlen.toNat ≤ s.params.inmax → s.inlen.toNat ≤ s.params.pixmax →
      ∃ t, exec .ingest s = .next t ∧ s.Returns t [] ∧ t.pixlen = s.inlen ∧ t.ingested = true ∧
        (∀ i < s.inlen.toNat, t.byteAt .pix i = s.byteAt .inBuf i) ∧ t.pixels = s.operand) ∧
    (s.params.inmax < s.inlen.toNat ∨ s.params.pixmax < s.inlen.toNat →
      ∃ t, exec .ingest s = .next t ∧ t.Raises .operandTooLong ∧ s.KeepsPixels t) ∧
    (∀ t, exec .ingest s = .next t → s.KeepsOperand t ∧ s.ScanUnspecified t ∧ t.dimensions = s.dimensions)

/-- R104, R105: EMBED. The symbols written are those that have a slot; with `ATOMIC = 1` none when they do not all have
one. Every byte of PIX but the slots written is unchanged. -/
def Obligations.EmbedRuns : Prop :=
  encode .embed = 0x00000008 ∧ ∀ s : State, s.Inv →
    (s.inlen.toNat ≤ s.params.inmax → s.inlen.toNat ≤ slots s.pixlen.toNat →
      ∃ t, exec .embed s = .next t ∧ s.Returns t [] ∧
        (∀ k < s.inlen.toNat, t.byteAt .pix (slotAddr k) =
          (s.byteAt .pix (slotAddr k) &&& (0xFF - mask s.params.B)) ||| (s.byteAt .inBuf k &&& mask s.params.B)) ∧
        (∀ a, (∀ k < s.inlen.toNat, a ≠ slotAddr k) → Memory.read t.pixMem a = Memory.read s.pixMem a)) ∧
    (s.inlen.toNat ≤ s.params.inmax → slots s.pixlen.toNat < s.inlen.toNat → s.params.atomic = true →
      ∃ t, exec .embed s = .next t ∧ t.Raises .capacityExceeded ∧ s.KeepsPixels t) ∧
    (s.inlen.toNat ≤ s.params.inmax → slots s.pixlen.toNat < s.inlen.toNat → s.params.atomic = false →
      ∃ t, exec .embed s = .next t ∧ t.Raises .capacityExceeded ∧
        (∀ k < slots s.pixlen.toNat, t.byteAt .pix (slotAddr k) =
          (s.byteAt .pix (slotAddr k) &&& (0xFF - mask s.params.B)) ||| (s.byteAt .inBuf k &&& mask s.params.B)) ∧
        (∀ a, (∀ k < slots s.pixlen.toNat, a ≠ slotAddr k) → Memory.read t.pixMem a = Memory.read s.pixMem a)) ∧
    (s.params.inmax < s.inlen.toNat →
      ∃ t, exec .embed s = .next t ∧ t.Raises .operandTooLong ∧ s.KeepsPixels t) ∧
    (∀ t, exec .embed s = .next t →
      s.KeepsOperand t ∧ s.ScanUnspecified t ∧ t.pixlen = s.pixlen ∧ t.ingested = s.ingested)

/-- R109: XTRACT. IN and `INLEN` are ignored, PIX is unchanged. -/
def Obligations.XtractRuns : Prop :=
  encode .xtract = 0x00000009 ∧ ∀ s : State, s.Inv →
    (slots s.pixlen.toNat ≤ s.params.outmax →
      ∃ t, exec .xtract s = .next t ∧ s.Returns t (xtract s.params.B s.pixels) ∧
        t.outlen.toNat = slots s.pixlen.toNat ∧
        (∀ k < slots s.pixlen.toNat,
          Memory.read t.outMem k = some (s.byteAt .pix (slotAddr k) &&& mask s.params.B))) ∧
    (s.params.outmax < slots s.pixlen.toNat →
      ∃ t, exec .xtract s = .next t ∧ t.Raises .operandTooLong) ∧
    (∀ t, exec .xtract s = .next t → s.KeepsOperand t ∧ s.KeepsPixels t ∧ s.ScanUnspecified t)

/-- R129, R133: INJECT writes the symbols of the framed, parity-encoded payload, by the outcomes of R133; every byte of
PIX but the slots written is unchanged. -/
def Obligations.InjectRuns : Prop :=
  encode .inject = 0x0000000A ∧ ∀ (s : State) (y : List Byte), s.Inv →
    y = pack s.params.B (frame s.params.magic (penc s.params.N s.operand)) →
    y.length = (8 + s.inlen.toNat + s.params.N) * spb s.params.B ∧
    (s.inlen.toNat ≤ s.params.inmax → y.length ≤ slots s.pixlen.toNat →
      ∃ t, exec .inject s = .next t ∧ s.Returns t [] ∧
        (∀ k < y.length, t.byteAt .pix (slotAddr k) =
          (s.byteAt .pix (slotAddr k) &&& (0xFF - mask s.params.B)) ||| y.getD k 0) ∧
        (∀ a, (∀ k < y.length, a ≠ slotAddr k) → Memory.read t.pixMem a = Memory.read s.pixMem a)) ∧
    (s.inlen.toNat ≤ s.params.inmax → slots s.pixlen.toNat < y.length → s.params.atomic = true →
      ∃ t, exec .inject s = .next t ∧ t.Raises .capacityExceeded ∧ s.KeepsPixels t) ∧
    (s.inlen.toNat ≤ s.params.inmax → slots s.pixlen.toNat < y.length → s.params.atomic = false →
      ∃ t, exec .inject s = .next t ∧ t.Raises .capacityExceeded ∧
        (∀ k < slots s.pixlen.toNat, t.byteAt .pix (slotAddr k) =
          (s.byteAt .pix (slotAddr k) &&& (0xFF - mask s.params.B)) ||| y.getD k 0) ∧
        (∀ a, (∀ k < slots s.pixlen.toNat, a ≠ slotAddr k) → Memory.read t.pixMem a = Memory.read s.pixMem a)) ∧
    (s.params.inmax < s.inlen.toNat →
      ∃ t, exec .inject s = .next t ∧ t.Raises .operandTooLong ∧ s.KeepsPixels t) ∧
    (∀ t, exec .inject s = .next t →
      s.KeepsOperand t ∧ s.ScanUnspecified t ∧ t.pixlen = s.pixlen ∧ t.ingested = s.ingested)

/-- R134, R135: EXTRACT, by the outcome of `scan` on the stream of the whole buffer; IN and `INLEN` are ignored, PIX is
unchanged. -/
def Obligations.ExtractRuns : Prop :=
  encode .extract = 0x0000000B ∧ ∀ (s : State) (r : ScanResult), s.Inv →
    r = scan s.params.magic (unpack s.params.B (xtract s.params.B s.pixels)) →
    (r = .noPayloadFound →
      ∃ t, exec .extract s = .next t ∧ t.Raises .noPayloadFound ∧ s.ScanUnspecified t) ∧
    (∀ m, r = .truncatedHeader m →
      ∃ t, exec .extract s = .next t ∧ t.Raises .truncatedHeader ∧
        t.fposValid = true ∧ t.fpos.toNat = m ∧ t.flenValid = false) ∧
    (∀ m L, r = .payloadOverrun m L →
      ∃ t, exec .extract s = .next t ∧ t.Raises .payloadOverrun ∧
        t.fposValid = true ∧ t.fpos.toNat = m ∧ t.flenValid = true ∧ t.flen.toNat = L) ∧
    (∀ m L e, r = .found m L e → L < s.params.N →
      ∃ t, exec .extract s = .next t ∧ t.Raises .tooShort ∧
        t.fposValid = true ∧ t.fpos.toNat = m ∧ t.flenValid = true ∧ t.flen.toNat = L) ∧
    (∀ m L e, r = .found m L e → s.params.N ≤ L → s.params.outmax < L - s.params.N →
      ∃ t, exec .extract s = .next t ∧ t.Raises .operandTooLong ∧ s.ScanUnspecified t) ∧
    (∀ m L e, r = .found m L e → s.params.N ≤ L → L - s.params.N ≤ s.params.outmax →
      ∃ t, exec .extract s = .next t ∧ s.Returns t (e.take (L - s.params.N)) ∧ t.outlen.toNat = L - s.params.N ∧
        t.fposValid = true ∧ t.fpos.toNat = m ∧ t.flenValid = true ∧ t.flen.toNat = L) ∧
    (∀ t, exec .extract s = .next t → s.KeepsOperand t ∧ s.KeepsPixels t)

/-! ## Across operations -/

/-- R67: after a successful EMBED of `pack(f)`, or a successful INJECT whose frame is `f`, symbol `t` of frame byte `q` is
in the low `B` bits of slot `q*SPB + t`. -/
def Obligations.FrameBitsArePlaced : Prop :=
  ∀ (s : State) (i : Instr) (f : List Byte) (u : State), s.Inv →
    (i = .embed ∧ s.operand = pack s.params.B f ∨
      i = .inject ∧ f = frame s.params.magic (penc s.params.N s.operand)) →
    exec i s = .next u → u.err = .ok →
    ∀ q < f.length, ∀ t < spb s.params.B,
      u.byteAt .pix (2 + 4 * (q * spb s.params.B + t)) &&& mask s.params.B =
        (f.getD q 0 >>> (8 - s.params.B * (t + 1))) &&& mask s.params.B

/-- R68: INJECT of a payload that fits IN succeeds exactly when `(8 + n + N) * SPB <= slots(PIXLEN)`, that is when
`8 * (8 + n + N)` bits fit `slots(PIXLEN) * B`. -/
def Obligations.InjectSucceedsExactlyWhenItFits : Prop :=
  ∀ s : State, s.Inv → s.inlen.toNat ≤ s.params.inmax →
    ((∃ t, exec .inject s = .next t ∧ t.err = .ok) ↔
      (8 + s.inlen.toNat + s.params.N) * spb s.params.B ≤ slots s.pixlen.toNat) ∧
    ((8 + s.inlen.toNat + s.params.N) * spb s.params.B ≤ slots s.pixlen.toNat ↔
      8 * (8 + s.inlen.toNat + s.params.N) ≤ slots s.pixlen.toNat * s.params.B)

/-- R138: INJECT of a payload that fits, then EXTRACT with the same pixel buffer, gives the payload back. -/
def Obligations.InjectThenExtractGivesThePayload : Prop :=
  ∀ s : State, s.Inv →
    (8 + s.inlen.toNat + s.params.N) * spb s.params.B ≤ slots s.pixlen.toNat →
    s.inlen.toNat ≤ min s.params.inmax s.params.outmax →
    ∃ t, exec .inject s = .next t ∧ t.err = .ok ∧
      ∀ u : State, u.Inv → u.params = t.params → u.pixlen = t.pixlen →
        (∀ a, Memory.read u.pixMem a = Memory.read t.pixMem a) →
        ∃ v, exec .extract u = .next v ∧ v.err = .ok ∧ v.result = s.operand

/-- R132: where every intermediate result fits, the program PENC, MOVE, FRAME, MOVE, PACK, MOVE, EMBED leaves PIX, `ERR`
and `OUTLEN` as INJECT does; where one does not, the program, stopped at its first error, ends with OperandTooLong with
PIX unchanged, and INJECT does not end so. -/
def Obligations.InjectIsItsPrimitives : Prop :=
  ∀ s : State, s.Inv → s.busy = false →
    ((8 + s.inlen.toNat + s.params.N) * spb s.params.B ≤ min s.params.inmax s.params.outmax →
      ∃ t u, hostRun [hostCommand .penc, .move, hostCommand .frame, .move, hostCommand .pack, .move,
          hostCommand .embed] s = .next t ∧
        hostStep (hostCommand .inject) s = .next u ∧
        t.pixMem = u.pixMem ∧ t.pixlen = u.pixlen ∧ t.err = u.err ∧ t.outlen = u.outlen) ∧
    (s.inlen.toNat ≤ s.params.inmax →
      min s.params.inmax s.params.outmax < (8 + s.inlen.toNat + s.params.N) * spb s.params.B →
      ∃ t u, hostChain [.penc, .frame, .pack, .embed] s = .next t ∧
        hostStep (hostCommand .inject) s = .next u ∧
        t.err = .operandTooLong ∧ t.outlen = 0 ∧ s.KeepsPixels t ∧ u.err ≠ .operandTooLong)

/-- R137: where every intermediate result fits, the program XTRACT, MOVE, UNPACK, MOVE, SCAN, MOVE, PDEC, stopped at the
first error, leaves the result, `OUTLEN` and `ERR` as EXTRACT does, and `FPOS` and `FLEN` too when it stops at SCAN. -/
def Obligations.ExtractIsItsPrimitives : Prop :=
  ∀ s : State, s.Inv → s.busy = false →
    slots s.pixlen.toNat ≤ min s.params.inmax s.params.outmax →
    ∃ t u, hostChain [.xtract, .unpack, .scan, .pdec] s = .next t ∧
      hostStep (hostCommand .extract) s = .next u ∧
      t.err = u.err ∧ t.outlen = u.outlen ∧
      (∀ i < u.outlen.toNat, Memory.read t.outMem i = Memory.read u.outMem i) ∧
      (t.err ∈ [ErrCode.noPayloadFound, .truncatedHeader, .payloadOverrun] →
        t.fposValid = u.fposValid ∧ t.flenValid = u.flenValid ∧
        (u.fposValid = true → t.fpos = u.fpos) ∧ (u.flenValid = true → t.flen = u.flen))

/-- Every step keeps the invariant (R25, R31, R33 to R35, R30, R146). -/
def Obligations.EveryStepKeepsTheInvariant : Prop :=
  ∀ s t : State, s.Inv → step s = .next t → t.Inv

/-- The invariant holds after reset of every legal instance, and of `State.reset`. -/
def Obligations.TheInvariantHoldsAfterReset : Prop :=
  (∀ p : Params, p.legal = true → (State.resetWith p).Inv) ∧ State.reset.Inv

/-- R27, R51: the host sees the state before an operation or the state after it: from `BUSY = 0`, a step leaves
`BUSY = 0`. -/
def Obligations.BusyIsNeverSeenBetweenSteps : Prop :=
  ∀ s t : State, s.busy = false → step s = .next t → t.busy = false

/-- R49, R107: no operation but INGEST changes a red, green or alpha byte, bits [7:B] of any byte, or `PIXLEN`; none but
INGEST, EMBED and INJECT changes PIX. -/
def Obligations.OnlyBlueLowBitsChange : Prop :=
  ∀ (i : Instr) (s t : State), s.Inv → i ≠ .ingest → exec i s = .next t →
    t.pixlen = s.pixlen ∧
    (∀ a, a % 4 ≠ 2 → t.byteAt .pix a = s.byteAt .pix a) ∧
    (∀ a, t.byteAt .pix a &&& (0xFF - mask s.params.B) = s.byteAt .pix a &&& (0xFF - mask s.params.B)) ∧
    (i ≠ .embed → i ≠ .inject → ∀ a, t.byteAt .pix a = s.byteAt .pix a)

/-- R49: XTRACT and EXTRACT read only the low `B` bits of the blue bytes: two pixel buffers that agree there give the
same outcome. -/
def Obligations.ReadersSeeOnlyBlueLowBits : Prop :=
  ∀ (i : Instr) (s : State) (X : Memory), (i = .xtract ∨ i = .extract) →
    (∀ k < slots s.pixlen.toNat,
      (State.byteAt { s with pixMem := X } .pix (slotAddr k)) &&& mask s.params.B =
        s.byteAt .pix (slotAddr k) &&& mask s.params.B) →
    ∃ t, exec i s = .next t ∧ exec i { s with pixMem := X } = .next { t with pixMem := X }

/-- R33: bytes of IN at indices at or above `INLEN` have no effect on any operation. -/
def Obligations.BytesBeyondInlenHaveNoEffect : Prop :=
  ∀ (i : Instr) (s : State) (X : Memory), (∀ a < s.inlen.toNat, Memory.read X a = Memory.read s.inMem a) →
    ∃ t, exec i s = .next t ∧ exec i { s with inMem := X } = .next { t with inMem := X }

/-- R151: every operation completes, with one of the codes the rule lists for it. -/
def Obligations.OperationsEndWithTheirCodes : Prop :=
  ∀ (i : Instr) (s : State), ∃ t, exec i s = .next t ∧ t.err ∈ endCodes i ∧ t.err ≠ .illegalCommand

/-- R149: an operand longer than `INMAX` ends every operation that reads IN with OperandTooLong. Whenever an operation ends
so it has changed neither PIX nor IN nor a register but `ERR` and `OUTLEN`; the bytes of OUT are unspecified then, as after
every error (R146, log entry 12), and so are `FPOS` and `FLEN` (R32). -/
def Obligations.OperandTooLongKeepsPixelsAndOperand : Prop :=
  (∀ (i : Instr) (s : State), readsOperand i = true → s.params.inmax < s.inlen.toNat →
    ∃ t, exec i s = .next t ∧ t.Raises .operandTooLong) ∧
  (∀ (i : Instr) (s t : State), exec i s = .next t → t.err = .operandTooLong →
    t.Raises .operandTooLong ∧ s.KeepsOperand t ∧ s.KeepsPixels t ∧ s.ScanUnspecified t)

/-- R32: when `FPOS` and `FLEN` are valid, and what a read returns when they are not. -/
def Obligations.ScannerRegistersAreValidAsListed : Prop :=
  (∀ (i : Instr) (s t : State), exec i s = .next t →
    (t.fposValid = true ↔ (i = .scan ∨ i = .extract) ∧
      t.err ∈ [ErrCode.ok, .truncatedHeader, .payloadOverrun, .tooShort]) ∧
    (t.flenValid = true ↔ (i = .scan ∨ i = .extract) ∧ t.err ∈ [ErrCode.ok, .payloadOverrun, .tooShort])) ∧
  (∀ s : State, regOfNumber 0x0F = some .fpos ∧ regOfNumber 0x10 = some .flen ∧
    (s.fposValid = true → s.regValue .fpos = s.fpos) ∧
    (s.fposValid = false → s.regValue .fpos = Config.freeWord s.fresh 0) ∧
    (s.flenValid = true → s.regValue .flen = s.flen) ∧
    (s.flenValid = false → s.regValue .flen = Config.freeWord s.fresh 1))

/-- R27: `INGESTED` is set by every INGEST that completes without error, and cleared by nothing but reset. -/
def Obligations.OnlyIngestSetsIngested : Prop :=
  (∀ (i : Instr) (s t : State), exec i s = .next t →
    t.ingested = (s.ingested || (decide (i = .ingest) && decide (t.err = .ok)))) ∧
  (∀ (a : HostAction) (s t : State), hostStep a s = .next t → (∀ p, a ≠ .reset p) → s.ingested = true →
    t.ingested = true) ∧
  (∀ (p : Params) (s t : State), hostStep (.reset p) s = .next t → t.ingested = false)

/-! ## The host's accesses -/

/-- The accesses the model allows complete, and every other access is refused by name. R41 and R158 give the single reads
and writes and `BUSY`, R34 and R35 the reads above a length, R25 and R159 reset. The model's choices: `LOAD` and `MOVE` as
one access each (log entry 4), a `MOVE` completes with `OUTLEN` above `INMAX` too (log entry 27), and the list of refusals as
read from the rules, that of a `LOAD` longer than `INMAX` among them (log entry 15). -/
def Obligations.HostAccessesCompleteExactlyWhenAllowed : Prop :=
  ∀ (a : HostAction) (s : State),
    (s.allows a → ∃ t, hostStep a s = .next t) ∧
    (¬ s.allows a → ∃ r, hostStep a s = .refused r ∧ ∀ m, r ≠ .notModelled m)

/-- R41: a host write to a read-only register, to OUT or to PIX changes nothing; a write to `INLEN` stores the value, even
above `INMAX` (R29); a write to IN stores the byte and leaves every other byte. -/
def Obligations.HostWrites : Prop :=
  ∀ s : State, s.busy = false →
    (∀ n v, n ≤ 0x10 → n ≠ 0x00 → n ≠ 0x03 → hostStep (.writeReg n v) s = .next s) ∧
    (∀ i b, i < s.params.outmax → hostStep (.writeByte .outBuf i b) s = .next s) ∧
    (∀ i b, i < s.params.pixmax → hostStep (.writeByte .pix i b) s = .next s) ∧
    (∀ v, hostStep (.writeReg 0x03 v) s = .next { s with inlen := v }) ∧
    (s.inMem.wf .inBuf → ∀ i b, i < s.params.inmax →
      ∃ X, hostStep (.writeByte .inBuf i b) s = .next { s with inMem := X } ∧
        Memory.read X i = some b ∧ ∀ a, a ≠ i → Memory.read X a = Memory.read s.inMem a)

/-- R50: no read has a side effect on the block; a second read returns the same value unless the value is unspecified.
R33 to R35: what byte a read returns, the byte held below `INMAX`, `OUTLEN`, `PIXLEN` and a free value from there on; a byte
nothing has written is a free value in IN and OUT (log entry 6) and 0 in PIX (R38). R112: `pixelData()` is the bytes held. -/
def Obligations.HostReadsChangeNothing : Prop :=
  (∀ (s : State) (n : Nat) (r : Reg), regOfNumber n = some r → (s.busy = false ∨ r = .status) →
    ∃ t, hostStep (.readReg n) s = .next t ∧ t = { s with readData := .word (s.regValue r), fresh := s.fresh + 1 } ∧
      (¬ (r = .fpos ∧ s.fposValid = false) → ¬ (r = .flen ∧ s.flenValid = false) → t.regValue r = s.regValue r)) ∧
  (∀ (s : State) (sp : Space) (i : Nat), s.busy = false → i < s.capacity sp →
    ∃ t, hostStep (.readByte sp i) s = .next t ∧
      t = { s with readData := .byte (s.hostByte sp i), fresh := s.fresh + 1 } ∧
      (i < s.shown sp → (sp = .pix ∨ (Memory.read (s.mem sp) i).isSome = true) → t.hostByte sp i = s.hostByte sp i)) ∧
  (∀ (s : State) (i : Nat),
    (i < s.params.inmax → s.hostByte .inBuf i = s.byteAt .inBuf i) ∧
    (s.params.inmax ≤ i → s.hostByte .inBuf i = Config.freeByte s.fresh i) ∧
    (i < s.outlen.toNat → s.hostByte .outBuf i = s.byteAt .outBuf i) ∧
    (s.outlen.toNat ≤ i → s.hostByte .outBuf i = Config.freeByte s.fresh i) ∧
    (i < s.pixlen.toNat → s.hostByte .pix i = s.byteAt .pix i) ∧
    (s.pixlen.toNat ≤ i → s.hostByte .pix i = Config.freeByte s.fresh i)) ∧
  (∀ (s : State) (sp : Space) (i : Nat),
    (∀ b, Memory.read (s.mem sp) i = some b → s.byteAt sp i = b) ∧
    (Memory.read (s.mem sp) i = none → s.byteAt sp i = if sp = .pix then 0 else Config.freeByte s.fresh i)) ∧
  (∀ s : State, s.pixelData.length = s.pixlen.toNat ∧
    ∀ i < s.pixlen.toNat, s.pixelData.getD i 0 = s.hostByte .pix i)

/-- R75: `LOAD` makes the bytes the operand, `MOVE` makes the result the operand; neither changes anything else of the
block. A result longer than IN: `MOVE` copies what IN has room for and stores the length (R29, R132, log entry 27). -/
def Obligations.LoadAndMoveSetTheOperand : Prop :=
  ∀ s : State, s.Inv → s.busy = false →
    (∀ bs : List Byte, bs.length ≤ s.params.inmax →
      ∃ X n, hostStep (.load bs) s = .next { s with inMem := X, inlen := n } ∧ n.toNat = bs.length ∧
        State.operand { s with inMem := X, inlen := n } = bs ∧
        ∀ a, bs.length ≤ a → Memory.read X a = Memory.read s.inMem a) ∧
    (s.outlen.toNat ≤ s.params.inmax →
      ∃ X, hostStep .move s = .next { s with inMem := X, inlen := s.outlen, fresh := s.fresh + 1 } ∧
        State.operand { s with inMem := X, inlen := s.outlen, fresh := s.fresh + 1 } = s.result ∧
        ∀ a, s.outlen.toNat ≤ a → Memory.read X a = Memory.read s.inMem a) ∧
    (s.params.inmax < s.outlen.toNat →
      ∃ X, hostStep .move s = .next { s with inMem := X, inlen := s.outlen, fresh := s.fresh + 1 } ∧
        (∀ a < s.params.inmax, Memory.read X a = some (s.result.getD a 0)) ∧
        ∀ a, s.params.inmax ≤ a → Memory.read X a = Memory.read s.inMem a)

/-- R38, R160: what the host finds after reset of a legal instance, register by register and buffer by buffer. -/
def Obligations.ResetLeavesTheTable : Prop :=
  ∀ (s : State) (p : Params), s.busy = false → p.legal = true →
    ∃ t, hostStep (.reset p) s = .next t ∧ t.params = p ∧
      t.regValue .status = 0 ∧ t.busy = false ∧ t.ingested = false ∧
      t.regValue .err = 0 ∧ t.regValue .inlen = 0 ∧ t.regValue .outlen = 0 ∧
      (t.regValue .pixlen).toNat = p.width * p.height * 4 ∧
      (∀ i < t.pixlen.toNat, t.hostByte .pix i = 0) ∧
      (∀ i, p.width * p.height * 4 ≤ i → t.hostByte .pix i = Config.freeByte t.fresh i) ∧
      (∀ i, t.hostByte .inBuf i = Config.freeByte t.fresh i) ∧
      (∀ i, t.hostByte .outBuf i = Config.freeByte t.fresh i) ∧
      t.regValue .fpos = Config.freeWord t.fresh 0 ∧ t.regValue .flen = Config.freeWord t.fresh 1

/-- R25: an instance is built exactly when its parameters keep the rule's constraints; the three capacities are read in
registers `0x0C`, `0x0D`, `0x0E`, which no host write and no operation changes. -/
def Obligations.InstancesAreLegal : Prop :=
  (∀ (p : Params) (s : State), s.busy = false →
    ((p.B = 1 ∨ p.B = 2 ∨ p.B = 4 ∨ p.B = 8) ∧
      p.inmax ≤ 2 ^ 32 - 1 ∧ p.outmax ≤ 2 ^ 32 - 1 ∧ p.pixmax ≤ 2 ^ 32 - 1 ∧
      p.width ≤ 2 ^ 32 - 1 ∧ p.height ≤ 2 ^ 32 - 1 ∧ p.N ≤ 2 ^ 32 - 1 ∧
      p.inmax + p.N ≤ 2 ^ 32 - 1 ∧ p.width * p.height * 4 ≤ p.pixmax →
        ∃ t, hostStep (.reset p) s = .next t ∧ t.params = p) ∧
    (¬ ((p.B = 1 ∨ p.B = 2 ∨ p.B = 4 ∨ p.B = 8) ∧
      p.inmax ≤ 2 ^ 32 - 1 ∧ p.outmax ≤ 2 ^ 32 - 1 ∧ p.pixmax ≤ 2 ^ 32 - 1 ∧
      p.width ≤ 2 ^ 32 - 1 ∧ p.height ≤ 2 ^ 32 - 1 ∧ p.N ≤ 2 ^ 32 - 1 ∧
      p.inmax + p.N ≤ 2 ^ 32 - 1 ∧ p.width * p.height * 4 ≤ p.pixmax) →
        hostStep (.reset p) s = .refused .instanceIllegal)) ∧
  (∀ s : State, s.Inv →
    regOfNumber 0x0C = some .inmax ∧ (s.regValue .inmax).toNat = s.params.inmax ∧
    regOfNumber 0x0D = some .outmax ∧ (s.regValue .outmax).toNat = s.params.outmax ∧
    regOfNumber 0x0E = some .pixmax ∧ (s.regValue .pixmax).toNat = s.params.pixmax) ∧
  (∀ (s : State) (v : Word), s.busy = false → ∀ n ∈ [0x0C, 0x0D, 0x0E], hostStep (.writeReg n v) s = .next s) ∧
  (∀ (i : Instr) (s t : State), exec i s = .next t → t.params = s.params)

/-- R19 to R23, and the bits of R24: the parameter registers by number, what they read, at reset too, and that nothing
writes them. -/
def Obligations.ParameterRegistersRead : Prop :=
  (∀ s : State, s.Inv →
    regOfNumber 0x08 = some .cfgB ∧ (s.regValue .cfgB).toNat = s.params.B ∧
      (s.regValue .cfgB).extractLsb' 4 28 = 0 ∧
    regOfNumber 0x09 = some .cfgN ∧ (s.regValue .cfgN).toNat = s.params.N ∧
    regOfNumber 0x0A = some .cfgMagic ∧ (s.regValue .cfgMagic).extractLsb' 24 8 = s.params.magic.m0 ∧
      (s.regValue .cfgMagic).extractLsb' 16 8 = s.params.magic.m1 ∧
      (s.regValue .cfgMagic).extractLsb' 8 8 = s.params.magic.m2 ∧
      (s.regValue .cfgMagic).extractLsb' 0 8 = s.params.magic.m3 ∧
      (s.regValue .cfgMagic).toNat = ube32 s.params.magic.bytes ∧
      (s.params.magic = Config.defaultMagic → s.regValue .cfgMagic = 0x54454E54) ∧
    regOfNumber 0x06 = some .width ∧ (s.regValue .width).toNat = s.params.width ∧
    regOfNumber 0x07 = some .height ∧ (s.regValue .height).toNat = s.params.height ∧
      s.dimensions = ((s.regValue .width).toNat, (s.regValue .height).toNat) ∧
    regOfNumber 0x0B = some .cfgMode ∧ (s.regValue .cfgMode).getLsbD 0 = s.params.atomic ∧
      (s.regValue .cfgMode).extractLsb' 1 31 = 0) ∧
  (∀ p : Params, (State.resetWith p).params = p) ∧
  (∀ (s : State) (v : Word), s.busy = false → ∀ n ∈ [0x06, 0x07, 0x08, 0x09, 0x0A, 0x0B],
    hostStep (.writeReg n v) s = .next s) ∧
  (∀ (i : Instr) (s t : State), exec i s = .next t → t.params = s.params)

/-- R26 to R31, R141: the registers `0x00` to `0x05`: `CMD` reads 0, the fields of `STATUS` and `ERR`, the numbers of the
codes, and the three lengths. -/
def Obligations.StatusAndErrRead : Prop :=
  regOfNumber 0x00 = some .cmd ∧ regOfNumber 0x01 = some .status ∧ regOfNumber 0x02 = some .err ∧
  regOfNumber 0x03 = some .inlen ∧ regOfNumber 0x04 = some .outlen ∧ regOfNumber 0x05 = some .pixlen ∧
  (∀ s : State, s.regValue .cmd = 0 ∧
    (s.regValue .status).getLsbD 0 = s.busy ∧ (s.regValue .status).getLsbD 1 = s.ingested ∧
    (s.regValue .status).extractLsb' 2 30 = 0 ∧
    (s.regValue .err).extractLsb' 0 8 = s.err.code ∧ (s.regValue .err).extractLsb' 8 24 = 0 ∧
    s.regValue .inlen = s.inlen ∧ s.regValue .outlen = s.outlen ∧ s.regValue .pixlen = s.pixlen) ∧
  ErrCode.code .ok = 0 ∧ ErrCode.code .capacityExceeded = 1 ∧ ErrCode.code .noPayloadFound = 2 ∧
  ErrCode.code .truncatedHeader = 3 ∧ ErrCode.code .payloadOverrun = 4 ∧ ErrCode.code .tooShort = 5 ∧
  ErrCode.code .illegalCommand = 6 ∧ ErrCode.code .operandTooLong = 7

/-! ## The sequencers -/

/-- R80: the PACK sequencer leaves what PACK leaves, but for the hidden state, after `INLEN * SPB` steps and one
completion. -/
def Obligations.PackSequencerAgrees : Prop :=
  ∀ s : State, s.Inv →
    (∃ t h, exec .pack s.startOp = .next t ∧
      packSequencer (s.inlen.toNat * spb s.params.B + 1) s.startOp = .done { t with hidden := h }) ∧
    (s.inlen.toNat ≤ s.params.inmax → s.inlen.toNat * spb s.params.B ≤ s.params.outmax →
      ∃ u, packSequencer (s.inlen.toNat * spb s.params.B) s.startOp = .busy u)

/-- R84: the UNPACK sequencer leaves what UNPACK leaves, but for the hidden state, after `INLEN` steps and one
completion. -/
def Obligations.UnpackSequencerAgrees : Prop :=
  ∀ s : State, s.Inv →
    (∃ t h, exec .unpack s.startOp = .next t ∧
      unpackSequencer (s.inlen.toNat + 1) s.startOp = .done { t with hidden := h }) ∧
    (s.inlen.toNat ≤ s.params.inmax → s.inlen.toNat / spb s.params.B ≤ s.params.outmax →
      ∃ u, unpackSequencer s.inlen.toNat s.startOp = .busy u)

/-- R90: the PENC sequencer leaves what PENC leaves, but for the hidden state, after `INLEN + N` steps and one
completion; the PDEC sequencer what PDEC leaves, after the `INLEN - N` copies of R177 and one completion. -/
def Obligations.ParitySequencersAgree : Prop :=
  ∀ s : State, s.Inv →
    (∃ t h, exec .penc s.startOp = .next t ∧
      pencSequencer (s.inlen.toNat + s.params.N + 1) s.startOp = .done { t with hidden := h }) ∧
    (s.inlen.toNat ≤ s.params.inmax → s.inlen.toNat + s.params.N ≤ s.params.outmax →
      ∃ u, pencSequencer (s.inlen.toNat + s.params.N) s.startOp = .busy u) ∧
    (∃ t h, exec .pdec s.startOp = .next t ∧
      pdecSequencer (s.inlen.toNat - s.params.N + 1) s.startOp = .done { t with hidden := h }) ∧
    (s.inlen.toNat ≤ s.params.inmax → s.params.N ≤ s.inlen.toNat → s.inlen.toNat - s.params.N ≤ s.params.outmax →
      ∃ u, pdecSequencer (s.inlen.toNat - s.params.N) s.startOp = .busy u)

/-- R106: the EMBED sequencer leaves what EMBED leaves, but for the hidden state, after `min(INLEN, slots(PIXLEN))` writes
and one completion; R177: so does the INJECT sequencer for INJECT, after `min((8 + INLEN + N) * SPB, slots(PIXLEN))` slot
writes, and the INGEST sequencer for INGEST, after `INLEN` copies. -/
def Obligations.WriterSequencersAgree : Prop :=
  ∀ (s : State) (y : Nat), s.Inv → y = (8 + s.inlen.toNat + s.params.N) * spb s.params.B →
    (∃ t h, exec .embed s.startOp = .next t ∧
      embedSequencer (min s.inlen.toNat (slots s.pixlen.toNat) + 1) s.startOp = .done { t with hidden := h }) ∧
    (s.inlen.toNat ≤ s.params.inmax → (s.params.atomic = false ∨ s.inlen.toNat ≤ slots s.pixlen.toNat) →
      ∃ u, embedSequencer (min s.inlen.toNat (slots s.pixlen.toNat)) s.startOp = .busy u) ∧
    (∃ t h, exec .inject s.startOp = .next t ∧
      injectSequencer (min y (slots s.pixlen.toNat) + 1) s.startOp = .done { t with hidden := h }) ∧
    (s.inlen.toNat ≤ s.params.inmax → (s.params.atomic = false ∨ y ≤ slots s.pixlen.toNat) →
      ∃ u, injectSequencer (min y (slots s.pixlen.toNat)) s.startOp = .busy u) ∧
    (∃ t h, exec .ingest s.startOp = .next t ∧
      ingestSequencer (s.inlen.toNat + 1) s.startOp = .done { t with hidden := h }) ∧
    (s.inlen.toNat ≤ s.params.inmax → s.inlen.toNat ≤ s.params.pixmax →
      ∃ u, ingestSequencer s.inlen.toNat s.startOp = .busy u)

/-- R110: the XTRACT sequencer leaves what XTRACT leaves, but for the hidden state, after `slots(PIXLEN)` steps and one
completion. R177, R136: the EXTRACT sequencer converts every slot first, in `slots(PIXLEN)` slot reads, into the stream
of R134, and then leaves what EXTRACT leaves, after the scan of that stream: at most one compare for each of its bytes, one
copy for each byte of the result, and one completion. -/
def Obligations.ReaderSequencersAgree : Prop :=
  ∀ s : State, s.Inv →
    (∃ t h, exec .xtract s.startOp = .next t ∧
      xtractSequencer (slots s.pixlen.toNat + 1) s.startOp = .done { t with hidden := h }) ∧
    (slots s.pixlen.toNat ≤ s.params.outmax →
      ∃ u, xtractSequencer (slots s.pixlen.toNat) s.startOp = .busy u) ∧
    (∃ u, extractSequencer (slots s.pixlen.toNat) s.startOp = .busy u ∧
      u.hidden.stream = unpack s.params.B (xtract s.params.B s.pixels)) ∧
    (∃ t h n, exec .extract s.startOp = .next t ∧
      n ≤ slots s.pixlen.toNat + slots s.pixlen.toNat / spb s.params.B + t.outlen.toNat + 1 ∧
      extractSequencer n s.startOp = .done { t with hidden := h })

/-- R123: the SCAN sequencer leaves what SCAN leaves, but for the hidden state, after at most `INLEN` compares, one copy
for each byte of the result, and one completion; the FRAME sequencer what FRAME leaves, after the `8 + INLEN` bytes of R177
and one completion. -/
def Obligations.FrameSequencersAgree : Prop :=
  ∀ s : State, s.Inv →
    (∃ t h n, exec .scan s.startOp = .next t ∧ n ≤ s.inlen.toNat + t.outlen.toNat + 1 ∧
      scanSequencer n s.startOp = .done { t with hidden := h }) ∧
    (∃ t h, exec .frame s.startOp = .next t ∧
      frameSequencer (8 + s.inlen.toNat + 1) s.startOp = .done { t with hidden := h }) ∧
    (s.inlen.toNat ≤ s.params.inmax → 8 + s.inlen.toNat ≤ s.params.outmax →
      ∃ u, frameSequencer (8 + s.inlen.toNat) s.startOp = .busy u)
end

