-- ==== Sys2Proof/Laws/Memory.lean ====
section
/-! SUPPORT. The laws of buffer contents: what a read finds after a store, that every memory operation keeps the
canonical form, and that reading back a stored sequence gives it. -/

namespace Sys2Proof.Machine

/-- The strictly rising order of a canonical memory. -/
abbrev Memory.Rising (m : Memory) : Prop := m.Pairwise (fun c d => c.1 < d.1)

@[simp] theorem Memory.read_nil (a : Nat) : Memory.read [] a = none := rfl

theorem Memory.read_cons (c : Nat) (b : Byte) (m : Memory) (a : Nat) :
    Memory.read ((c, b) :: m) a = if a < c then none else if c = a then some b else Memory.read m a := rfl

/-- Below every listed index nothing is found. -/
theorem Memory.read_eq_none_of_lt {m : Memory} {a : Nat} (h : ∀ c ∈ m, a < c.1) : Memory.read m a = none := by
  cases m with
  | nil => rfl
  | cons c m =>
    obtain ⟨c, b⟩ := c
    have : a < c := h (c, b) (by simp)
    simp [Memory.read_cons, this]

/-- In a rising memory a read finds exactly the entries of the list. -/
theorem Memory.read_eq_some_iff {m : Memory} (hm : m.Rising) (a : Nat) (b : Byte) :
    Memory.read m a = some b ↔ (a, b) ∈ m := by
  induction m with
  | nil => simp
  | cons c m ih =>
    obtain ⟨c, x⟩ := c
    obtain ⟨hc, hm⟩ := List.pairwise_cons.mp hm
    rw [Memory.read_cons]
    split
    · rename_i hlt
      constructor
      · simp
      · intro h
        rcases List.mem_cons.mp h with h | h
        · cases h; omega
        · have := hc _ h; simp at this; omega
    · split
      · rename_i heq
        subst heq
        constructor
        · intro h; cases h; simp
        · intro h
          rcases List.mem_cons.mp h with h | h
          · cases h; rfl
          · have := hc _ h; simp at this
      · rename_i hne
        rw [ih hm]
        constructor
        · intro h; exact List.mem_cons_of_mem _ h
        · intro h
          rcases List.mem_cons.mp h with h | h
          · cases h; exact absurd rfl hne
          · exact h

/-- Two rising memories with the same reads are the same list: equal memories are equal data. -/
theorem Memory.ext_of_rising {m n : Memory} (hm : m.Rising) (hn : n.Rising)
    (h : ∀ a, Memory.read m a = Memory.read n a) : m = n := by
  have hmem : ∀ c, c ∈ m ↔ c ∈ n := by
    rintro ⟨a, b⟩
    rw [← Memory.read_eq_some_iff hm, ← Memory.read_eq_some_iff hn, h]
  have nodup : ∀ {l : Memory}, l.Rising → l.Nodup := by
    intro l hl
    exact hl.imp (fun {x y} hxy hxy' => by subst hxy'; omega)
  refine List.Perm.eq_of_pairwise ?_ hm hn ((List.perm_ext_iff_of_nodup (nodup hm) (nodup hn)).mpr hmem)
  intro x y _ _ h1 h2
  omega

/-- Every entry of `ofBytes` lies in the range written. -/
theorem Memory.mem_ofBytes {sp : Space} {base a : Nat} {bs : List Byte} {b : Byte} :
    (a, b) ∈ Memory.ofBytes sp base bs ↔
      base ≤ a ∧ bs[a - base]? = some b ∧ sp.unlisted ≠ some b := by
  induction bs generalizing base with
  | nil => simp [Memory.ofBytes]
  | cons x bs ih =>
    have step : (base + 1 ≤ a ∧ bs[a - (base + 1)]? = some b) ∨ (a = base ∧ x = b) ↔
        base ≤ a ∧ (x :: bs)[a - base]? = some b := by
      constructor
      · rintro (⟨h1, h2⟩ | ⟨rfl, rfl⟩)
        · refine ⟨by omega, ?_⟩
          rw [show a - base = (a - (base + 1)) + 1 by omega]
          simpa using h2
        · simp
      · rintro ⟨h1, h2⟩
        by_cases ha : a = base
        · subst ha; right; simpa using h2
        · left
          refine ⟨by omega, ?_⟩
          rw [show a - base = (a - (base + 1)) + 1 by omega] at h2
          simpa using h2
    rw [Memory.ofBytes]
    split
    · rename_i hx
      rw [ih]
      constructor
      · rintro ⟨h1, h2, h3⟩
        obtain ⟨h4, h5⟩ := step.mp (.inl ⟨h1, h2⟩)
        exact ⟨h4, h5, h3⟩
      · rintro ⟨h1, h2, h3⟩
        rcases step.mpr ⟨h1, h2⟩ with ⟨h4, h5⟩ | ⟨_, rfl⟩
        · exact ⟨h4, h5, h3⟩
        · exact absurd hx h3
    · rename_i hx
      rw [List.mem_cons, ih]
      constructor
      · rintro (h | ⟨h1, h2, h3⟩)
        · cases h; simp [hx]
        · obtain ⟨h4, h5⟩ := step.mp (.inl ⟨h1, h2⟩)
          exact ⟨h4, h5, h3⟩
      · rintro ⟨h1, h2, h3⟩
        rcases step.mpr ⟨h1, h2⟩ with ⟨h4, h5⟩ | ⟨rfl, rfl⟩
        · exact .inr ⟨h4, h5, h3⟩
        · exact .inl rfl

theorem Memory.mem_ofBytes_bounds {sp : Space} {base : Nat} {bs : List Byte} {c : Host.Cell}
    (h : c ∈ Memory.ofBytes sp base bs) : base ≤ c.1 ∧ c.1 < base + bs.length := by
  obtain ⟨a, b⟩ := c
  obtain ⟨h1, h2, _⟩ := Memory.mem_ofBytes.mp h
  have := (List.getElem?_eq_some_iff.mp h2).1
  exact ⟨h1, by simp only; omega⟩

theorem Memory.ofBytes_rising (sp : Space) (base : Nat) (bs : List Byte) :
    (Memory.ofBytes sp base bs).Rising := by
  induction bs generalizing base with
  | nil => exact List.Pairwise.nil
  | cons x bs ih =>
    rw [Memory.ofBytes]
    split
    · exact ih _
    · refine List.pairwise_cons.mpr ⟨fun c hc => ?_, ih _⟩
      have := (Memory.mem_ofBytes_bounds hc).1
      simp only; omega

/-- The buffer that lists nothing is in canonical form. -/
theorem Memory.nil_wf (sp : Space) : Memory.wf sp [] := ⟨List.Pairwise.nil, fun _ h => nomatch h⟩

/-- The buffers of a reset state are in canonical form. -/
theorem State.resetWith_wf (p : Params) (sp : Space) : ((State.resetWith p).mem sp).wf sp := by
  cases sp <;> exact Memory.nil_wf _

/-- A whole buffer written from a byte sequence is in canonical form. -/
theorem Memory.ofBytes_wf (sp : Space) (base : Nat) (bs : List Byte) : (Memory.ofBytes sp base bs).wf sp :=
  ⟨Memory.ofBytes_rising sp base bs, fun ⟨_, _⟩ hc => (Memory.mem_ofBytes.mp hc).2.2⟩

/-- What a store lists: the old entries outside the range, and the bytes stored that are not what an unlisted index
reads as. -/
theorem Memory.mem_store {sp : Space} {m : Memory} {base a : Nat} {bs : List Byte} {b : Byte} :
    (a, b) ∈ Memory.store sp m base bs ↔
      if base ≤ a ∧ a < base + bs.length then bs[a - base]? = some b ∧ sp.unlisted ≠ some b else (a, b) ∈ m := by
  simp only [Memory.store, List.mem_append, List.mem_filter, decide_eq_true_eq, Memory.mem_ofBytes]
  split
  · rename_i h
    constructor
    · rintro ((⟨_, h1⟩ | ⟨_, h2⟩) | ⟨_, h1⟩)
      · omega
      · exact h2
      · omega
    · intro h2
      exact .inl (.inr ⟨h.1, h2⟩)
  · rename_i h
    constructor
    · rintro ((⟨h1, _⟩ | ⟨h1, h2, _⟩) | ⟨h1, _⟩)
      · exact h1
      · have := (List.getElem?_eq_some_iff.mp h2).1
        omega
      · exact h1
    · intro hm
      by_cases hb : a < base
      · exact .inl (.inl ⟨hm, hb⟩)
      · exact .inr ⟨hm, by omega⟩

theorem Memory.store_rising {sp : Space} {m : Memory} (hm : m.Rising) (base : Nat) (bs : List Byte) :
    (Memory.store sp m base bs).Rising := by
  refine List.pairwise_append.mpr
    ⟨List.pairwise_append.mpr ⟨hm.filter _, Memory.ofBytes_rising sp base bs, ?_⟩, hm.filter _, ?_⟩
  · intro c hc d hd
    have h1 := (List.mem_filter.mp hc).2
    have h2 := (Memory.mem_ofBytes_bounds hd).1
    simp only [decide_eq_true_eq] at h1
    omega
  · intro c hc d hd
    have h2 := (List.mem_filter.mp hd).2
    simp only [decide_eq_true_eq] at h2
    rcases List.mem_append.mp hc with hc | hc
    · have h1 := (List.mem_filter.mp hc).2
      simp only [decide_eq_true_eq] at h1
      omega
    · have h1 := (Memory.mem_ofBytes_bounds hc).2
      omega

/-- A store keeps the canonical form. -/
theorem Memory.store_wf {sp : Space} {m : Memory} (hm : m.wf sp) (base : Nat) (bs : List Byte) :
    (Memory.store sp m base bs).wf sp := by
  refine ⟨Memory.store_rising hm.1 base bs, fun ⟨a, b⟩ hc => ?_⟩
  have h := Memory.mem_store.mp hc
  split at h
  · exact h.2
  · exact hm.2 _ h

/-- A store keeps every entry below a bound that the stored range keeps to. -/
theorem Memory.store_bound {sp : Space} {m : Memory} {base n : Nat} {bs : List Byte} (hm : ∀ c ∈ m, c.1 < n)
    (h : base + bs.length ≤ n) : ∀ c ∈ Memory.store sp m base bs, c.1 < n := by
  rintro ⟨a, b⟩ hc
  have h1 := Memory.mem_store.mp hc
  split at h1
  · simp only; omega
  · exact hm _ h1

/-- Reading inside a stored range: the byte stored, unlisted where it is what an unlisted index reads as. -/
theorem Memory.read_store_inside {sp : Space} {m : Memory} (hm : m.Rising) {base a : Nat} {bs : List Byte}
    (h1 : base ≤ a) (h2 : a < base + bs.length) :
    Memory.read (Memory.store sp m base bs) a =
      if sp.unlisted = some (bs.getD (a - base) 0) then none else some (bs.getD (a - base) 0) := by
  have hlt : a - base < bs.length := by omega
  have hget : bs[a - base]? = some (bs.getD (a - base) 0) := by
    simp [List.getD, List.getElem?_eq_getElem hlt]
  have hr := Memory.store_rising (sp := sp) hm base bs
  split
  · rename_i hu
    rw [Option.eq_none_iff_forall_not_mem]
    intro b hb
    have h3 := Memory.mem_store.mp ((Memory.read_eq_some_iff hr a b).mp hb)
    rw [if_pos ⟨h1, h2⟩, hget] at h3
    exact h3.2 (by rw [hu]; exact h3.1)
  · rename_i hu
    refine (Memory.read_eq_some_iff hr _ _).mpr (Memory.mem_store.mpr ?_)
    rw [if_pos ⟨h1, h2⟩]
    exact ⟨hget, hu⟩

/-- Reading outside a stored range finds what was there before. -/
theorem Memory.read_store_outside {sp : Space} {m : Memory} (hm : m.Rising) {base a : Nat} {bs : List Byte}
    (h : a < base ∨ base + bs.length ≤ a) : Memory.read (Memory.store sp m base bs) a = Memory.read m a := by
  have hr := Memory.store_rising (sp := sp) hm base bs
  apply Option.ext
  intro b
  rw [Memory.read_eq_some_iff hr, Memory.read_eq_some_iff hm, Memory.mem_store, if_neg (by omega)]

/-- IN and OUT list every byte stored in them. -/
theorem Memory.read_store_inside_listed {sp : Space} (hsp : sp.unlisted = none) {m : Memory} (hm : m.Rising)
    {base a : Nat} {bs : List Byte} (h1 : base ≤ a) (h2 : a < base + bs.length) :
    Memory.read (Memory.store sp m base bs) a = some (bs.getD (a - base) 0) := by
  rw [Memory.read_store_inside hm h1 h2, hsp, if_neg (by simp)]

/-- Storing nothing changes nothing. -/
@[simp] theorem Memory.store_nil_bytes {sp : Space} {m : Memory} : Memory.store sp m 0 [] = m := by
  simp [Memory.store, Memory.ofBytes]

/-- A whole buffer written from a byte sequence, read at one index. -/
theorem Memory.read_ofBytes (sp : Space) (bs : List Byte) (a : Nat) :
    Memory.read (Memory.ofBytes sp 0 bs) a = bs[a]?.filter (fun b => sp.unlisted ≠ some b) := by
  apply Option.ext
  intro b
  rw [Memory.read_eq_some_iff (Memory.ofBytes_rising sp 0 bs), Memory.mem_ofBytes]
  simp [Option.filter_eq_some_iff]

/-- `range` is a read at each index in turn. -/
theorem Memory.range_eq_map (dflt : Nat → Byte) (m : Memory) (a n : Nat) :
    Memory.range dflt m a n = (List.range' a n).map (fun i => (Memory.read m i).getD (dflt i)) := by
  induction n generalizing m a with
  | zero => cases m <;> rfl
  | succ n ih =>
    cases m with
    | nil =>
      rw [Memory.range, ih, List.range'_succ]
      simp
    | cons c m =>
      obtain ⟨c, b⟩ := c
      rw [Memory.range]
      split
      · rename_i hca
        subst hca
        rw [ih, List.range'_succ, List.map_cons]
        congr 1
        · simp [Memory.read_cons]
        · apply List.map_congr_left
          intro i hi
          have hi' := (List.mem_range'_1.mp hi).1
          rw [Memory.read_cons, if_neg (by omega), if_neg (by omega)]
      · rw [ih, List.range'_succ, List.map_cons]

@[simp] theorem Memory.range_length (dflt : Nat → Byte) (m : Memory) (a n : Nat) :
    (Memory.range dflt m a n).length = n := by
  simp [Memory.range_eq_map]

theorem Memory.range_getElem? (dflt : Nat → Byte) (m : Memory) (a n i : Nat) :
    (Memory.range dflt m a n)[i]? = if i < n then some ((Memory.read m (a + i)).getD (dflt (a + i))) else none := by
  rw [Memory.range_eq_map, List.getElem?_map]
  split
  · rename_i h
    rw [List.getElem?_range' h]
    simp
  · rename_i h
    rw [List.getElem?_eq_none (by simp; omega)]
    rfl

theorem Memory.range_getD (dflt : Nat → Byte) (m : Memory) (n i : Nat) (d : Byte) (h : i < n) :
    (Memory.range dflt m 0 n).getD i d = (Memory.read m i).getD (dflt i) := by
  rw [List.getD, Memory.range_getElem?, if_pos h]
  simp

/-- Reading back a whole buffer gives the byte sequence written to it, where an unlisted index reads as it should. -/
theorem Memory.range_ofBytes (sp : Space) (dflt : Nat → Byte) (hd : ∀ i b, sp.unlisted = some b → dflt i = b)
    (bs : List Byte) : Memory.range dflt (Memory.ofBytes sp 0 bs) 0 bs.length = bs := by
  apply List.ext_getElem?
  intro i
  rw [Memory.range_getElem?]
  split
  · rename_i h
    rw [Nat.zero_add, Memory.read_ofBytes, List.getElem?_eq_getElem h]
    by_cases hu : sp.unlisted = some bs[i]
    · simp [Option.filter, hu, hd i _ hu]
    · simp [Option.filter, hu]
  · rename_i h
    rw [List.getElem?_eq_none (by omega)]

/-- Reading back a stored prefix gives the bytes stored. -/
theorem Memory.range_store (sp : Space) (dflt : Nat → Byte) (hd : ∀ i b, sp.unlisted = some b → dflt i = b)
    {m : Memory} (hm : m.Rising) (bs : List Byte) :
    Memory.range dflt (Memory.store sp m 0 bs) 0 bs.length = bs := by
  apply List.ext_getElem?
  intro i
  rw [Memory.range_getElem?]
  split
  · rename_i h
    rw [Nat.zero_add, Memory.read_store_inside hm (Nat.zero_le _) (by omega), Nat.sub_zero]
    have hg : bs.getD i 0 = bs[i] := by simp [List.getD, List.getElem?_eq_getElem h]
    rw [hg, List.getElem?_eq_getElem h]
    by_cases hu : sp.unlisted = some bs[i]
    · simp [hu, hd i _ hu]
    · simp [hu]
  · rename_i h
    rw [List.getElem?_eq_none (by omega)]

@[simp] theorem unlistedByte_pix (n i : Nat) : unlistedByte .pix n i = 0 := rfl

@[simp] theorem Space.unlisted_inBuf : Space.unlisted .inBuf = none := rfl
@[simp] theorem Space.unlisted_outBuf : Space.unlisted .outBuf = none := rfl
@[simp] theorem Space.unlisted_pix : Space.unlisted .pix = some 0 := rfl

end Sys2Proof.Machine
end

