-- ==== Sys2Proof/Laws/State.lean ====
section
/-! SUPPORT. One lemma per field per update of `State`, so that no later proof unfolds a record update; and the spec
lemmas of the shared ends of an operation. -/

namespace Sys2Proof.Machine

/-! ### `startOp` -/

@[simp] theorem State.startOp_params (s : State) : (s.startOp).params = s.params := rfl
@[simp] theorem State.startOp_busy (s : State) : (s.startOp).busy = true := rfl
@[simp] theorem State.startOp_ingested (s : State) : (s.startOp).ingested = s.ingested := rfl
@[simp] theorem State.startOp_err (s : State) : (s.startOp).err = s.err := rfl
@[simp] theorem State.startOp_inlen (s : State) : (s.startOp).inlen = s.inlen := rfl
@[simp] theorem State.startOp_outlen (s : State) : (s.startOp).outlen = s.outlen := rfl
@[simp] theorem State.startOp_pixlen (s : State) : (s.startOp).pixlen = s.pixlen := rfl
@[simp] theorem State.startOp_fpos (s : State) : (s.startOp).fpos = s.fpos := rfl
@[simp] theorem State.startOp_flen (s : State) : (s.startOp).flen = s.flen := rfl
@[simp] theorem State.startOp_fposValid (s : State) : (s.startOp).fposValid = s.fposValid := rfl
@[simp] theorem State.startOp_flenValid (s : State) : (s.startOp).flenValid = s.flenValid := rfl
@[simp] theorem State.startOp_inMem (s : State) : (s.startOp).inMem = s.inMem := rfl
@[simp] theorem State.startOp_outMem (s : State) : (s.startOp).outMem = s.outMem := rfl
@[simp] theorem State.startOp_pixMem (s : State) : (s.startOp).pixMem = s.pixMem := rfl
@[simp] theorem State.startOp_hidden (s : State) : (s.startOp).hidden = Hidden.start s.params.N := rfl
@[simp] theorem State.startOp_pending (s : State) : (s.startOp).pending = s.pending := rfl
@[simp] theorem State.startOp_readData (s : State) : (s.startOp).readData = s.readData := rfl
@[simp] theorem State.startOp_fresh (s : State) : (s.startOp).fresh = s.fresh := rfl

/-! ### `endOp` -/

@[simp] theorem State.endOp_params (s : State) (e : ErrCode) (n : Nat) : (s.endOp e n).params = s.params := rfl
@[simp] theorem State.endOp_busy (s : State) (e : ErrCode) (n : Nat) : (s.endOp e n).busy = false := rfl
@[simp] theorem State.endOp_ingested (s : State) (e : ErrCode) (n : Nat) : (s.endOp e n).ingested = s.ingested := rfl
@[simp] theorem State.endOp_err (s : State) (e : ErrCode) (n : Nat) : (s.endOp e n).err = e := rfl
@[simp] theorem State.endOp_inlen (s : State) (e : ErrCode) (n : Nat) : (s.endOp e n).inlen = s.inlen := rfl
@[simp] theorem State.endOp_outlen (s : State) (e : ErrCode) (n : Nat) : (s.endOp e n).outlen = BitVec.ofNat 32 n := rfl
@[simp] theorem State.endOp_pixlen (s : State) (e : ErrCode) (n : Nat) : (s.endOp e n).pixlen = s.pixlen := rfl
@[simp] theorem State.endOp_fpos (s : State) (e : ErrCode) (n : Nat) : (s.endOp e n).fpos = s.fpos := rfl
@[simp] theorem State.endOp_flen (s : State) (e : ErrCode) (n : Nat) : (s.endOp e n).flen = s.flen := rfl
@[simp] theorem State.endOp_fposValid (s : State) (e : ErrCode) (n : Nat) : (s.endOp e n).fposValid = false := rfl
@[simp] theorem State.endOp_flenValid (s : State) (e : ErrCode) (n : Nat) : (s.endOp e n).flenValid = false := rfl
@[simp] theorem State.endOp_inMem (s : State) (e : ErrCode) (n : Nat) : (s.endOp e n).inMem = s.inMem := rfl
@[simp] theorem State.endOp_outMem (s : State) (e : ErrCode) (n : Nat) : (s.endOp e n).outMem = s.outMem := rfl
@[simp] theorem State.endOp_pixMem (s : State) (e : ErrCode) (n : Nat) : (s.endOp e n).pixMem = s.pixMem := rfl
@[simp] theorem State.endOp_hidden (s : State) (e : ErrCode) (n : Nat) : (s.endOp e n).hidden = s.hidden := rfl
@[simp] theorem State.endOp_pending (s : State) (e : ErrCode) (n : Nat) : (s.endOp e n).pending = s.pending := rfl
@[simp] theorem State.endOp_readData (s : State) (e : ErrCode) (n : Nat) : (s.endOp e n).readData = s.readData := rfl
@[simp] theorem State.endOp_fresh (s : State) (e : ErrCode) (n : Nat) : (s.endOp e n).fresh = s.fresh + 1 := rfl

/-! ### `complete` (R145) -/

@[simp] theorem State.complete_params (s : State) (res : List Byte) : (s.complete res).params = s.params := rfl
@[simp] theorem State.complete_busy (s : State) (res : List Byte) : (s.complete res).busy = false := rfl
@[simp] theorem State.complete_ingested (s : State) (res : List Byte) : (s.complete res).ingested = s.ingested := rfl
@[simp] theorem State.complete_err (s : State) (res : List Byte) : (s.complete res).err = .ok := rfl
@[simp] theorem State.complete_inlen (s : State) (res : List Byte) : (s.complete res).inlen = s.inlen := rfl
@[simp] theorem State.complete_outlen (s : State) (res : List Byte) : (s.complete res).outlen = BitVec.ofNat 32 res.length := rfl
@[simp] theorem State.complete_pixlen (s : State) (res : List Byte) : (s.complete res).pixlen = s.pixlen := rfl
@[simp] theorem State.complete_fpos (s : State) (res : List Byte) : (s.complete res).fpos = s.fpos := rfl
@[simp] theorem State.complete_flen (s : State) (res : List Byte) : (s.complete res).flen = s.flen := rfl
@[simp] theorem State.complete_fposValid (s : State) (res : List Byte) : (s.complete res).fposValid = false := rfl
@[simp] theorem State.complete_flenValid (s : State) (res : List Byte) : (s.complete res).flenValid = false := rfl
@[simp] theorem State.complete_inMem (s : State) (res : List Byte) : (s.complete res).inMem = s.inMem := rfl
@[simp] theorem State.complete_outMem (s : State) (res : List Byte) : (s.complete res).outMem = Memory.store .outBuf s.outMem 0 res := rfl
@[simp] theorem State.complete_pixMem (s : State) (res : List Byte) : (s.complete res).pixMem = s.pixMem := rfl
@[simp] theorem State.complete_hidden (s : State) (res : List Byte) : (s.complete res).hidden = s.hidden := rfl
@[simp] theorem State.complete_pending (s : State) (res : List Byte) : (s.complete res).pending = s.pending := rfl
@[simp] theorem State.complete_readData (s : State) (res : List Byte) : (s.complete res).readData = s.readData := rfl
@[simp] theorem State.complete_fresh (s : State) (res : List Byte) : (s.complete res).fresh = s.fresh + 1 := rfl

/-! ### `raise` (R146) -/

@[simp] theorem State.raise_params (s : State) (e : ErrCode) : (s.raise e).params = s.params := rfl
@[simp] theorem State.raise_busy (s : State) (e : ErrCode) : (s.raise e).busy = false := rfl
@[simp] theorem State.raise_ingested (s : State) (e : ErrCode) : (s.raise e).ingested = s.ingested := rfl
@[simp] theorem State.raise_err (s : State) (e : ErrCode) : (s.raise e).err = e := rfl
@[simp] theorem State.raise_inlen (s : State) (e : ErrCode) : (s.raise e).inlen = s.inlen := rfl
@[simp] theorem State.raise_outlen (s : State) (e : ErrCode) : (s.raise e).outlen = 0 := rfl
@[simp] theorem State.raise_pixlen (s : State) (e : ErrCode) : (s.raise e).pixlen = s.pixlen := rfl
@[simp] theorem State.raise_fpos (s : State) (e : ErrCode) : (s.raise e).fpos = s.fpos := rfl
@[simp] theorem State.raise_flen (s : State) (e : ErrCode) : (s.raise e).flen = s.flen := rfl
@[simp] theorem State.raise_fposValid (s : State) (e : ErrCode) : (s.raise e).fposValid = false := rfl
@[simp] theorem State.raise_flenValid (s : State) (e : ErrCode) : (s.raise e).flenValid = false := rfl
@[simp] theorem State.raise_inMem (s : State) (e : ErrCode) : (s.raise e).inMem = s.inMem := rfl
@[simp] theorem State.raise_outMem (s : State) (e : ErrCode) : (s.raise e).outMem = [] := rfl
@[simp] theorem State.raise_pixMem (s : State) (e : ErrCode) : (s.raise e).pixMem = s.pixMem := rfl
@[simp] theorem State.raise_hidden (s : State) (e : ErrCode) : (s.raise e).hidden = s.hidden := rfl
@[simp] theorem State.raise_pending (s : State) (e : ErrCode) : (s.raise e).pending = s.pending := rfl
@[simp] theorem State.raise_readData (s : State) (e : ErrCode) : (s.raise e).readData = s.readData := rfl
@[simp] theorem State.raise_fresh (s : State) (e : ErrCode) : (s.raise e).fresh = s.fresh + 1 := rfl

/-! ### `withPixels` -/

@[simp] theorem State.withPixels_params (s : State) (X : List Byte) : (s.withPixels X).params = s.params := rfl
@[simp] theorem State.withPixels_busy (s : State) (X : List Byte) : (s.withPixels X).busy = s.busy := rfl
@[simp] theorem State.withPixels_ingested (s : State) (X : List Byte) : (s.withPixels X).ingested = s.ingested := rfl
@[simp] theorem State.withPixels_err (s : State) (X : List Byte) : (s.withPixels X).err = s.err := rfl
@[simp] theorem State.withPixels_inlen (s : State) (X : List Byte) : (s.withPixels X).inlen = s.inlen := rfl
@[simp] theorem State.withPixels_outlen (s : State) (X : List Byte) : (s.withPixels X).outlen = s.outlen := rfl
@[simp] theorem State.withPixels_pixlen (s : State) (X : List Byte) : (s.withPixels X).pixlen = s.pixlen := rfl
@[simp] theorem State.withPixels_fpos (s : State) (X : List Byte) : (s.withPixels X).fpos = s.fpos := rfl
@[simp] theorem State.withPixels_flen (s : State) (X : List Byte) : (s.withPixels X).flen = s.flen := rfl
@[simp] theorem State.withPixels_fposValid (s : State) (X : List Byte) : (s.withPixels X).fposValid = s.fposValid := rfl
@[simp] theorem State.withPixels_flenValid (s : State) (X : List Byte) : (s.withPixels X).flenValid = s.flenValid := rfl
@[simp] theorem State.withPixels_inMem (s : State) (X : List Byte) : (s.withPixels X).inMem = s.inMem := rfl
@[simp] theorem State.withPixels_outMem (s : State) (X : List Byte) : (s.withPixels X).outMem = s.outMem := rfl
@[simp] theorem State.withPixels_pixMem (s : State) (X : List Byte) : (s.withPixels X).pixMem = Memory.ofBytes .pix 0 X := rfl
@[simp] theorem State.withPixels_hidden (s : State) (X : List Byte) : (s.withPixels X).hidden = s.hidden := rfl
@[simp] theorem State.withPixels_pending (s : State) (X : List Byte) : (s.withPixels X).pending = s.pending := rfl
@[simp] theorem State.withPixels_readData (s : State) (X : List Byte) : (s.withPixels X).readData = s.readData := rfl
@[simp] theorem State.withPixels_fresh (s : State) (X : List Byte) : (s.withPixels X).fresh = s.fresh := rfl

/-! ### `putOut` -/

@[simp] theorem State.putOut_params (s : State) (i : Nat) (b : Byte) : (s.putOut i b).params = s.params := rfl
@[simp] theorem State.putOut_busy (s : State) (i : Nat) (b : Byte) : (s.putOut i b).busy = s.busy := rfl
@[simp] theorem State.putOut_ingested (s : State) (i : Nat) (b : Byte) : (s.putOut i b).ingested = s.ingested := rfl
@[simp] theorem State.putOut_err (s : State) (i : Nat) (b : Byte) : (s.putOut i b).err = s.err := rfl
@[simp] theorem State.putOut_inlen (s : State) (i : Nat) (b : Byte) : (s.putOut i b).inlen = s.inlen := rfl
@[simp] theorem State.putOut_outlen (s : State) (i : Nat) (b : Byte) : (s.putOut i b).outlen = s.outlen := rfl
@[simp] theorem State.putOut_pixlen (s : State) (i : Nat) (b : Byte) : (s.putOut i b).pixlen = s.pixlen := rfl
@[simp] theorem State.putOut_fpos (s : State) (i : Nat) (b : Byte) : (s.putOut i b).fpos = s.fpos := rfl
@[simp] theorem State.putOut_flen (s : State) (i : Nat) (b : Byte) : (s.putOut i b).flen = s.flen := rfl
@[simp] theorem State.putOut_fposValid (s : State) (i : Nat) (b : Byte) : (s.putOut i b).fposValid = s.fposValid := rfl
@[simp] theorem State.putOut_flenValid (s : State) (i : Nat) (b : Byte) : (s.putOut i b).flenValid = s.flenValid := rfl
@[simp] theorem State.putOut_inMem (s : State) (i : Nat) (b : Byte) : (s.putOut i b).inMem = s.inMem := rfl
@[simp] theorem State.putOut_outMem (s : State) (i : Nat) (b : Byte) : (s.putOut i b).outMem = Memory.store .outBuf s.outMem i [b] := rfl
@[simp] theorem State.putOut_pixMem (s : State) (i : Nat) (b : Byte) : (s.putOut i b).pixMem = s.pixMem := rfl
@[simp] theorem State.putOut_hidden (s : State) (i : Nat) (b : Byte) : (s.putOut i b).hidden = s.hidden := rfl
@[simp] theorem State.putOut_pending (s : State) (i : Nat) (b : Byte) : (s.putOut i b).pending = s.pending := rfl
@[simp] theorem State.putOut_readData (s : State) (i : Nat) (b : Byte) : (s.putOut i b).readData = s.readData := rfl
@[simp] theorem State.putOut_fresh (s : State) (i : Nat) (b : Byte) : (s.putOut i b).fresh = s.fresh := rfl

/-! ### `putPix` -/

@[simp] theorem State.putPix_params (s : State) (i : Nat) (b : Byte) : (s.putPix i b).params = s.params := rfl
@[simp] theorem State.putPix_busy (s : State) (i : Nat) (b : Byte) : (s.putPix i b).busy = s.busy := rfl
@[simp] theorem State.putPix_ingested (s : State) (i : Nat) (b : Byte) : (s.putPix i b).ingested = s.ingested := rfl
@[simp] theorem State.putPix_err (s : State) (i : Nat) (b : Byte) : (s.putPix i b).err = s.err := rfl
@[simp] theorem State.putPix_inlen (s : State) (i : Nat) (b : Byte) : (s.putPix i b).inlen = s.inlen := rfl
@[simp] theorem State.putPix_outlen (s : State) (i : Nat) (b : Byte) : (s.putPix i b).outlen = s.outlen := rfl
@[simp] theorem State.putPix_pixlen (s : State) (i : Nat) (b : Byte) : (s.putPix i b).pixlen = s.pixlen := rfl
@[simp] theorem State.putPix_fpos (s : State) (i : Nat) (b : Byte) : (s.putPix i b).fpos = s.fpos := rfl
@[simp] theorem State.putPix_flen (s : State) (i : Nat) (b : Byte) : (s.putPix i b).flen = s.flen := rfl
@[simp] theorem State.putPix_fposValid (s : State) (i : Nat) (b : Byte) : (s.putPix i b).fposValid = s.fposValid := rfl
@[simp] theorem State.putPix_flenValid (s : State) (i : Nat) (b : Byte) : (s.putPix i b).flenValid = s.flenValid := rfl
@[simp] theorem State.putPix_inMem (s : State) (i : Nat) (b : Byte) : (s.putPix i b).inMem = s.inMem := rfl
@[simp] theorem State.putPix_outMem (s : State) (i : Nat) (b : Byte) : (s.putPix i b).outMem = s.outMem := rfl
@[simp] theorem State.putPix_pixMem (s : State) (i : Nat) (b : Byte) : (s.putPix i b).pixMem = Memory.store .pix s.pixMem i [b] := rfl
@[simp] theorem State.putPix_hidden (s : State) (i : Nat) (b : Byte) : (s.putPix i b).hidden = s.hidden := rfl
@[simp] theorem State.putPix_pending (s : State) (i : Nat) (b : Byte) : (s.putPix i b).pending = s.pending := rfl
@[simp] theorem State.putPix_readData (s : State) (i : Nat) (b : Byte) : (s.putPix i b).readData = s.readData := rfl
@[simp] theorem State.putPix_fresh (s : State) (i : Nat) (b : Byte) : (s.putPix i b).fresh = s.fresh := rfl

/-! ### `detected` (R32) -/

@[simp] theorem State.detected_params (s : State) (m : Nat) (l : Option Nat) : (s.detected m l).params = s.params := by
  cases l <;> rfl
@[simp] theorem State.detected_busy (s : State) (m : Nat) (l : Option Nat) : (s.detected m l).busy = s.busy := by
  cases l <;> rfl
@[simp] theorem State.detected_ingested (s : State) (m : Nat) (l : Option Nat) : (s.detected m l).ingested = s.ingested := by
  cases l <;> rfl
@[simp] theorem State.detected_err (s : State) (m : Nat) (l : Option Nat) : (s.detected m l).err = s.err := by
  cases l <;> rfl
@[simp] theorem State.detected_inlen (s : State) (m : Nat) (l : Option Nat) : (s.detected m l).inlen = s.inlen := by
  cases l <;> rfl
@[simp] theorem State.detected_outlen (s : State) (m : Nat) (l : Option Nat) : (s.detected m l).outlen = s.outlen := by
  cases l <;> rfl
@[simp] theorem State.detected_pixlen (s : State) (m : Nat) (l : Option Nat) : (s.detected m l).pixlen = s.pixlen := by
  cases l <;> rfl
@[simp] theorem State.detected_fpos (s : State) (m : Nat) (l : Option Nat) : (s.detected m l).fpos = BitVec.ofNat 32 m := by
  cases l <;> rfl
@[simp] theorem State.detected_flen (s : State) (m : Nat) (l : Option Nat) : (s.detected m l).flen = (l.map (BitVec.ofNat 32)).getD s.flen := by
  cases l <;> rfl
@[simp] theorem State.detected_fposValid (s : State) (m : Nat) (l : Option Nat) : (s.detected m l).fposValid = true := by
  cases l <;> rfl
@[simp] theorem State.detected_flenValid (s : State) (m : Nat) (l : Option Nat) : (s.detected m l).flenValid = (l.isSome || s.flenValid) := by
  cases l <;> rfl
@[simp] theorem State.detected_inMem (s : State) (m : Nat) (l : Option Nat) : (s.detected m l).inMem = s.inMem := by
  cases l <;> rfl
@[simp] theorem State.detected_outMem (s : State) (m : Nat) (l : Option Nat) : (s.detected m l).outMem = s.outMem := by
  cases l <;> rfl
@[simp] theorem State.detected_pixMem (s : State) (m : Nat) (l : Option Nat) : (s.detected m l).pixMem = s.pixMem := by
  cases l <;> rfl
@[simp] theorem State.detected_hidden (s : State) (m : Nat) (l : Option Nat) : (s.detected m l).hidden = s.hidden := by
  cases l <;> rfl
@[simp] theorem State.detected_pending (s : State) (m : Nat) (l : Option Nat) : (s.detected m l).pending = s.pending := by
  cases l <;> rfl
@[simp] theorem State.detected_readData (s : State) (m : Nat) (l : Option Nat) : (s.detected m l).readData = s.readData := by
  cases l <;> rfl
@[simp] theorem State.detected_fresh (s : State) (m : Nat) (l : Option Nat) : (s.detected m l).fresh = s.fresh := by
  cases l <;> rfl

/-! ### What reads depend on -/

@[simp] theorem State.startOp_operand (s : State) : s.startOp.operand = s.operand := rfl
@[simp] theorem State.startOp_pixels (s : State) : s.startOp.pixels = s.pixels := rfl

@[simp] theorem State.operand_length (s : State) : s.operand.length = s.inlen.toNat := Memory.range_length ..
@[simp] theorem State.pixels_length (s : State) : s.pixels.length = s.pixlen.toNat := Memory.range_length ..
@[simp] theorem State.result_length (s : State) : s.result.length = s.outlen.toNat := Memory.range_length ..

/-- Byte `i` of the operand is `MemRead(IN, i, 1)`. -/
theorem State.operand_getD (s : State) {i : Nat} (d : Byte) (h : i < s.inlen.toNat) :
    s.operand.getD i d = s.byteAt .inBuf i := Memory.range_getD _ _ _ _ _ h

/-- Byte `i` of the buffer held is `MemRead(PIX, i, 1)`. -/
theorem State.pixels_getD (s : State) {i : Nat} (d : Byte) (h : i < s.pixlen.toNat) :
    s.pixels.getD i d = s.byteAt .pix i := Memory.range_getD _ _ _ _ _ h

/-- Byte `i` of the result is `MemRead(OUT, i, 1)`. -/
theorem State.result_getD (s : State) {i : Nat} (d : Byte) (h : i < s.outlen.toNat) :
    s.result.getD i d = s.byteAt .outBuf i := Memory.range_getD _ _ _ _ _ h

/-- The buffer held after `PIX[0..len X) <- X` is `X`, where its length is `PIXLEN`. -/
theorem State.withPixels_pixels (s : State) (X : List Byte) (h : X.length = s.pixlen.toNat) :
    (s.withPixels X).pixels = X := by
  simp only [State.pixels, State.withPixels, ← h]
  exact Memory.range_ofBytes .pix _ (by simp [unlistedByte]) X

/-- The result after `return res` is `res`. -/
theorem State.complete_result (s : State) (res : List Byte) (hm : s.outMem.Rising) (h : res.length < 2 ^ 32) :
    (s.complete res).result = res := by
  have hlen : (BitVec.ofNat 32 res.length).toNat = res.length := by
    simpa using Nat.mod_eq_of_lt h
  simp only [State.result, State.complete_outMem, State.complete_outlen, hlen]
  exact Memory.range_store .outBuf _ (by simp) hm res

/-- `return res` leaves byte `i` of `res` listed at `OUT[i]`. -/
theorem State.complete_read_inside (s : State) (res : List Byte) (hm : s.outMem.Rising) {i : Nat}
    (h : i < res.length) : Memory.read (s.complete res).outMem i = some (res.getD i 0) := by
  rw [State.complete_outMem, Memory.read_store_inside_listed rfl hm (Nat.zero_le i) (by omega), Nat.sub_zero]

/-- `return res` leaves OUT from index `len(res)` on as it was. -/
theorem State.complete_read_outside (s : State) (res : List Byte) (hm : s.outMem.Rising) {i : Nat}
    (h : res.length ≤ i) : Memory.read (s.complete res).outMem i = Memory.read s.outMem i := by
  rw [State.complete_outMem, Memory.read_store_outside hm (by omega)]

/-- `return []` writes nothing to OUT. -/
theorem State.complete_nil_outMem (s : State) : (s.complete []).outMem = s.outMem := by simp

end Sys2Proof.Machine
end

