-- ==== Sys2Proof/Laws/Units.lean ====
section
/-! SUPPORT. The small lemmas of the pure functions of the units: what each does on an empty and on an extended
sequence, how long its result is, and the inductions that follow their recursion. -/

namespace Sys2Proof.Machine

/-! ### The bit-packer -/

theorem spb_pos {B : Nat} (hB : B ∈ [1, 2, 4, 8]) : 0 < spb B := by
  simp at hB
  rcases hB with rfl | rfl | rfl | rfl <;> decide

theorem spb_mul {B : Nat} (hB : B ∈ [1, 2, 4, 8]) : spb B * B = 8 := by
  simp at hB
  rcases hB with rfl | rfl | rfl | rfl <;> rfl

theorem pack_nil (B : Nat) : pack B [] = [] := rfl

theorem pack_cons (B : Nat) (b : Byte) (s : List Byte) :
    pack B (b :: s) = (List.range (spb B)).map (packSymbol B b) ++ pack B s := by
  simp [pack]

theorem pack_length (B : Nat) (s : List Byte) : (pack B s).length = s.length * spb B := by
  induction s with
  | nil => simp [pack]
  | cons b s ih => rw [pack_cons, List.length_append, ih, List.length_cons, Nat.succ_mul]; simp [Nat.add_comm]

theorem unpack_short {B : Nat} {y : List Byte} (h : y.length < spb B) : unpack B y = [] := by
  simp [unpack, Nat.div_eq_of_lt h, unpackGroups]

/-- A whole group of symbol units in front gives one byte in front. -/
theorem unpack_group {B : Nat} (hB : B ∈ [1, 2, 4, 8]) {g : List Byte} (hg : g.length = spb B) (y : List Byte) :
    unpack B (g ++ y) = joinByte B g :: unpack B y := by
  have h : (g ++ y).length / spb B = y.length / spb B + 1 := by
    rw [List.length_append, hg, Nat.add_comm, Nat.add_div_right _ (spb_pos hB)]
  unfold unpack
  rw [h, unpackGroups]
  simp [← hg]

theorem unpackGroups_length (B n : Nat) (y : List Byte) : (unpackGroups B n y).length = n := by
  induction n generalizing y with
  | zero => rfl
  | succ n ih => simp [unpackGroups, ih]

theorem unpack_length (B : Nat) (y : List Byte) : (unpack B y).length = y.length / spb B :=
  unpackGroups_length ..

theorem joinByte_snoc (B : Nat) (g : List Byte) (u : Byte) : joinByte B (g ++ [u]) = joinStep B (joinByte B g) u := by
  simp [joinByte]

/-- Induction over a sequence by whole groups of `n`, from the front. -/
theorem groups_induction {n : Nat} (hn : 0 < n) {P : List Byte → Prop} (short : ∀ y, y.length < n → P y)
    (group : ∀ g y, g.length = n → P y → P (g ++ y)) (y : List Byte) : P y := by
  induction hk : y.length using Nat.strong_induction_on generalizing y with
  | _ k ih =>
    by_cases h : y.length < n
    · exact short y h
    · have := group (y.take n) (y.drop n) (by simp; omega) (ih (y.drop n).length (by simp; omega) _ rfl)
      simpa using this

/-! ### The parity codec -/

theorem parityFrom_snoc (r : Nat) (p : List Byte) (b : Byte) :
    parityFrom r (p ++ [b]) = parityFrom r p ^^^ rotl8 b ((r + p.length) % 8) := by
  induction p generalizing r with
  | nil => simp [parityFrom]
  | cons x p ih =>
    simp only [List.cons_append, parityFrom, ih, List.length_cons]
    rw [BitVec.xor_assoc, show r + 1 + p.length = r + (p.length + 1) by omega]

theorem parity_length (N : Nat) (p : List Byte) : (parity N p).length = N := by simp [parity]

theorem penc_length (N : Nat) (p : List Byte) : (penc N p).length = p.length + N := by simp [penc, parity]

/-! ### The pixel buffer -/

/-- Induction over a buffer by pixel quads, with the three shapes the last piece can have. -/
theorem quad_induction {P : List Byte → Prop} (short : ∀ X, X.length < 3 → P X) (three : ∀ r g b, P [r, g, b])
    (quad : ∀ r g b a X, P X → P (r :: g :: b :: a :: X)) (X : List Byte) : P X := by
  induction hk : X.length using Nat.strong_induction_on generalizing X with
  | _ k ih =>
    match X, hk with
    | [], _ => exact short _ (by simp)
    | [_], _ => exact short _ (by simp)
    | [_, _], _ => exact short _ (by simp)
    | [r, g, b], _ => exact three r g b
    | r :: g :: b :: a :: X, hk => exact quad r g b a X (ih X.length (by simp at hk; omega) X rfl)

theorem slots_add_four (n : Nat) : slots (n + 4) = slots n + 1 := by unfold slots; omega

theorem embed_nil (B : Nat) (X : List Byte) : embed B X [] = X := by
  match X with
  | [] => rfl
  | [_] => rfl
  | [_, _] => rfl
  | [_, _, _] => rfl
  | _ :: _ :: _ :: _ :: _ => rfl

theorem embed_short {X : List Byte} (h : X.length < 3) (B : Nat) (y : List Byte) : embed B X y = X := by
  match X, h with
  | [], _ => cases y <;> rfl
  | [_], _ => cases y <;> rfl
  | [_, _], _ => cases y <;> rfl

theorem embed_three (B : Nat) (r g b u : Byte) (y : List Byte) :
    embed B [r, g, b] (u :: y) = [r, g, embedByte B b u] := rfl

theorem embed_quad (B : Nat) (r g b a u : Byte) (X y : List Byte) :
    embed B (r :: g :: b :: a :: X) (u :: y) = r :: g :: embedByte B b u :: a :: embed B X y := rfl

theorem embed_length (B : Nat) (X y : List Byte) : (embed B X y).length = X.length := by
  induction X using quad_induction generalizing y with
  | short X h => rw [embed_short h]
  | three r g b => cases y <;> rfl
  | quad r g b a X ih =>
    cases y with
    | nil => rw [embed_nil]
    | cons u y => rw [embed_quad]; simp [ih]

theorem xtract_short {X : List Byte} (h : X.length < 3) (B : Nat) : xtract B X = [] := by
  match X, h with
  | [], _ => rfl
  | [_], _ => rfl
  | [_, _], _ => rfl

theorem xtract_length (B : Nat) (X : List Byte) : (xtract B X).length = slots X.length := by
  induction X using quad_induction with
  | short X h => rw [xtract_short h]; simp [slots]; omega
  | three r g b => simp [xtract, slots]
  | quad r g b a X ih =>
    simp only [xtract, List.length_cons, ih]
    exact (slots_add_four X.length).symm

/-! ### The frame -/

theorem be32_length (v : Word) : (be32 v).length = 4 := rfl

theorem ube32_be32 (v : Word) : ube32 (be32 v) = v.toNat := by
  simp [ube32, be32, BitVec.extractLsb'_toNat, Nat.shiftRight_eq_div_pow]
  omega

theorem ube32_lt (a b c d : Byte) : ube32 [a, b, c, d] < 2 ^ 32 := by
  simp [ube32]
  omega

theorem frame_length (g : Magic) (e : List Byte) : (frame g e).length = 8 + e.length := by
  simp [frame, Magic.bytes, be32]
  omega

theorem findMagic_cons (g : Magic) (b : Byte) (s : List Byte) :
    findMagic g (b :: s) = if g.bytes.isPrefixOf (b :: s) then some 0 else (findMagic g s).map (· + 1) := rfl

/-- Four bytes of a sequence, one by one. -/
theorem take_four {s : List Byte} {m : Nat} (h : m + 4 ≤ s.length) :
    (s.drop m).take 4 = [s.getD m 0, s.getD (m + 1) 0, s.getD (m + 2) 0, s.getD (m + 3) 0] := by
  apply List.ext_getElem
  · simp; omega
  · intro i h1 h2
    simp at h1 h2
    have : i < s.length - m := by omega
    match i, h1 with
    | 0, _ => simp [List.getD, List.getElem?_eq_getElem (show m < s.length by omega)]
    | 1, _ => simp [List.getD, List.getElem?_eq_getElem (show m + 1 < s.length by omega)]
    | 2, _ => simp [List.getD, List.getElem?_eq_getElem (show m + 2 < s.length by omega)]
    | 3, _ => simp [List.getD, List.getElem?_eq_getElem (show m + 3 < s.length by omega)]

end Sys2Proof.Machine
end

