-- ==== Sys2Proof/Laws/Exec.lean ====
section
/-! SUPPORT. What an operation can answer: the tests of R149, the frames of its two ends, the two shapes of the writer,
the one case list of `exec`, and how the cycles of a sequencer add up. -/

namespace Sys2Proof.Machine

/-! ### Legal parameters -/

theorem Params.legal_B {p : Params} (h : p.legal = true) : p.B ∈ [1, 2, 4, 8] := by
  simp [Params.legal, Params.widthLegal] at h
  simp
  tauto

theorem Params.legal_bounds {p : Params} (h : p.legal = true) :
    p.inmax ≤ wordMax ∧ p.outmax ≤ wordMax ∧ p.pixmax ≤ wordMax ∧ p.width ≤ wordMax ∧ p.height ≤ wordMax ∧
      p.N ≤ wordMax ∧ p.inmax + p.N ≤ wordMax ∧ p.width * p.height * 4 ≤ p.pixmax := by
  simp [Params.legal, Params.registersFit, Params.lengthFits, Params.imageFits] at h
  simp only [Nat.mul_assoc, wordMax] at *
  omega

/-! ### The tests of R149 -/

theorem State.operandTooLong_iff (s : State) : s.operandTooLong = true ↔ s.params.inmax < s.inlen.toNat := by
  simp [State.operandTooLong]

theorem State.operandFits {s : State} (h : s.inlen.toNat ≤ s.params.inmax) : s.operandTooLong = false := by
  simpa [State.operandTooLong] using h

theorem State.resultTooLong_iff (s : State) (n : Nat) : s.resultTooLong n = true ↔ s.params.outmax < n := by
  simp [State.resultTooLong]

theorem State.resultFits {s : State} {n : Nat} (h : n ≤ s.params.outmax) : s.resultTooLong n = false := by
  simpa [State.resultTooLong] using h

/-! ### The two ends of an operation and their frames -/

theorem State.raise_raises (s : State) (e : ErrCode) : (s.raise e).Raises e := ⟨rfl, rfl, rfl, fun _ => rfl⟩

theorem State.raise_keepsOperand (s : State) (e : ErrCode) : s.KeepsOperand (s.raise e) :=
  ⟨rfl, rfl, fun _ => rfl, rfl, rfl⟩

theorem State.raise_keepsPixels (s : State) (e : ErrCode) : s.KeepsPixels (s.raise e) := ⟨rfl, rfl, fun _ => rfl⟩

theorem State.raise_scanUnspecified (s : State) (e : ErrCode) : s.ScanUnspecified (s.raise e) := ⟨rfl, rfl, rfl, rfl⟩

theorem State.complete_returns {s : State} (hm : s.outMem.Rising) {res : List Byte} (h : res.length < 2 ^ 32) :
    s.Returns (s.complete res) res where
  err := rfl
  outlen := by simpa using Nat.mod_eq_of_lt h
  idle := rfl
  outBytes _ hi := State.complete_read_inside s res hm hi
  outRest _ hi := State.complete_read_outside s res hm hi

theorem State.complete_keepsOperand (s : State) (res : List Byte) : s.KeepsOperand (s.complete res) :=
  ⟨rfl, rfl, fun _ => rfl, rfl, rfl⟩

theorem State.complete_keepsPixels (s : State) (res : List Byte) : s.KeepsPixels (s.complete res) :=
  ⟨rfl, rfl, fun _ => rfl⟩

theorem State.complete_scanUnspecified (s : State) (res : List Byte) : s.ScanUnspecified (s.complete res) :=
  ⟨rfl, rfl, rfl, rfl⟩

theorem State.KeepsOperand.detected {s t : State} (h : s.KeepsOperand t) (m : Nat) (l : Option Nat) :
    s.KeepsOperand (t.detected m l) := by
  obtain ⟨a, b, c, d, e⟩ := h
  constructor <;> simpa

theorem State.KeepsPixels.detected {s t : State} (h : s.KeepsPixels t) (m : Nat) (l : Option Nat) :
    s.KeepsPixels (t.detected m l) := by
  obtain ⟨a, b, c⟩ := h
  constructor <;> simpa

theorem State.Raises.detected {t : State} {e : ErrCode} (h : t.Raises e) (m : Nat) (l : Option Nat) :
    (t.detected m l).Raises e := by
  obtain ⟨a, b, c, d⟩ := h
  constructor <;> simpa

theorem State.Returns.detected {s t : State} {res : List Byte} (h : s.Returns t res) (m : Nat) (l : Option Nat) :
    s.Returns (t.detected m l) res := by
  obtain ⟨a, b, c, d, e⟩ := h
  constructor <;> simpa

/-! ### The writer -/

/-- All symbols have a slot: they are written and the operation succeeds. -/
theorem State.writeSymbols_fits (s : State) {y : List Byte} (h : y.length ≤ slots s.pixlen.toNat) :
    s.writeSymbols y = (s.withPixels (embed s.params.B s.pixels y)).complete [] := by
  simp [State.writeSymbols, Nat.not_lt.mpr h]
  rw [min_eq_left h, List.take_length]

/-- Not all have one, `ATOMIC = 1`: nothing is written. -/
theorem State.writeSymbols_atomic (s : State) {y : List Byte} (h : slots s.pixlen.toNat < y.length)
    (ha : s.params.atomic = true) : s.writeSymbols y = s.raise .capacityExceeded := by
  simp [State.writeSymbols, h, ha]

/-- Not all have one, `ATOMIC = 0`: those that have one are written. -/
theorem State.writeSymbols_partial (s : State) {y : List Byte} (h : slots s.pixlen.toNat < y.length)
    (ha : s.params.atomic = false) :
    s.writeSymbols y =
      (s.withPixels (embed s.params.B s.pixels (y.take (slots s.pixlen.toNat)))).raise .capacityExceeded := by
  simp [State.writeSymbols, h, ha]
  rw [min_eq_right (by omega)]

/-- Whatever the symbols, the writer leaves the pixels as they were or with some of them embedded. -/
theorem State.writeSymbols_cases (s : State) (y : List Byte) :
    s.writeSymbols y = s.raise .capacityExceeded ∨
    (∃ z, s.writeSymbols y = (s.withPixels (embed s.params.B s.pixels z)).raise .capacityExceeded) ∨
    ∃ z, s.writeSymbols y = (s.withPixels (embed s.params.B s.pixels z)).complete [] := by
  unfold State.writeSymbols
  dsimp only
  split
  · exact .inl rfl
  · split
    · exact .inr (.inl ⟨_, rfl⟩)
    · exact .inr (.inr ⟨_, rfl⟩)

/-! ### The case list of `exec` -/

/-- The six shapes of an operation's answer. -/
inductive ExecShape (i : Instr) (s t : State) : Prop where
  /-- An error, nothing detected. -/
  | raised (e : ErrCode) (h : t = s.raise e)
  /-- The scanner found MAGIC and then an error. -/
  | raisedAt (e : ErrCode) (m : Nat) (l : Option Nat) (h : t = (s.raise e).detected m l) (hi : i = .scan ∨ i = .extract)
      (he : e ∈ [ErrCode.truncatedHeader, .payloadOverrun, .tooShort]) (hl : l = none ↔ e = .truncatedHeader)
  /-- A result. -/
  | returned (r : List Byte) (h : t = s.complete r) (h1 : i ≠ .scan) (h2 : i ≠ .extract) (h3 : i ≠ .ingest)
  /-- A result of the scanner. -/
  | returnedAt (r : List Byte) (m l : Nat) (h : t = (s.complete r).detected m (some l)) (hi : i = .scan ∨ i = .extract)
  /-- A new pixel buffer. -/
  | ingested (hi : i = .ingest)
      (h : t = ({ s.withPixels s.operand with pixlen := s.inlen, ingested := true } : State).complete [])
  /-- The writer. -/
  | written (y : List Byte) (h : t = s.writeSymbols y) (hi : i = .embed ∨ i = .inject)

/-- Every next state of `exec` has one of the six shapes. -/
theorem exec_shape {i : Instr} {s t : State} (h : exec i s = .next t) : ExecShape i s t := by
  cases i
  case pack =>
    simp only [exec, execPack] at h
    split at h <;> (try split at h) <;> cases h
    · exact .raised _ rfl
    · exact .raised _ rfl
    · exact .returned _ rfl (by simp) (by simp) (by simp)
  case unpack =>
    simp only [exec, execUnpack] at h
    split at h <;> (try split at h) <;> cases h
    · exact .raised _ rfl
    · exact .raised _ rfl
    · exact .returned _ rfl (by simp) (by simp) (by simp)
  case penc =>
    simp only [exec, execPenc] at h
    split at h <;> (try split at h) <;> cases h
    · exact .raised _ rfl
    · exact .raised _ rfl
    · exact .returned _ rfl (by simp) (by simp) (by simp)
  case pdec =>
    simp only [exec, execPdec] at h
    split at h
    · cases h; exact .raised _ rfl
    · split at h
      · cases h; exact .raised _ rfl
      · split at h <;> cases h
        · exact .raised _ rfl
        · exact .returned _ rfl (by simp) (by simp) (by simp)
  case frame =>
    simp only [exec, execFrame] at h
    split at h <;> (try split at h) <;> cases h
    · exact .raised _ rfl
    · exact .raised _ rfl
    · exact .returned _ rfl (by simp) (by simp) (by simp)
  case scan =>
    simp only [exec, execScan] at h
    split at h
    · cases h; exact .raised _ rfl
    · split at h
      · cases h; exact .raised _ rfl
      · cases h; exact .raisedAt _ _ _ rfl (by simp) (by simp) (by simp)
      · cases h; exact .raisedAt _ _ _ rfl (by simp) (by simp) (by simp)
      · split at h <;> cases h
        · exact .raised _ rfl
        · exact .returnedAt _ _ _ rfl (by simp)
  case ingest =>
    simp only [exec, execIngest] at h
    split at h <;> (try split at h) <;> cases h
    · exact .raised _ rfl
    · exact .raised _ rfl
    · exact .ingested rfl rfl
  case embed =>
    simp only [exec, execEmbed] at h
    split at h <;> cases h
    · exact .raised _ rfl
    · exact .written _ rfl (by simp)
  case xtract =>
    simp only [exec, execXtract] at h
    split at h <;> cases h
    · exact .raised _ rfl
    · exact .returned _ rfl (by simp) (by simp) (by simp)
  case inject =>
    simp only [exec, execInject] at h
    split at h <;> cases h
    · exact .raised _ rfl
    · exact .written _ rfl (by simp)
  case extract =>
    simp only [exec, execExtract] at h
    split at h
    · cases h; exact .raised _ rfl
    · cases h; exact .raisedAt _ _ _ rfl (by simp) (by simp) (by simp)
    · cases h; exact .raisedAt _ _ _ rfl (by simp) (by simp) (by simp)
    · split at h
      · cases h; exact .raisedAt _ _ _ rfl (by simp) (by simp) (by simp)
      · split at h <;> cases h
        · exact .raised _ rfl
        · exact .returnedAt _ _ _ rfl (by simp)

/-! ### Cycles -/

theorem Cycle.run_add (cycle : State → Cycle) (n m : Nat) (s : State) :
    Cycle.run cycle (n + m) s =
      match Cycle.run cycle n s with
      | .busy t => Cycle.run cycle m t
      | .done t => .done t := by
  induction n generalizing s with
  | zero => simp [Cycle.run]
  | succ n ih =>
    rw [show n + 1 + m = (n + m) + 1 by omega, Cycle.run, Cycle.run]
    cases cycle s with
    | busy t => simp only; rw [ih]
    | done t => rfl

/-- A sequencer that is busy for `n` cycles passes through the states it is said to. -/
theorem Cycle.run_busy {cycle : State → Cycle} {st : Nat → State} {n : Nat}
    (h : ∀ r < n, cycle (st r) = .busy (st (r + 1))) {r : Nat} (hr : r ≤ n) :
    Cycle.run cycle r (st 0) = .busy (st r) := by
  induction r with
  | zero => rfl
  | succ r ih =>
    rw [Cycle.run_add, ih (by omega)]
    simp only [Cycle.run]
    rw [h r (by omega)]

/-- Storing one byte after a stored sequence is storing the longer sequence. -/
theorem Memory.store_snoc (sp : Space) {m : Memory} (hm : m.Rising) (base : Nat) (l : List Byte) (b : Byte) :
    Memory.store sp (Memory.store sp m base l) (base + l.length) [b] = Memory.store sp m base (l ++ [b]) := by
  have h1 := Memory.store_rising (sp := sp) hm base l
  apply Memory.ext_of_rising (Memory.store_rising h1 _ _) (Memory.store_rising hm _ _)
  intro a
  by_cases h : a = base + l.length
  · subst h
    rw [Memory.read_store_inside h1 (Nat.le_refl _) (by simp), Memory.read_store_inside hm (by omega) (by simp)]
    simp [List.getD]
  · rw [Memory.read_store_outside h1 (by simp; omega)]
    by_cases h2 : base ≤ a ∧ a < base + l.length
    · rw [Memory.read_store_inside hm h2.1 h2.2, Memory.read_store_inside hm h2.1 (by simp; omega)]
      have : (l ++ [b]).getD (a - base) 0 = l.getD (a - base) 0 := by
        simp only [List.getD]
        rw [List.getElem?_append_left (by omega)]
      rw [this]
    · rw [Memory.read_store_outside hm (by omega), Memory.read_store_outside hm (by simp; omega)]

end Sys2Proof.Machine
end

