-- ==== Sys2Proof/Laws/Host.lean ====
section
/-! SUPPORT. What the host's accesses do, said once: the register numbers, issuing a command, and the step. -/

namespace Sys2Proof.Machine

/-- Every number up to `0x10` is a register; `CMD` is number 0 only and `INLEN` number 3 only. -/
theorem regOfNumber_of_le {n : Nat} (h : n ≤ 0x10) :
    ∃ r, regOfNumber n = some r ∧ (r = .cmd ↔ n = 0) ∧ (r = .inlen ↔ n = 3) := by
  have all : ∀ n : Fin 17, ∃ r, regOfNumber n.val = some r ∧ (r = .cmd ↔ n.val = 0) ∧ (r = .inlen ↔ n.val = 3) := by
    intro n
    fin_cases n <;> exact ⟨_, rfl, by simp⟩
  exact all ⟨n, by omega⟩

/-- No number above `0x10` is a register. -/
theorem regOfNumber_of_gt {n : Nat} (h : 0x10 < n) : regOfNumber n = none := by
  unfold regOfNumber
  split <;> first | rfl | omega

/-- A write to `CMD` while `BUSY = 0`. -/
theorem hostStep_writeCmd {s : State} (hb : s.busy = false) (w : Word) :
    hostStep (.writeReg 0x00 w) s = writeCmd w s := by
  simp [hostStep, hostWriteReg, regOfNumber, hb]

/-- A word that decodes runs its operation, on the started state. -/
theorem writeCmd_decoded {w : Word} {i : Instr} (h : decode w = .ok i) (s : State) :
    writeCmd w s = exec i s.startOp := by
  simp [writeCmd, h]

/-- A reserved word ends at once with IllegalCommand. -/
theorem writeCmd_reserved {w : Word} {e : DecodeError} (h : decode w = .error e) (s : State) :
    writeCmd w s = .next (s.startOp.raise .illegalCommand) := by
  simp [writeCmd, h]

/-- The command line of a mnemonic. -/
theorem hostStep_hostCommand {s : State} (hb : s.busy = false) (i : Instr) :
    hostStep (hostCommand i) s = exec i s.startOp := by
  rw [hostCommand, hostStep_writeCmd hb, writeCmd_decoded (i := i) (by cases i <;> decide)]

/-- A `MOVE`: as much of the result as IN has room for, and its length, become the operand. -/
theorem hostStep_move {s : State} (hb : s.busy = false) :
    hostStep .move s =
      .next { s with
        inMem := Memory.store .inBuf s.inMem 0 (s.result.take s.params.inmax)
        inlen := s.outlen
        fresh := s.fresh + 1 } := by
  simp [hostStep, hostMove, hb]

/-- A `MOVE` that fits: the result becomes the operand. -/
theorem hostStep_move_fits {s : State} (hb : s.busy = false) (h : s.outlen.toNat ≤ s.params.inmax) :
    hostStep .move s =
      .next { s with inMem := Memory.store .inBuf s.inMem 0 s.result, inlen := s.outlen, fresh := s.fresh + 1 } := by
  rw [hostStep_move hb, List.take_of_length_le (by simpa [State.result] using h)]

end Sys2Proof.Machine
end

