-- ==== Sys2Proof/Laws/PerInstr.lean ====
section
/-! SUPPORT. Statements about every operation as syntax, one lemma per constructor. -/

/-- Decoding an operation's command word gives the operation, and the word is well formed (R69, R70). -/
def Sys2Proof.Laws.CommandWord.Statement (i : Sys2Proof.Instr) : Prop :=
  Sys2Proof.decode (Sys2Proof.encode i) = .ok i ∧ Sys2Proof.commandWellFormed (Sys2Proof.encode i) = true

namespace Sys2Proof.Laws.CommandWord

theorem pack : Statement .pack := ⟨by decide, by decide⟩
theorem unpack : Statement .unpack := ⟨by decide, by decide⟩
theorem penc : Statement .penc := ⟨by decide, by decide⟩
theorem pdec : Statement .pdec := ⟨by decide, by decide⟩
theorem frame : Statement .frame := ⟨by decide, by decide⟩
theorem scan : Statement .scan := ⟨by decide, by decide⟩
theorem ingest : Statement .ingest := ⟨by decide, by decide⟩
theorem embed : Statement .embed := ⟨by decide, by decide⟩
theorem xtract : Statement .xtract := ⟨by decide, by decide⟩
theorem inject : Statement .inject := ⟨by decide, by decide⟩
theorem extract : Statement .extract := ⟨by decide, by decide⟩

end Sys2Proof.Laws.CommandWord
end

