-- ==== Sys2Proof/Laws/Sequencer.lean ====
section
/-! SUPPORT. What the cycles of a sequencer do: the fields of a step of the parity accumulators, and the two loops several
operations share, writing a byte sequence to OUT one byte a cycle and taking a payload into the accumulators. -/

namespace Sys2Proof.Machine

/-! ### `absorb` -/

@[simp] theorem Hidden.absorb_k (h : Hidden) (b : Byte) : (h.absorb b).k = h.k := rfl
@[simp] theorem Hidden.absorb_p (h : Hidden) (b : Byte) : (h.absorb b).p = h.p := rfl
@[simp] theorem Hidden.absorb_q (h : Hidden) (b : Byte) : (h.absorb b).q = h.q := rfl
@[simp] theorem Hidden.absorb_t (h : Hidden) (b : Byte) : (h.absorb b).t = h.t := rfl
@[simp] theorem Hidden.absorb_acc (h : Hidden) (b : Byte) : (h.absorb b).acc = h.acc := rfl
@[simp] theorem Hidden.absorb_phase (h : Hidden) (b : Byte) : (h.absorb b).phase = (h.phase + 1) % 8 := rfl
@[simp] theorem Hidden.absorb_m (h : Hidden) (b : Byte) : (h.absorb b).m = h.m := rfl
@[simp] theorem Hidden.absorb_window (h : Hidden) (b : Byte) : (h.absorb b).window = h.window := rfl
@[simp] theorem Hidden.absorb_stream (h : Hidden) (b : Byte) : (h.absorb b).stream = h.stream := rfl

/-- A sequence and its next byte. -/
theorem take_succ_getD {p : List Byte} {r : Nat} (hr : r < p.length) : p.take r ++ [p.getD r 0] = p.take (r + 1) := by
  rw [List.take_add_one, List.getD, List.getElem?_eq_getElem hr]
  simp

/-- The accumulators that hold the parity of the first `r` bytes, at phase `r mod 8`, hold after the next byte that of the
first `r + 1` (R90). -/
theorem Hidden.absorb_par {h : Hidden} {N r : Nat} {p : List Byte} (hr : r < p.length) (hp : h.par = parity N (p.take r))
    (hph : h.phase = r % 8) : (h.absorb (p.getD r 0)).par = parity N (p.take (r + 1)) := by
  simp only [Hidden.absorb, hp, hph]
  apply List.ext_getElem
  · simp [parity]
  · intro i _ _
    simp only [List.getElem_mapIdx, parity, List.getElem_map, List.getElem_range, parityByte]
    rw [← take_succ_getD hr, parityFrom_snoc]
    simp only [List.length_take, Nat.min_eq_left (Nat.le_of_lt hr), Nat.add_mod_mod]

/-! ### A byte sequence to OUT -/

/-- The next byte of a sequence written to `OUT[0..)`. -/
theorem Memory.store_take_succ (sp : Space) {m : Memory} (hm : m.Rising) {p : List Byte} {r : Nat} (hr : r < p.length) :
    Memory.store sp (Memory.store sp m 0 (p.take r)) r [p.getD r 0] = Memory.store sp m 0 (p.take (r + 1)) := by
  have h := Memory.store_snoc sp hm 0 (p.take r) (p.getD r 0)
  rwa [List.length_take, Nat.min_eq_left (Nat.le_of_lt hr), Nat.zero_add, take_succ_getD hr] at h

/-- The state of a copy after `r` of its bytes. -/
def copied (s : State) (p : List Byte) (r : Nat) : State :=
  { s with outMem := Memory.store .outBuf s.outMem 0 (p.take r), hidden := { s.hidden with q := r } }

/-- One byte more of a copy. -/
theorem copyCycle_copied {s : State} (hm : s.outMem.Rising) {p : List Byte} {r : Nat} (hr : r < p.length) :
    copyCycle p.length (fun i => p.getD i 0) (copied s p r) = .busy (copied s p (r + 1)) := by
  simp only [copyCycle, copied, if_pos hr, State.putOut, Memory.store_take_succ .outBuf hm hr]

/-- The end of a copy is `return p` (R145), but for the hidden state. -/
theorem copyCycle_end (s : State) (p : List Byte) :
    copyCycle p.length (fun i => p.getD i 0) (copied s p p.length) =
      .done { s.complete p with hidden := { s.hidden with q := p.length } } := by
  simp [copyCycle, copied, State.complete, State.endOp]

end Sys2Proof.Machine
end

