-- ==== Sys2Proof/Tests/Slice0.lean ====
section
/-! SUPPORT. Tests: words written out from the spec's encoding, the checks of WellFormed.lean, one step per operation on
the spec's own vectors (95_test_vectors.md, each named), and a witness for the hypotheses of each statement. -/

open Sys2Proof Sys2Proof.Machine

namespace Sys2Proof.Tests

/-! ## States to test on -/

/-- An instance with small buffers. -/
def params (B N : Nat) (atomic : Bool) : Params where
  B      := B
  N      := N
  magic  := Config.defaultMagic
  width  := 2
  height := 1
  atomic := atomic
  inmax  := 64
  outmax := 48
  pixmax := 96

/-- The instance of V28. -/
def tight : Params :=
  { params 2 4 true with inmax := 8, outmax := 8, pixmax := 16 }

/-- A state whose operand is `ins` and whose pixel buffer is `pix`. -/
def state (p : Params) (ins pix : List Byte) : State :=
  { State.resetWith p with
    inMem  := Memory.ofBytes .inBuf 0 ins
    inlen  := BitVec.ofNat 32 ins.length
    pixMem := Memory.ofBytes .pix 0 pix
    pixlen := BitVec.ofNat 32 pix.length }

/-- A state with an operand length above `INMAX` (R29: "stored as written"). -/
def tooLong (p : Params) : State := { State.resetWith p with inlen := BitVec.ofNat 32 (p.inmax + 1) }

/-- Such states meet the invariant. -/
theorem state_inv {p : Params} (hp : p.legal = true) {ins pix : List Byte} (h1 : ins.length ≤ p.inmax)
    (h2 : pix.length ≤ p.pixmax) : (state p ins pix).Inv := by
  have hn := Params.legal_bounds hp
  unfold wordMax at hn
  have hpix : (BitVec.ofNat 32 pix.length).toNat = pix.length := by simp; omega
  refine ⟨hp, Memory.ofBytes_wf _ _ _, Memory.nil_wf _, Memory.ofBytes_wf _ _ _, ?_, ?_, ?_, ?_, ?_, ?_, ?_, ?_⟩
  · intro c hc
    have := (Memory.mem_ofBytes_bounds hc).2
    exact Nat.lt_of_lt_of_le this (by simpa [state, State.resetWith] using h1)
  · simp [state, State.resetWith]
  · intro c hc
    have := (Memory.mem_ofBytes_bounds hc).2
    simp only [state, hpix]
    simpa using this
  · simp only [state, hpix]
    exact h2
  · simp [state, State.resetWith]
  · simp [state, State.resetWith]
  · simp [state, State.resetWith]
  · simp [state, State.resetWith]

/-- So do those of `tooLong`. -/
theorem tooLong_inv : (tooLong tight).Inv :=
  ⟨by decide, by decide, by decide, by decide, by decide, by decide, by decide, by decide, by decide, by decide,
    by decide, by decide⟩

/-- A state with a result longer than IN: `INMAX = 2`, `OUTLEN = 3`. -/
def longResult : State :=
  { State.resetWith { tight with inmax := 2 } with outMem := [(0, 7), (1, 8), (2, 9)], outlen := 3 }

/-- It meets the invariant too. -/
theorem longResult_inv : longResult.Inv :=
  ⟨by decide, by decide, by decide, by decide, by decide, by decide, by decide, by decide, by decide, by decide,
    by decide, by decide⟩

/-- What the host reads after a step: `ERR`, `OUTLEN` and the result. -/
def reads (o : Host.Outcome State Fault Refusal) : Option (ErrCode × Nat × List Byte) :=
  match o with
  | .next t => some (t.err, t.outlen.toNat, t.result)
  | _ => none

/-- `ERR` and the pixel buffer after a step. -/
def readsPix (o : Host.Outcome State Fault Refusal) : Option (ErrCode × List Byte) :=
  match o with
  | .next t => some (t.err, t.pixels)
  | _ => none

/-- `ERR`, `FPOS`, `FLEN` after a step, each of the two only where it is valid. -/
def readsScan (o : Host.Outcome State Fault Refusal) : Option (ErrCode × Option Nat × Option Nat) :=
  match o with
  | .next t =>
    some (t.err, if t.fposValid then some t.fpos.toNat else none, if t.flenValid then some t.flen.toNat else none)
  | _ => none

/-! ## Decoding: words written out from R69 and R70 -/

theorem test_decode_pack : decode 0b00000000000000000000000000000001 = .ok .pack := by decide
theorem test_decode_unpack : decode 0b00000000000000000000000000000010 = .ok .unpack := by decide
theorem test_decode_penc : decode 0b00000000000000000000000000000011 = .ok .penc := by decide
theorem test_decode_pdec : decode 0b00000000000000000000000000000100 = .ok .pdec := by decide
theorem test_decode_frame : decode 0b00000000000000000000000000000101 = .ok .frame := by decide
theorem test_decode_scan : decode 0b00000000000000000000000000000110 = .ok .scan := by decide
theorem test_decode_ingest : decode 0b00000000000000000000000000000111 = .ok .ingest := by decide
theorem test_decode_embed : decode 0b00000000000000000000000000001000 = .ok .embed := by decide
theorem test_decode_xtract : decode 0b00000000000000000000000000001001 = .ok .xtract := by decide
theorem test_decode_inject : decode 0b00000000000000000000000000001010 = .ok .inject := by decide
theorem test_decode_extract : decode 0b00000000000000000000000000001011 = .ok .extract := by decide

/-- The five reserved words of V27. -/
theorem test_decode_reserved :
    decode 0x00000000 = .error (.reservedOp 0x00) ∧ decode 0x0000000C = .error (.reservedOp 0x0C) ∧
    decode 0x000000FF = .error (.reservedOp 0xFF) ∧ decode 0x00000101 = .error (.highBitsSet 0x000001) ∧
    decode 0x80000001 = .error (.highBitsSet 0x800000) := by decide

theorem test_decodeTableWord :
    decodeTableWord 32 0x0000000B = some .extract ∧ decodeTableWord 8 0x01 = some .pack ∧
    decodeTableWord 32 0x00000100 = none := by decide

/-- Every row of the table runs as the first step after reset. -/
theorem test_fetchWord_runs :
    ∀ w ∈ [1, 2, 3, 4, 5, 6, 7, 8, 9, 10, 11], (reads (step (State.reset.withFetchWord 32 w))).isSome = true := by
  decide

/-! ## WellFormed: one ill-formed term for each check -/

theorem test_wf_highBits : commandHighBitsZero 0x00000101 = false ∧ commandWellFormed 0x00000101 = false := by decide
theorem test_wf_opZero : commandOpListed 0x00000000 = false ∧ commandWellFormed 0x00000000 = false := by decide
theorem test_wf_opAbove : commandOpListed 0x0000000C = false ∧ commandWellFormed 0x0000000C = false := by decide
theorem test_wf_ok : commandWellFormed 0x00000001 = true ∧ commandWellFormed 0x0000000B = true := by decide
theorem test_wf_width : Params.legal { tight with B := 3 } = false ∧ Params.widthLegal { tight with B := 3 } = false := by
  decide
theorem test_wf_registers :
    Params.legal { tight with outmax := 2 ^ 32 } = false ∧ Params.registersFit { tight with outmax := 2 ^ 32 } = false := by
  decide
theorem test_wf_length :
    Params.legal { tight with N := 2 ^ 32 - 8 } = false ∧ Params.lengthFits { tight with N := 2 ^ 32 - 8 } = false := by
  decide
theorem test_wf_image :
    Params.legal { tight with width := 3, height := 2 } = false ∧
    Params.imageFits { tight with width := 3, height := 2 } = false := by
  decide
/-- R10: the default instance is of the forms an example shows, the instance of V28 (N = 4) is legal and not. -/
theorem test_wf_shown :
    Config.instanceParams.shownByExamples = true ∧ tight.legal = true ∧ tight.shownByExamples = false := by
  decide
theorem test_wf_params : tight.legal = true ∧ (params 8 16 false).legal = true ∧ Config.instanceParams.legal = true := by
  decide

/-! ## One step per operation -/

/-- V1, B = 2. -/
theorem test_pack : reads (exec .pack (state (params 2 16 true) [0xB4] [])) = some (.ok, 4, [2, 3, 1, 0]) := by decide
/-- V28: 12 units do not fit `OUTMAX = 8`. -/
theorem test_pack_tooLong : reads (exec .pack (state tight [0xAA, 0xBB, 0xCC] [])) = some (.operandTooLong, 0, []) := by
  decide

/-- V5, B = 2: the last three units are dropped. -/
theorem test_unpack :
    reads (exec .unpack (state (params 2 16 true) [2, 3, 1, 0, 1, 2, 3] [])) = some (.ok, 1, [0xB4]) := by decide
/-- V6: bits above bit `B - 1` are ignored. -/
theorem test_unpack_masks : reads (exec .unpack (state (params 2 16 true) [0xFE, 3, 1, 0] [])) = some (.ok, 1, [0xB4]) := by
  decide

/-- V8. -/
theorem test_penc :
    reads (exec .penc (state (params 2 4 true) [0x41, 0x42] [])) = some (.ok, 6, [0x41, 0x42, 0xC5, 0x8B, 0x17, 0x2E]) := by
  decide
/-- V10, N = 8: two bytes rotate apart. -/
theorem test_penc_rotates :
    reads (exec .penc (state (params 2 8 true) [0x80, 0x01] [])) =
      some (.ok, 10, [0x80, 0x01, 0x82, 0x05, 0x0A, 0x14, 0x28, 0x50, 0xA0, 0x41]) := by decide

/-- V12: wrong parity is not noticed. -/
theorem test_pdec :
    reads (exec .pdec (state (params 2 4 true) [0x41, 0x42, 0, 0, 0, 0] [])) = some (.ok, 2, [0x41, 0x42]) := by decide
/-- V11. -/
theorem test_pdec_tooShort : reads (exec .pdec (state (params 2 4 true) [1, 2, 3] [])) = some (.tooShort, 0, []) := by
  decide

/-- V19. -/
theorem test_frame :
    reads (exec .frame (state (params 2 16 true) [0xAA, 0xBB, 0xCC] [])) =
      some (.ok, 11, [0x54, 0x45, 0x4E, 0x54, 0, 0, 0, 3, 0xAA, 0xBB, 0xCC]) := by decide
/-- V28: `8 + 1 > 8`. -/
theorem test_frame_tooLong : reads (exec .frame (state tight [0x11] [])) = some (.operandTooLong, 0, []) := by decide

/-- V14's stream: the first match wins. -/
def decoy : List Byte :=
  [0xAA, 0x54, 0x45, 0x4E, 0x54, 0, 0, 0, 1, 0x99, 0x54, 0x45, 0x4E, 0x54, 0, 0, 0, 2, 1, 2]

theorem test_scan :
    reads (exec .scan (state (params 2 16 true) decoy [])) = some (.ok, 1, [0x99]) ∧
    readsScan (exec .scan (state (params 2 16 true) decoy [])) = some (.ok, some 1, some 1) := by decide
/-- V17: MAGIC at 2, seven bytes from there. -/
theorem test_scan_truncated :
    readsScan (exec .scan (state (params 2 16 true) [0, 0, 0x54, 0x45, 0x4E, 0x54, 0, 0, 0] [])) =
      some (.truncatedHeader, some 2, none) := by decide

/-- The example of R101. -/
theorem test_ingest :
    readsPix (exec .ingest (state (params 2 16 true) [0x10, 0x20, 0x30, 0x40, 0x50, 0x60, 0x70, 0x80] [1, 2, 3])) =
      some (.ok, [0x10, 0x20, 0x30, 0x40, 0x50, 0x60, 0x70, 0x80]) := by decide
/-- V24: the empty buffer. -/
theorem test_ingest_empty : readsPix (exec .ingest (state (params 2 16 true) [] [1, 2, 3, 4])) = some (.ok, []) := by
  decide

/-- V23, B = 4. -/
theorem test_embed :
    readsPix (exec .embed (state (params 4 16 true) [0x0F, 0x00, 0x0A, 0x05]
      [0x10, 0x20, 0x30, 0x40, 0x11, 0x21, 0x31, 0x41, 0x12, 0x22, 0x32, 0x42, 0x13, 0x23, 0x33, 0x43])) =
      some (.ok, [0x10, 0x20, 0x3F, 0x40, 0x11, 0x21, 0x30, 0x41, 0x12, 0x22, 0x3A, 0x42, 0x13, 0x23, 0x35, 0x43]) := by
  decide
/-- V25, `ATOMIC = 0`: two symbols written, the third has no slot. -/
theorem test_embed_partial :
    readsPix (exec .embed (state (params 2 16 false) [1, 3, 2] [0x80, 0x80, 0x80, 0x80, 0x80, 0x80, 0x80, 0x80])) =
      some (.capacityExceeded, [0x80, 0x80, 0x81, 0x80, 0x80, 0x80, 0x83, 0x80]) := by decide

/-- V23, B = 2. -/
theorem test_xtract :
    reads (exec .xtract (state (params 2 16 true) []
      [0x10, 0x20, 0x30, 0x40, 0x11, 0x21, 0x31, 0x41, 0x12, 0x22, 0x32, 0x42, 0x13, 0x23, 0x33, 0x43])) =
      some (.ok, 4, [0, 1, 2, 3]) := by decide
/-- V24: a buffer of 11 bytes has three slots. -/
theorem test_xtract_ragged :
    reads (exec .xtract (state (params 2 16 true) [] [0, 0, 3, 0, 0, 0, 2, 0, 0, 0, 1])) = some (.ok, 3, [3, 2, 1]) := by
  decide

/-- P4: B = 8, N = 0. -/
def carrier : List Byte := List.replicate 48 0x11

/-- P4's buffer at the end. -/
def carried : List Byte :=
  [0x11, 0x11, 0x54, 0x11, 0x11, 0x11, 0x45, 0x11, 0x11, 0x11, 0x4E, 0x11, 0x11, 0x11, 0x54, 0x11,
   0x11, 0x11, 0x00, 0x11, 0x11, 0x11, 0x00, 0x11, 0x11, 0x11, 0x00, 0x11, 0x11, 0x11, 0x03, 0x11,
   0x11, 0x11, 0x4F, 0x11, 0x11, 0x11, 0x4B, 0x11, 0x11, 0x11, 0x21, 0x11, 0x11, 0x11, 0x11, 0x11]

theorem test_inject :
    readsPix (exec .inject (state (params 8 0 true) [0x4F, 0x4B, 0x21] carrier)) = some (.ok, carried) := by decide
/-- V21, `ATOMIC = 1`. -/
theorem test_inject_capacity :
    readsPix (exec .inject (state (params 2 16 true) [0x41] [0, 0, 0, 0])) = some (.capacityExceeded, [0, 0, 0, 0]) := by
  decide

/-- P4. -/
theorem test_extract :
    reads (exec .extract (state (params 8 0 true) [0x4F, 0x4B, 0x21] carried)) = some (.ok, 3, [0x4F, 0x4B, 0x21]) ∧
    readsScan (exec .extract (state (params 8 0 true) [0x4F, 0x4B, 0x21] carried)) = some (.ok, some 0, some 3) := by
  decide

/-- A pixel buffer with these blue bytes and nothing else. -/
def blues (bs : List Byte) : List Byte := bs.flatMap fun b => [0, 0, b, 0]

/-- V26, third row. -/
theorem test_extract_tooShort :
    readsScan (exec .extract (state (params 8 16 true) [] (blues [0x54, 0x45, 0x4E, 0x54, 0, 0, 0, 1, 0xAA]))) =
      some (.tooShort, some 0, some 1) := by decide

/-! ## The host's accesses -/

/-- V29: what the host reads after reset. -/
theorem test_reset_registers :
    State.reset.regValue .status = 0 ∧ State.reset.regValue .err = 0 ∧ State.reset.regValue .inlen = 0 ∧
    State.reset.regValue .outlen = 0 ∧ State.reset.regValue .pixlen = 8 ∧ State.reset.regValue .cfgB = 2 ∧
    State.reset.regValue .cfgN = 16 ∧ State.reset.regValue .cfgMagic = 0x54454E54 ∧
    State.reset.regValue .cfgMode = 1 ∧ State.reset.pixels = [0, 0, 0, 0, 0, 0, 0, 0] := by decide

/-- V27: a reserved word. -/
theorem test_reserved :
    readsPix (hostStep (.writeReg 0 0x0000000C) (state tight [1] [1, 2, 3, 4])) = some (.illegalCommand, [1, 2, 3, 4]) := by
  decide

/-- R132: `MOVE` of a result longer than IN, then an operation that reads IN. -/
theorem test_move_tooLong :
    reads (hostRun [.move, hostCommand .penc] longResult) = some (.operandTooLong, 0, []) := by
  decide

/-! ## Witnesses

For each statement with hypotheses, states and operands that meet them all together, one line for each clause, at the
boundary of its range. -/

/-- `OUTMAX = 1`. -/
def narrow : Params := { tight with outmax := 1 }
/-- `PIXMAX = 8`, `INMAX = 16`. -/
def smallPix : Params := { tight with inmax := 16, pixmax := 8 }
/-- B = 8, N = 0. -/
def whole (atomic : Bool) : Params := params 8 0 atomic
/-- B = 8, N = 2, `OUTMAX = 1`. -/
def wholeNarrow : Params := { params 8 2 true with outmax := 1 }
/-- MAGIC. -/
def magic : List Byte := [0x54, 0x45, 0x4E, 0x54]

theorem witness_DecodeAndEncodeAgree : decode 0x01 = .ok .pack ∧ decode 0x0B = .ok .extract := by decide

theorem witness_ReservedWordRaisesIllegalCommand :
    ∀ w ∈ ([0x00000000, 0x0000000C, 0x000000FF, 0x00000101, 0x80000001] : List Word),
      State.busy { state tight [1] [1, 2, 3, 4] with pending := [.writeReg 0x00 w] } = false ∧
      (w.extractLsb' 8 24 ≠ 0 ∨ (w.extractLsb' 0 8).toNat = 0 ∨ 0x0C ≤ (w.extractLsb' 0 8).toNat) := by
  refine fun w hw => ⟨rfl, ?_⟩
  simp only [List.mem_cons, List.not_mem_nil, or_false] at hw
  rcases hw with rfl | rfl | rfl | rfl | rfl <;> decide

theorem witness_StepRunsTheDecodedCommand :
    State.busy { state tight [1] [] with pending := [.writeReg 0x00 0x0B] } = false ∧ decode 0x0B = .ok .extract := by
  decide

theorem witness_StepPerformsTheNextAccess :
    State.reset.pending = [] ∧ ∃ s : State, s.pending = [.move, .readReg 0x02] :=
  ⟨rfl, { State.reset with pending := [.move, .readReg 0x02] }, rfl⟩

theorem witness_FetchWordRunsNext : decodeTableWord 32 0x01 = some .pack ∧ decodeTableWord 32 0x0B = some .extract := by
  decide

/-- PackFunction at the first and last symbol of the last byte, for the narrowest and the widest symbol. -/
theorem witness_PackFunction :
    1 < [0x1B, (0xE4 : Byte)].length ∧ 7 < spb 1 ∧ 0 < spb 8 ∧ (pack 1 [0x1B, 0xE4]).getD (1 * spb 1 + 7) 0 = 0 ∧
    (pack 8 [0x1B, 0xE4]).getD (1 * spb 8 + 0) 0 = 0xE4 := by
  decide

theorem witness_PackLaws : (3 : Byte) ∈ pack 2 [0xB4] ∧ pack 2 [0xB4] = pack 2 [0xB4] := by decide

theorem witness_UnpackFunction : 1 < [0, 1, 2, 3, 3, 2, 1, (0 : Byte)].length / spb 2 ∧ 0 < [(7 : Byte)].length / spb 8 := by
  decide

theorem witness_UnpackInvertsPack :
    [1, 2, (3 : Byte)].length < spb 2 ∧ (∀ x ∈ [0, 1, 2, 3, (3 : Byte)], x.toNat < 2 ^ 2) ∧
    [0, 1, 2, (3 : Byte)].length % spb 2 = 0 := by
  decide

theorem witness_PencFunction :
    (penc 4 [0x41, 0x42]).getD (2 + 0) 0 = 0xC5 ∧ (penc 4 [0x41, 0x42]).getD (2 + 3) 0 = 0x2E := by decide

theorem witness_ParityLaws : [0x01, (0x00 : Byte)].length = [0x00, (0x80 : Byte)].length := by decide

theorem witness_PdecStripsWithoutVerifying :
    [1, 2, (3 : Byte)].length < 4 ∧ 4 ≤ [1, 2, 3, (4 : Byte)].length ∧ [1, 2, 3, (4 : Byte)].length = 4 := by decide

theorem witness_SlotsFunction : 12 % 4 = 0 ∧ 2 + 4 * 0 < 3 ∧ ¬ 2 + 4 * 1 < 6 := by decide

/-- EmbedFunction and WriterReaderLaws, all slots of a ragged buffer written, and one left. -/
theorem witness_EmbedFunction :
    2 ≤ min [1, 3, (2 : Byte)].length (slots [0, 0, 3, 0, 0, 0, (2 : Byte)].length) ∧
    1 ≤ min [1, 3, (2 : Byte)].length (slots [0, 0, 3, 0, 0, 0, (2 : Byte)].length) ∧
    (∀ k < 2, 3 ≠ 2 + 4 * k) := by
  decide

theorem witness_XtractFunction : 1 < slots [0, 0, 3, 0, 0, 0, (2 : Byte)].length := by decide

theorem witness_WriterReaderLaws :
    1 ≤ min [1, (3 : Byte)].length (slots [0, 0, 3, 0, 0, 0, (2 : Byte)].length) ∧ (0 : Nat) < 1 ∧ (1 : Nat) ≤ 1 := by
  decide

theorem witness_FrameLaws :
    [(0xAA : Byte)].length ≤ 2 ^ 32 - 1 ∧ (List.replicate 33 (0 : Byte)).length = 17 + 16 ∧
    frame Config.defaultMagic [0xAA] = frame Config.defaultMagic [0xAA] :=
  ⟨by simp, by simp, rfl⟩

/-- ScanFunction: no match; a first match with 7 and with 8 bytes; LENGTH one above and equal to the bytes there are. -/
theorem witness_ScanFunction :
    (∀ m < 4, m + 4 ≤ [0x54, 0x45, (0x4E : Byte)].length →
      ([0x54, 0x45, (0x4E : Byte)].drop m).take 4 ≠ Config.defaultMagic.bytes) ∧
    ((magic ++ [0, 0, 0]).drop 0).take 4 = Config.defaultMagic.bytes ∧ (magic ++ [0, 0, 0]).length - 0 < 8 ∧
    8 ≤ (magic ++ [0, 0, 0, 1]).length - 0 ∧ (magic ++ [0, 0, 0, 1]).length - (0 + 8) < 1 ∧
    1 ≤ (magic ++ [0, 0, 0, 1, 0xAA]).length - (0 + 8) := by
  decide

theorem witness_ScanFindsFrames :
    scan Config.defaultMagic decoy = .found 1 1 [0x99] ∧ [(0x99 : Byte)].length ≤ 2 ^ 32 - 1 := by decide

theorem witness_PackRuns :
    ((state tight [1, 2] []).Inv ∧ (state tight [1, 2] []).inlen.toNat ≤ 8 ∧
      (state tight [1, 2] []).inlen.toNat * spb 2 = tight.outmax) ∧
    ((state tight [1, 2, 3] []).Inv ∧ tight.outmax < (state tight [1, 2, 3] []).inlen.toNat * spb 2) ∧
    ((tooLong tight).Inv ∧ (tooLong tight).params.inmax < (tooLong tight).inlen.toNat) ∧
    ∃ t, exec .pack (state tight [1, 2] []) = .next t :=
  ⟨⟨state_inv (by decide) (by decide) (by decide), by decide⟩,
    ⟨state_inv (by decide) (by decide) (by decide), by decide⟩, ⟨tooLong_inv, by decide⟩, _, rfl⟩

theorem witness_UnpackRuns :
    ((state tight [2, 3, 1, 0] []).Inv ∧ (state tight [2, 3, 1, 0] []).inlen.toNat / spb 2 ≤ tight.outmax) ∧
    ((state narrow [0, 1, 2, 3, 0, 1, 2, 3] []).Inv ∧
      narrow.outmax < (state narrow [0, 1, 2, 3, 0, 1, 2, 3] []).inlen.toNat / spb 2) ∧
    ((tooLong tight).Inv ∧ (tooLong tight).params.inmax < (tooLong tight).inlen.toNat) ∧
    ∃ t, exec .unpack (state tight [2, 3, 1, 0] []) = .next t :=
  ⟨⟨state_inv (by decide) (by decide) (by decide), by decide⟩,
    ⟨state_inv (by decide) (by decide) (by decide), by decide⟩, ⟨tooLong_inv, by decide⟩, _, rfl⟩

theorem witness_PencRuns :
    ((state tight [1, 2, 3, 4] []).Inv ∧ (state tight [1, 2, 3, 4] []).inlen.toNat + tight.N = tight.outmax) ∧
    ((state tight [1, 2, 3, 4, 5] []).Inv ∧ tight.outmax < (state tight [1, 2, 3, 4, 5] []).inlen.toNat + tight.N) ∧
    ((tooLong tight).Inv ∧ (tooLong tight).params.inmax < (tooLong tight).inlen.toNat) ∧
    ∃ t, exec .penc (state tight [1, 2, 3, 4] []) = .next t :=
  ⟨⟨state_inv (by decide) (by decide) (by decide), by decide⟩,
    ⟨state_inv (by decide) (by decide) (by decide), by decide⟩, ⟨tooLong_inv, by decide⟩, _, rfl⟩

theorem witness_PdecRuns :
    ((state tight [1, 2, 3, 4] []).Inv ∧ tight.N ≤ (state tight [1, 2, 3, 4] []).inlen.toNat ∧
      (state tight [1, 2, 3, 4] []).inlen.toNat - tight.N ≤ tight.outmax) ∧
    ((state tight [1, 2, 3] []).Inv ∧ (state tight [1, 2, 3] []).inlen.toNat < tight.N) ∧
    ((state narrow [1, 2, 3, 4, 5, 6] []).Inv ∧
      narrow.outmax < (state narrow [1, 2, 3, 4, 5, 6] []).inlen.toNat - narrow.N) ∧
    ((tooLong tight).Inv ∧ (tooLong tight).params.inmax < (tooLong tight).inlen.toNat) ∧
    ∃ t, exec .pdec (state tight [1, 2, 3] []) = .next t :=
  ⟨⟨state_inv (by decide) (by decide) (by decide), by decide⟩,
    ⟨state_inv (by decide) (by decide) (by decide), by decide⟩,
    ⟨state_inv (by decide) (by decide) (by decide), by decide⟩, ⟨tooLong_inv, by decide⟩, _, rfl⟩

theorem witness_FrameRuns :
    ((state tight [] []).Inv ∧ 8 + (state tight [] []).inlen.toNat = tight.outmax) ∧
    ((state tight [1] []).Inv ∧ tight.outmax < 8 + (state tight [1] []).inlen.toNat) ∧
    ((tooLong tight).Inv ∧ (tooLong tight).params.inmax < (tooLong tight).inlen.toNat) ∧
    ∃ t, exec .frame (state tight [] []) = .next t :=
  ⟨⟨state_inv (by decide) (by decide) (by decide), by decide⟩,
    ⟨state_inv (by decide) (by decide) (by decide), by decide⟩, ⟨tooLong_inv, by decide⟩, _, rfl⟩

/-- ScanRuns, one state for each outcome, TruncatedHeader at 4 and at 7 bytes. -/
theorem witness_ScanRuns :
    ((tooLong tight).Inv ∧ (tooLong tight).params.inmax < (tooLong tight).inlen.toNat) ∧
    ((state tight [] []).Inv ∧ scan tight.magic (state tight [] []).operand = .noPayloadFound) ∧
    ((state tight magic []).Inv ∧ scan tight.magic (state tight magic []).operand = .truncatedHeader 0) ∧
    ((state tight (magic ++ [0, 0, 0]) []).Inv ∧
      scan tight.magic (state tight (magic ++ [0, 0, 0]) []).operand = .truncatedHeader 0) ∧
    ((state tight (magic ++ [0, 0, 0, 1]) []).Inv ∧
      scan tight.magic (state tight (magic ++ [0, 0, 0, 1]) []).operand = .payloadOverrun 0 1) ∧
    ((state wholeNarrow (magic ++ [0, 0, 0, 2, 7, 8]) []).Inv ∧ wholeNarrow.outmax < 2 ∧
      scan wholeNarrow.magic (state wholeNarrow (magic ++ [0, 0, 0, 2, 7, 8]) []).operand = .found 0 2 [7, 8]) ∧
    ((state wholeNarrow (magic ++ [0, 0, 0, 1, 7]) []).Inv ∧ 1 ≤ wholeNarrow.outmax ∧
      scan wholeNarrow.magic (state wholeNarrow (magic ++ [0, 0, 0, 1, 7]) []).operand = .found 0 1 [7]) ∧
    ∃ t, exec .scan (state tight magic []) = .next t :=
  ⟨⟨tooLong_inv, by decide⟩, ⟨state_inv (by decide) (by decide) (by decide), by decide⟩,
    ⟨state_inv (by decide) (by decide) (by decide), by decide⟩,
    ⟨state_inv (by decide) (by decide) (by decide), by decide⟩,
    ⟨state_inv (by decide) (by decide) (by decide), by decide⟩,
    ⟨state_inv (by decide) (by decide) (by decide), by decide⟩,
    ⟨state_inv (by decide) (by decide) (by decide), by decide⟩, _, rfl⟩

theorem witness_IngestRuns :
    ((state tight [1, 2, 3, 4, 5, 6, 7, 8] [9]).Inv ∧
      (state tight [1, 2, 3, 4, 5, 6, 7, 8] [9]).inlen.toNat = tight.inmax ∧
      (state tight [1, 2, 3, 4, 5, 6, 7, 8] [9]).inlen.toNat ≤ tight.pixmax) ∧
    ((state smallPix [1, 2, 3, 4, 5, 6, 7, 8, 9] []).Inv ∧
      smallPix.pixmax < (state smallPix [1, 2, 3, 4, 5, 6, 7, 8, 9] []).inlen.toNat) ∧
    ((tooLong tight).Inv ∧ (tooLong tight).params.inmax < (tooLong tight).inlen.toNat) ∧
    ∃ t, exec .ingest (state tight [1, 2, 3, 4, 5, 6, 7, 8] [9]) = .next t :=
  ⟨⟨state_inv (by decide) (by decide) (by decide), by decide⟩,
    ⟨state_inv (by decide) (by decide) (by decide), by decide⟩, ⟨tooLong_inv, by decide⟩, _, rfl⟩

/-- EmbedRuns: an exact fit, one symbol too many in both modes, and an operand too long. -/
theorem witness_EmbedRuns :
    ((state tight [1, 3] [0, 0, 0, 0, 0, 0, 0]).Inv ∧
      (state tight [1, 3] [0, 0, 0, 0, 0, 0, 0]).inlen.toNat = slots (state tight [1, 3] [0, 0, 0, 0, 0, 0, 0]).pixlen.toNat) ∧
    (∀ atomic : Bool, (state (params 2 16 atomic) [1, 3] [0, 0, 0, 0]).Inv ∧
      slots (state (params 2 16 atomic) [1, 3] [0, 0, 0, 0]).pixlen.toNat <
        (state (params 2 16 atomic) [1, 3] [0, 0, 0, 0]).inlen.toNat ∧
      (state (params 2 16 atomic) [1, 3] [0, 0, 0, 0]).params.atomic = atomic) ∧
    ((tooLong tight).Inv ∧ (tooLong tight).params.inmax < (tooLong tight).inlen.toNat) ∧
    ∃ t, exec .embed (state tight [1, 3] [0, 0, 0, 0, 0, 0, 0]) = .next t :=
  ⟨⟨state_inv (by decide) (by decide) (by decide), by decide⟩,
    fun atomic => ⟨state_inv (by cases atomic <;> decide) (by simp [params]) (by simp [params]), by
      cases atomic <;> decide, rfl⟩,
    ⟨tooLong_inv, by decide⟩, _, rfl⟩

theorem witness_XtractRuns :
    ((state narrow [] [0, 0, 3, 0, 0]).Inv ∧ slots (state narrow [] [0, 0, 3, 0, 0]).pixlen.toNat = narrow.outmax) ∧
    ((state narrow [] [0, 0, 3, 0, 0, 0, 3]).Inv ∧
      narrow.outmax < slots (state narrow [] [0, 0, 3, 0, 0, 0, 3]).pixlen.toNat) ∧
    ∃ t, exec .xtract (state narrow [] [0, 0, 3, 0, 0]) = .next t :=
  ⟨⟨state_inv (by decide) (by decide) (by decide), by decide⟩,
    ⟨state_inv (by decide) (by decide) (by decide), by decide⟩, _, rfl⟩

/-- InjectRuns, and the premises of InjectSucceedsExactlyWhenItFits: an exact fit of a one-byte payload, one slot fewer in
both modes, an operand too long. -/
theorem witness_InjectRuns :
    ((state (whole true) [0x5A] (List.replicate 36 0)).Inv ∧
      (pack 8 (frame (whole true).magic (penc 0 (state (whole true) [0x5A] (List.replicate 36 0)).operand))).length =
        slots (state (whole true) [0x5A] (List.replicate 36 0)).pixlen.toNat) ∧
    (∀ atomic : Bool, (state (whole atomic) [0x5A] (List.replicate 32 0)).Inv ∧
      slots (state (whole atomic) [0x5A] (List.replicate 32 0)).pixlen.toNat <
        (pack 8 (frame (whole atomic).magic (penc 0 (state (whole atomic) [0x5A] (List.replicate 32 0)).operand))).length ∧
      (state (whole atomic) [0x5A] (List.replicate 32 0)).params.atomic = atomic) ∧
    ((tooLong tight).Inv ∧ (tooLong tight).params.inmax < (tooLong tight).inlen.toNat) ∧
    ∃ t, exec .inject (state (whole true) [0x5A] (List.replicate 36 0)) = .next t :=
  ⟨⟨state_inv (by decide) (by decide) (by decide), by decide⟩,
    fun atomic => ⟨state_inv (by cases atomic <;> decide) (by simp [whole, params]) (by simp [whole, params]), by
      cases atomic <;> decide, rfl⟩,
    ⟨tooLong_inv, by decide⟩, _, rfl⟩

/-- The stream EXTRACT scans. -/
def stream (s : State) : List Byte := unpack s.params.B (xtract s.params.B s.pixels)

/-- ExtractRuns, one buffer for each outcome; N = 2. -/
theorem witness_ExtractRuns :
    ((state wholeNarrow [] (blues [1])).Inv ∧
      scan wholeNarrow.magic (stream (state wholeNarrow [] (blues [1]))) = .noPayloadFound) ∧
    ((state wholeNarrow [] (blues (magic ++ [0, 0, 0]))).Inv ∧
      scan wholeNarrow.magic (stream (state wholeNarrow [] (blues (magic ++ [0, 0, 0])))) = .truncatedHeader 0) ∧
    ((state wholeNarrow [] (blues (magic ++ [0, 0, 0, 1]))).Inv ∧
      scan wholeNarrow.magic (stream (state wholeNarrow [] (blues (magic ++ [0, 0, 0, 1])))) = .payloadOverrun 0 1) ∧
    ((state wholeNarrow [] (blues (magic ++ [0, 0, 0, 1, 7]))).Inv ∧ 1 < wholeNarrow.N ∧
      scan wholeNarrow.magic (stream (state wholeNarrow [] (blues (magic ++ [0, 0, 0, 1, 7])))) = .found 0 1 [7]) ∧
    ((state wholeNarrow [] (blues (magic ++ [0, 0, 0, 4, 7, 8, 9, 9]))).Inv ∧ wholeNarrow.outmax < 4 - wholeNarrow.N ∧
      scan wholeNarrow.magic (stream (state wholeNarrow [] (blues (magic ++ [0, 0, 0, 4, 7, 8, 9, 9])))) =
        .found 0 4 [7, 8, 9, 9]) ∧
    ((state wholeNarrow [] (blues (magic ++ [0, 0, 0, 3, 7, 9, 9]))).Inv ∧ wholeNarrow.N ≤ 3 ∧
      3 - wholeNarrow.N ≤ wholeNarrow.outmax ∧
      scan wholeNarrow.magic (stream (state wholeNarrow [] (blues (magic ++ [0, 0, 0, 3, 7, 9, 9])))) =
        .found 0 3 [7, 9, 9]) ∧
    ∃ t, exec .extract (state wholeNarrow [] (blues [1])) = .next t :=
  ⟨⟨state_inv (by decide) (by decide) (by decide), by decide⟩,
    ⟨state_inv (by decide) (by decide) (by decide), by decide⟩,
    ⟨state_inv (by decide) (by decide) (by decide), by decide⟩,
    ⟨state_inv (by decide) (by decide) (by decide), by decide⟩,
    ⟨state_inv (by decide) (by decide) (by decide), by decide⟩,
    ⟨state_inv (by decide) (by decide) (by decide), by decide⟩, _, rfl⟩

/-- FrameBitsArePlaced, by EMBED and by INJECT. -/
theorem witness_FrameBitsArePlaced :
    ((state tight [2, 3, 1, 0] (List.replicate 16 0)).Inv ∧
      (state tight [2, 3, 1, 0] (List.replicate 16 0)).operand = pack 2 [0xB4] ∧
      ∃ u, exec .embed (state tight [2, 3, 1, 0] (List.replicate 16 0)) = .next u ∧ u.err = .ok) ∧
    ((state (whole true) [0x5A] (List.replicate 36 0)).Inv ∧
      ∃ u, exec .inject (state (whole true) [0x5A] (List.replicate 36 0)) = .next u ∧ u.err = .ok) ∧
    0 < [(0xB4 : Byte)].length ∧ 3 < spb 2 :=
  ⟨⟨state_inv (by decide) (by decide) (by decide), by decide, _, rfl, by decide⟩,
    ⟨state_inv (by decide) (by decide) (by decide), _, rfl, by decide⟩, by decide⟩

/-- InjectSucceedsExactlyWhenItFits, on both sides of the boundary. -/
theorem witness_InjectSucceedsExactlyWhenItFits :
    ((state (whole true) [0x5A] (List.replicate 36 0)).Inv ∧ (8 + 1 + 0) * spb 8 = slots 36) ∧
    ((state (whole true) [0x5A] (List.replicate 32 0)).Inv ∧ slots 32 < (8 + 1 + 0) * spb 8) :=
  ⟨⟨state_inv (by decide) (by decide) (by decide), by decide⟩,
    ⟨state_inv (by decide) (by decide) (by decide), by decide⟩⟩

/-- InjectThenExtractGivesThePayload: an exact fit, and a state with the buffer INJECT left. -/
theorem witness_InjectThenExtractGivesThePayload :
    (state (whole true) [0x4F, 0x4B, 0x21] carrier).Inv ∧
    (8 + (state (whole true) [0x4F, 0x4B, 0x21] carrier).inlen.toNat + 0) * spb 8 ≤
      slots (state (whole true) [0x4F, 0x4B, 0x21] carrier).pixlen.toNat ∧
    (state (whole true) [0x4F, 0x4B, 0x21] carrier).inlen.toNat ≤ min (whole true).inmax (whole true).outmax ∧
    (state (whole true) [] carried).Inv ∧
    ∃ t, exec .inject (state (whole true) [0x4F, 0x4B, 0x21] carrier) = .next t ∧
      (state (whole true) [] carried).params = t.params ∧ (state (whole true) [] carried).pixlen = t.pixlen ∧
      (state (whole true) [] carried).pixMem = t.pixMem :=
  ⟨state_inv (by decide) (by decide) (by decide), by decide, by decide,
    state_inv (by decide) (by decide) (by decide), _, rfl, rfl, by decide, by decide⟩

/-- InjectIsItsPrimitives: every intermediate result fits, and one does not. -/
theorem witness_InjectIsItsPrimitives :
    (state (whole true) [0x5A] (List.replicate 36 0)).Inv ∧
    (state (whole true) [0x5A] (List.replicate 36 0)).busy = false ∧
    (8 + (state (whole true) [0x5A] (List.replicate 36 0)).inlen.toNat + 0) * spb 8 ≤
      min (whole true).inmax (whole true).outmax ∧
    (state tight [1] []).Inv ∧ (state tight [1] []).busy = false ∧ (state tight [1] []).inlen.toNat ≤ tight.inmax ∧
    min tight.inmax tight.outmax < (8 + (state tight [1] []).inlen.toNat + tight.N) * spb tight.B :=
  ⟨state_inv (by decide) (by decide) (by decide), by decide, by decide, state_inv (by decide) (by decide) (by decide),
    by decide⟩

theorem witness_ExtractIsItsPrimitives :
    (state (whole true) [] carried).Inv ∧ (state (whole true) [] carried).busy = false ∧
    slots (state (whole true) [] carried).pixlen.toNat ≤ min (whole true).inmax (whole true).outmax :=
  ⟨state_inv (by decide) (by decide) (by decide), by decide⟩

/-- EveryStepKeepsTheInvariant and BusyIsNeverSeenBetweenSteps: a step that runs an operation. -/
theorem witness_EveryStepKeepsTheInvariant :
    (state tight [1, 2] []).Inv ∧ (state tight [1, 2] []).busy = false ∧
    ∃ t, step ((state tight [1, 2] []).withFetchWord 32 0x01) = .next t ∧ t.busy = false :=
  ⟨state_inv (by decide) (by decide) (by decide), rfl, _, rfl, rfl⟩

theorem witness_TheInvariantHoldsAfterReset : tight.legal = true := by decide

theorem witness_OnlyBlueLowBitsChange :
    (state tight [1, 3] [0, 0, 0, 0, 0, 0, 0]).Inv ∧
    (∃ t, exec .embed (state tight [1, 3] [0, 0, 0, 0, 0, 0, 0]) = .next t) ∧
    (∃ t, exec .xtract (state tight [1, 3] [0, 0, 0, 0, 0, 0, 0]) = .next t) ∧ 3 % 4 ≠ 2 :=
  ⟨state_inv (by decide) (by decide) (by decide), ⟨_, rfl⟩, ⟨_, rfl⟩, by decide⟩

/-- ReadersSeeOnlyBlueLowBits: another carrier with the same low bits. -/
theorem witness_ReadersSeeOnlyBlueLowBits :
    ∀ k < slots (state tight [] [0, 0, 3, 0, 0, 0, 2]).pixlen.toNat,
      (State.byteAt { state tight [] [0, 0, 3, 0, 0, 0, 2] with
        pixMem := Memory.ofBytes .pix 0 [9, 9, 7, 9, 9, 9, 6] } .pix (slotAddr k)) &&& mask 2 =
        (state tight [] [0, 0, 3, 0, 0, 0, 2]).byteAt .pix (slotAddr k) &&& mask 2 := by
  decide

/-- BytesBeyondInlenHaveNoEffect: a byte at index `INLEN` differs. -/
theorem witness_BytesBeyondInlenHaveNoEffect :
    ∀ a < (state tight [1, 2] []).inlen.toNat,
      Memory.read [(0, 1), (1, 2), (2, 9)] a = Memory.read (state tight [1, 2] []).inMem a := by
  decide

theorem witness_OperandTooLongKeepsPixelsAndOperand :
    readsOperand .inject = true ∧ (tooLong tight).params.inmax < (tooLong tight).inlen.toNat ∧
    ∃ t, exec .xtract (state narrow [] [0, 0, 3, 0, 0, 0, 3]) = .next t ∧ t.err = .operandTooLong :=
  ⟨rfl, by decide, _, rfl, by decide⟩

/-- ScannerRegistersAreValidAsListed: valid, and not. -/
theorem witness_ScannerRegistersAreValidAsListed :
    (∃ t, exec .scan (state tight magic []) = .next t ∧ t.fposValid = true ∧ t.flenValid = false) ∧
    (∃ t, exec .extract (state (whole true) [] carried) = .next t ∧ t.fposValid = true ∧ t.flenValid = true) ∧
    State.reset.fposValid = false ∧ State.reset.flenValid = false :=
  ⟨⟨_, rfl, by decide⟩, ⟨_, rfl, by decide⟩, rfl, rfl⟩

theorem witness_OnlyIngestSetsIngested :
    (∃ t, exec .ingest (state tight [1] []) = .next t ∧ t.ingested = true ∧
      ∃ u, hostStep (.readReg 0x01) t = .next u) ∧
    ∃ t, hostStep (.reset tight) { State.reset with ingested := true } = .next t :=
  ⟨⟨_, rfl, rfl, _, rfl⟩, _, rfl⟩

/-- HostAccessesCompleteExactlyWhenAllowed: each access at the last index allowed and at the first refused, and while
`BUSY = 1`. -/
theorem witness_HostAccessesCompleteExactlyWhenAllowed :
    State.reset.allows (.readReg 0x10) ∧ ¬ State.reset.allows (.readReg 0x11) ∧
    State.reset.allows (.writeReg 0x10 0) ∧ ¬ State.reset.allows (.writeReg 0x11 0) ∧
    State.reset.allows (.readByte .pix 65535) ∧ ¬ State.reset.allows (.readByte .pix 65536) ∧
    State.reset.allows (.writeByte .inBuf 65535 0) ∧ ¬ State.reset.allows (.writeByte .inBuf 65536 0) ∧
    (State.resetWith tight).allows (.load (List.replicate 8 0)) ∧
    ¬ (State.resetWith tight).allows (.load (List.replicate 9 0)) ∧
    State.allows { State.resetWith tight with outlen := 9 } .move ∧
    ¬ State.allows { State.resetWith tight with busy := true } .move ∧
    State.reset.allows (.reset tight) ∧ ¬ State.reset.allows (.reset { tight with B := 3 }) ∧
    State.allows { State.reset with busy := true } (.readReg 0x01) ∧
    ¬ State.allows { State.reset with busy := true } (.readReg 0x02) := by
  simp [State.allows, State.reset, State.resetWith, State.capacity, Config.instanceParams, tight, params, Params.legal,
    Params.widthLegal, Params.registersFit, Params.lengthFits, Params.imageFits, wordMax]

theorem witness_HostWrites :
    (State.resetWith tight).busy = false ∧ (0x10 ≤ 0x10 ∧ 0x10 ≠ 0x00 ∧ 0x10 ≠ 0x03) ∧
    7 < (State.resetWith tight).params.outmax ∧ 15 < (State.resetWith tight).params.pixmax ∧
    7 < (State.resetWith tight).params.inmax ∧ (State.resetWith tight).inMem.wf .inBuf := by
  decide

/-- HostReadsChangeNothing: a register, an unspecified register, a byte shown and listed, one not shown, and `STATUS`
while `BUSY = 1`; the last byte shown of each buffer and the first that is not. -/
theorem witness_HostReadsChangeNothing :
    regOfNumber 0x10 = some .flen ∧ (state tight [1] [1, 2, 3]).flenValid = false ∧ regOfNumber 0x04 = some .outlen ∧
    (state tight [1] [1, 2, 3]).busy = false ∧ 2 < (state tight [1] [1, 2, 3]).shown .pix ∧
    0 < (state tight [1] [1, 2, 3]).shown .inBuf ∧ (Memory.read ((state tight [1] [1, 2, 3]).mem .inBuf) 0).isSome = true ∧
    7 < (state tight [1] [1, 2, 3]).capacity .outBuf ∧ ¬ 7 < (state tight [1] [1, 2, 3]).shown .outBuf ∧
    7 < tight.inmax ∧ tight.inmax ≤ 8 ∧ 2 < longResult.outlen.toNat ∧ longResult.outlen.toNat ≤ 3 ∧
    (state tight [1] [1, 2, 3]).pixlen.toNat ≤ 3 ∧ Memory.read (longResult.mem .outBuf) 2 = some 9 ∧
    Memory.read (longResult.mem .inBuf) 0 = none ∧ Memory.read (longResult.mem .pix) 0 = none ∧
    (state tight [1] [1, 2, 3]).pixelData = [1, 2, 3] := by
  decide

theorem witness_LoadAndMoveSetTheOperand :
    (state tight [1] []).Inv ∧ (state tight [1] []).busy = false ∧ (List.replicate 8 (0 : Byte)).length ≤ tight.inmax ∧
    (state tight [1] []).outlen.toNat ≤ tight.inmax ∧
    longResult.Inv ∧ longResult.busy = false ∧ longResult.params.inmax < longResult.outlen.toNat :=
  ⟨state_inv (by decide) (by decide) (by decide), by decide, by decide, by decide, longResult_inv, by decide⟩

/-- ResetLeavesTheTable: both sides of `PIXLEN`. -/
theorem witness_ResetLeavesTheTable :
    State.reset.busy = false ∧ tight.legal = true ∧ 7 < (State.resetWith tight).pixlen.toNat ∧
    tight.width * tight.height * 4 ≤ 8 := by
  decide

/-- InstancesAreLegal: each bound met with equality, and each broken by one. -/
theorem witness_InstancesAreLegal :
    Params.legal { tight with B := 8, inmax := 2 ^ 32 - 1, outmax := 2 ^ 32 - 1, pixmax := 2 ^ 32 - 1, N := 0 } = true ∧
    Params.legal { tight with pixmax := 8 } = true ∧ Params.legal { tight with pixmax := 7 } = false ∧
    Params.legal { tight with inmax := 2 ^ 32 - 5 } = true ∧ Params.legal { tight with inmax := 2 ^ 32 - 4 } = false ∧
    Params.legal { tight with width := 2 ^ 32, height := 0 } = false ∧ Params.legal { tight with B := 0 } = false ∧
    (State.resetWith tight).busy = false ∧ (0x0C : Nat) ∈ [0x0C, 0x0D, 0x0E] ∧ (0x0E : Nat) ∈ [0x0C, 0x0D, 0x0E] := by
  decide

theorem witness_ParameterRegistersRead :
    (state (params 8 16 true) [] []).Inv ∧ (state (params 8 16 true) [] []).params.magic = Config.defaultMagic ∧
    (state (params 8 16 true) [] []).busy = false ∧ (0x0B : Nat) ∈ [0x06, 0x07, 0x08, 0x09, 0x0A, 0x0B] ∧
    ∃ t, exec .pack (state (params 8 16 true) [] []) = .next t :=
  ⟨state_inv (by decide) (by decide) (by decide), by decide, by decide, by decide, _, rfl⟩

/-- PackSequencerAgrees, UnpackSequencerAgrees, ParitySequencersAgree and FrameSequencersAgree: operands and results that
fit, at the boundary for PDEC (`INLEN = N`) and FRAME (`8 + INLEN = OUTMAX`), and an operand that does not. -/
theorem witness_OperandSequencersAgree :
    ((state tight [1, 2] []).Inv ∧ (state tight [1, 2] []).inlen.toNat ≤ tight.inmax ∧
      (state tight [1, 2] []).inlen.toNat * spb tight.B = tight.outmax ∧
      (state tight [1, 2] []).inlen.toNat / spb tight.B ≤ tight.outmax ∧
      (state tight [1, 2] []).inlen.toNat + tight.N ≤ tight.outmax) ∧
    ((state tight [1, 2, 3, 4] []).Inv ∧ tight.N = (state tight [1, 2, 3, 4] []).inlen.toNat ∧
      (state tight [1, 2, 3, 4] []).inlen.toNat ≤ tight.inmax ∧
      (state tight [1, 2, 3, 4] []).inlen.toNat - tight.N ≤ tight.outmax) ∧
    ((state tight [] []).Inv ∧ (state tight [] []).inlen.toNat ≤ tight.inmax ∧
      8 + (state tight [] []).inlen.toNat = tight.outmax) ∧
    (tooLong tight).Inv :=
  ⟨⟨state_inv (by decide) (by decide) (by decide), by decide⟩, ⟨state_inv (by decide) (by decide) (by decide), by decide⟩,
    ⟨state_inv (by decide) (by decide) (by decide), by decide⟩, tooLong_inv⟩

/-- WriterSequencersAgree and ReaderSequencersAgree: an exact fit of a frame with `ATOMIC = 1`, a buffer too small with
`ATOMIC = 0`, and slots that fit OUT. -/
theorem witness_PixelSequencersAgree :
    ((state (whole true) [0x5A] (List.replicate 36 0)).Inv ∧
      (state (whole true) [0x5A] (List.replicate 36 0)).inlen.toNat ≤ (whole true).inmax ∧
      (8 + (state (whole true) [0x5A] (List.replicate 36 0)).inlen.toNat + (whole true).N) * spb (whole true).B =
        slots (state (whole true) [0x5A] (List.replicate 36 0)).pixlen.toNat ∧
      (state (whole true) [0x5A] (List.replicate 36 0)).inlen.toNat ≤
        slots (state (whole true) [0x5A] (List.replicate 36 0)).pixlen.toNat ∧
      (state (whole true) [0x5A] (List.replicate 36 0)).inlen.toNat ≤ (whole true).pixmax ∧
      slots (state (whole true) [0x5A] (List.replicate 36 0)).pixlen.toNat ≤ (whole true).outmax) ∧
    ((state (whole false) [0x5A] []).Inv ∧ (whole false).atomic = false ∧
      (state (whole false) [0x5A] []).inlen.toNat ≤ (whole false).inmax) :=
  ⟨⟨state_inv (by decide) (by decide) (by decide), by decide⟩, state_inv (by decide) (by decide) (by decide), by decide⟩

end Sys2Proof.Tests
end

/-! PROOFS. The state between two accesses (10_state.md): the case lists of an operation and of a host access with the
bounds the invariant needs, what the registers read, and the statements about the state as a whole. -/

namespace Sys2Proof.Machine

/-! ### The ends of an operation keep the invariant -/

theorem State.Inv.startOp {s : State} (h : s.Inv) : s.startOp.Inv := { h with }

theorem State.Inv.raise {s : State} (h : s.Inv) (e : ErrCode) : (s.raise e).Inv :=
  { h with
    outWf := Memory.nil_wf _
    outBound := by simp
    outFits := Nat.zero_le _
    outListed := by simp
    errEmpty := fun _ => rfl
    flenFpos := id }

theorem State.Inv.complete {s : State} (h : s.Inv) {r : List Byte} (hr : r.length ≤ s.params.outmax) :
    (s.complete r).Inv := by
  have hlen : (s.complete r).outlen.toNat ≤ r.length := Nat.mod_le r.length (2 ^ 32)
  exact
    { h with
      outWf := Memory.store_wf h.outWf 0 r
      outBound := Memory.store_bound h.outBound (by simpa using hr)
      outFits := hlen.trans hr
      outListed := fun i hi => by
        rw [State.complete_read_inside s r h.outWf.1 (hi.trans_le hlen)]
        rfl
      errEmpty := fun he => absurd rfl he
      flenFpos := id }

theorem State.Inv.detected {s : State} (h : s.Inv) (m : Nat) (l : Option Nat) : (s.detected m l).Inv := by
  cases l with
  | none => exact { h with flenFpos := fun _ => rfl }
  | some l => exact { h with flenFpos := fun _ => rfl }

/-- A new pixel buffer within `PIXLEN`, and `PIXLEN` within `PIXMAX`. -/
theorem State.Inv.newPixels {s : State} (h : s.Inv) {X : List Byte} {n : Word} (hX : X.length ≤ n.toNat)
    (hn : n.toNat ≤ s.params.pixmax) (b : Bool) : ({ s.withPixels X with pixlen := n, ingested := b } : State).Inv :=
  { h with
    pixWf := Memory.ofBytes_wf .pix 0 X
    pixBound := fun c hc => by
      have hlt := (Memory.mem_ofBytes_bounds hc).2
      exact (Nat.zero_add X.length ▸ hlt).trans_le hX
    pixFits := hn }

/-- A buffer replaced by one of the same length, `PIXLEN` as it was. -/
theorem State.Inv.withPixels {s : State} (h : s.Inv) {X : List Byte} (hX : X.length ≤ s.pixlen.toNat) :
    (s.withPixels X).Inv := h.newPixels hX h.pixFits s.ingested

theorem State.Inv.writeSymbols {s : State} (h : s.Inv) (y : List Byte) : (s.writeSymbols y).Inv := by
  have embedded (z : List Byte) : (s.withPixels (embed s.params.B s.pixels z)).Inv :=
    h.withPixels (by rw [embed_length, State.pixels_length])
  rcases s.writeSymbols_cases y with hw | ⟨z, hw⟩ | ⟨z, hw⟩ <;> rw [hw]
  · exact h.raise _
  · exact (embedded z).raise _
  · exact (embedded z).complete (Nat.zero_le _)

/-- Storing bytes of IN below `INMAX`, whatever `INLEN` becomes. -/
theorem State.Inv.storeOperand {s : State} (h : s.Inv) {base : Nat} {bs : List Byte}
    (hfit : base + bs.length ≤ s.params.inmax) (n : Word) (k : Nat) :
    ({ s with inMem := Memory.store .inBuf s.inMem base bs, inlen := n, fresh := k } : State).Inv :=
  { h with
    inWf := Memory.store_wf h.inWf base bs
    inBound := Memory.store_bound h.inBound hfit }

theorem State.resetWith_inv {p : Params} (hp : p.legal = true) : (State.resetWith p).Inv where
  legal := hp
  inWf := Memory.nil_wf _
  outWf := Memory.nil_wf _
  pixWf := Memory.nil_wf _
  inBound := by simp [State.resetWith]
  outBound := by simp [State.resetWith]
  pixBound := by simp [State.resetWith]
  pixFits := by
    obtain ⟨-, -, -, -, -, -, -, himage⟩ := Params.legal_bounds hp
    exact (by simpa [State.resetWith] using Nat.mod_le _ _ : _ ≤ p.width * p.height * 4).trans himage
  outFits := Nat.zero_le _
  outListed := by simp [State.resetWith]
  errEmpty := fun _ => rfl
  flenFpos := id

/-! ### How an operation ends -/

/-- The ends of an operation with the code of each and the bounds its tests have established: `ExecShape` says which
fields an end writes, this says when it is reached. -/
inductive ExecEnd (i : Instr) (s t : State) : Prop where
  /-- One of the tests of R149 failed. -/
  | tooLong (h : t = s.raise .operandTooLong)
  /-- PDEC of fewer than `N` bytes. -/
  | tooShort (hi : i = .pdec) (h : t = s.raise .tooShort)
  /-- The scanner found no MAGIC. -/
  | noPayload (hi : i = .scan ∨ i = .extract) (h : t = s.raise .noPayloadFound)
  /-- The scanner found MAGIC and no LENGTH field. -/
  | truncated (hi : i = .scan ∨ i = .extract) (m : Nat) (h : t = (s.raise .truncatedHeader).detected m none)
  /-- The scanner read a LENGTH field, and the payload does not hold. -/
  | damaged (hi : i = .scan ∨ i = .extract) (e : ErrCode) (he : e = .payloadOverrun ∨ e = .tooShort) (m l : Nat)
      (h : t = (s.raise e).detected m (some l))
  /-- The scanner found a payload. -/
  | found (hi : i = .scan ∨ i = .extract) (r : List Byte) (hr : r.length ≤ s.params.outmax) (m l : Nat)
      (h : t = (s.complete r).detected m (some l))
  /-- A result. -/
  | returned (hscan : i ≠ .scan) (hextract : i ≠ .extract) (hingest : i ≠ .ingest) (r : List Byte)
      (hr : r.length ≤ s.params.outmax) (h : t = s.complete r)
  /-- A new pixel buffer. -/
  | ingested (hi : i = .ingest) (hfit : s.inlen.toNat ≤ s.params.pixmax)
      (h : t = ({ s.withPixels s.operand with pixlen := s.inlen, ingested := true } : State).complete [])
  /-- The writer. -/
  | written (hi : i = .embed ∨ i = .inject) (y : List Byte) (h : t = s.writeSymbols y)

/-- A test of R149 before an outcome `o`. -/
theorem ExecEnd.of_test {i : Instr} {s t : State} {c : Prop} [Decidable c] {o : Host.Outcome State Fault Refusal}
    (ho : ¬ c → o = .next t → ExecEnd i s t)
    (h : (if c then .next (s.raise .operandTooLong) else o) = .next t) : ExecEnd i s t := by
  split at h
  · cases h; exact .tooLong rfl
  · rename_i hc
    exact ho hc h

/-- The test of the operand (R149a) before an outcome `o`. -/
theorem ExecEnd.of_operandTest {i : Instr} {s t : State} {o : Host.Outcome State Fault Refusal}
    (ho : o = .next t → ExecEnd i s t)
    (h : (if s.operandTooLong then .next (s.raise .operandTooLong) else o) = .next t) : ExecEnd i s t :=
  .of_test (fun _ => ho) h

/-- The test of the result (R149b) before an end `u`. -/
theorem ExecEnd.of_resultTest {i : Instr} {s t u : State} {n : Nat} (hu : n ≤ s.params.outmax → ExecEnd i s u)
    (h : (if s.resultTooLong n then .next (s.raise .operandTooLong) else .next u : Host.Outcome State Fault Refusal) =
      .next t) : ExecEnd i s t := by
  refine .of_test (fun hn hut => ?_) h
  cases hut
  exact hu (Nat.not_lt.mp fun hlt => hn ((s.resultTooLong_iff n).mpr hlt))

/-- The payload that `scan` finds is as long as its LENGTH field says. -/
theorem scan_found_length {g : Magic} {s e : List Byte} {m l : Nat} (h : scan g s = .found m l e) : e.length = l := by
  simp only [scan] at h
  split at h
  · cases h
  · split at h
    · cases h
    · split at h
      · cases h
      · cases h
        simp only [List.length_take, List.length_drop]
        omega

/-- `pdec` takes `N` bytes off. -/
theorem pdec_some_length {N : Nat} {d p : List Byte} (h : pdec N d = some p) : p.length = d.length - N := by
  unfold pdec at h
  split at h
  · cases h
  · cases h
    simp

theorem exec_end {i : Instr} {s t : State} (h : exec i s = .next t) : ExecEnd i s t := by
  cases i
  case pack =>
    refine .of_operandTest (.of_resultTest fun hn => ?_) h
    exact .returned (by simp) (by simp) (by simp) _ (by rwa [pack_length, State.operand_length]) rfl
  case unpack =>
    refine .of_operandTest (.of_resultTest fun hn => ?_) h
    exact .returned (by simp) (by simp) (by simp) _ (by rwa [unpack_length, State.operand_length]) rfl
  case penc =>
    refine .of_operandTest (.of_resultTest fun hn => ?_) h
    exact .returned (by simp) (by simp) (by simp) _ (by rwa [penc_length, State.operand_length]) rfl
  case frame =>
    refine .of_operandTest (.of_resultTest fun hn => ?_) h
    exact .returned (by simp) (by simp) (by simp) _ (by rwa [frame_length, State.operand_length]) rfl
  case pdec =>
    refine .of_operandTest (fun h => ?_) h
    split at h
    · cases h; exact .tooShort rfl rfl
    · rename_i p hp
      refine .of_resultTest (fun hn => ?_) h
      exact .returned (by simp) (by simp) (by simp) p (by rwa [pdec_some_length hp, State.operand_length]) rfl
  case scan =>
    refine .of_operandTest (fun h => ?_) h
    split at h
    · cases h; exact .noPayload (.inl rfl) rfl
    · cases h; exact .truncated (.inl rfl) _ rfl
    · cases h; exact .damaged (.inl rfl) _ (.inl rfl) _ _ rfl
    · rename_i hfound
      refine .of_resultTest (fun hn => ?_) h
      exact .found (.inl rfl) _ (by rwa [scan_found_length hfound]) _ _ rfl
  case ingest =>
    refine .of_operandTest (.of_test fun hfit h => ?_) h
    cases h
    exact .ingested rfl (Nat.not_lt.mp hfit) rfl
  case embed =>
    refine .of_operandTest (fun h => ?_) h
    cases h
    exact .written (.inl rfl) _ rfl
  case xtract =>
    refine .of_resultTest (fun hn => ?_) h
    exact .returned (by simp) (by simp) (by simp) _ (by rwa [xtract_length, State.pixels_length]) rfl
  case inject =>
    refine .of_operandTest (fun h => ?_) h
    cases h
    exact .written (.inr rfl) _ rfl
  case extract =>
    simp only [exec, execExtract] at h
    split at h
    · cases h; exact .noPayload (.inr rfl) rfl
    · cases h; exact .truncated (.inr rfl) _ rfl
    · cases h; exact .damaged (.inr rfl) _ (.inl rfl) _ _ rfl
    · rename_i hfound
      split at h
      · cases h; exact .damaged (.inr rfl) _ (.inr rfl) _ _ rfl
      · rename_i p hp
        refine .of_resultTest (fun hn => ?_) h
        exact .found (.inr rfl) p (by rwa [pdec_some_length hp, scan_found_length hfound]) _ _ rfl

theorem exec_inv {i : Instr} {s t : State} (hs : s.Inv) (h : exec i s = .next t) : t.Inv := by
  cases exec_end h with
  | tooLong h => exact h ▸ hs.raise _
  | tooShort _ h => exact h ▸ hs.raise _
  | noPayload _ h => exact h ▸ hs.raise _
  | truncated _ m h => exact h ▸ (hs.raise _).detected m _
  | damaged _ e _ m l h => exact h ▸ (hs.raise e).detected m _
  | found _ r hr m l h => exact h ▸ (hs.complete hr).detected m _
  | returned _ _ _ r hr h => exact h ▸ hs.complete hr
  | ingested _ hfit h =>
    exact h ▸ (hs.newPixels (le_of_eq s.operand_length) hfit true).complete (Nat.zero_le _)
  | written _ y h => exact h ▸ hs.writeSymbols y

/-! ### What an access of the host can do -/

/-- The state that reset leaves: that of R38, with the host's own fields as they were. -/
def State.afterReset (s : State) (p : Params) : State :=
  { State.resetWith p with pending := s.pending, readData := s.readData, fresh := s.fresh }

theorem hostStep_reset (s : State) (p : Params) :
    hostStep (.reset p) s =
      if s.busy then .refused .resetWhileBusy
      else if p.legal then .next (s.afterReset p) else .refused .instanceIllegal := rfl

/-- Reset answers a next state while `BUSY = 0` and for legal parameters only. -/
theorem hostStep_reset_eq_next {s t : State} {p : Params} :
    hostStep (.reset p) s = .next t ↔ s.busy = false ∧ p.legal = true ∧ s.afterReset p = t := by
  rw [hostStep_reset]
  cases s.busy <;> cases p.legal <;> simp

/-- What a host access that answers a next state has done. -/
inductive HostShape (a : HostAction) (s t : State) : Prop where
  /-- A write of what the host cannot write. -/
  | kept (h : t = s)
  /-- A read. -/
  | read (d : ReadData) (h : t = { s with readData := d, fresh := s.fresh + 1 })
  /-- A write of `INLEN`. -/
  | inlenWritten (v : Word) (h : t = { s with inlen := v })
  /-- A write of bytes of IN, `LOAD` and `MOVE` among them. -/
  | operandWritten (base : Nat) (bs : List Byte) (n : Word) (k : Nat) (hfit : base + bs.length ≤ s.params.inmax)
      (h : t = { s with inMem := Memory.store .inBuf s.inMem base bs, inlen := n, fresh := k })
  /-- A command that selects an operation. -/
  | command (i : Instr) (h : exec i s.startOp = .next t)
  /-- A reserved command word. -/
  | reserved (h : t = s.startOp.raise .illegalCommand)
  /-- A reset. -/
  | reset (p : Params) (ha : a = .reset p) (hp : p.legal = true) (h : t = s.afterReset p)

theorem hostWriteReg_shape {n : Nat} {v : Word} {s t : State} (h : hostStep (.writeReg n v) s = .next t) :
    HostShape (.writeReg n v) s t := by
  simp only [hostStep, hostWriteReg] at h
  split at h
  · cases h
  · split at h
    · cases h
    · split at h
      · cases hd : decode v with
        | ok i => exact .command i (writeCmd_decoded hd s ▸ h)
        | error e =>
          rw [writeCmd_reserved hd] at h
          cases h
          exact .reserved rfl
      · cases h; exact .inlenWritten v rfl
      · cases h; exact .kept rfl

theorem hostWriteByte_shape {sp : Space} {j : Nat} {b : Byte} {s t : State}
    (h : hostStep (.writeByte sp j b) s = .next t) : HostShape (.writeByte sp j b) s t := by
  simp only [hostStep, hostWriteByte] at h
  split at h
  · cases h
  · split at h
    · cases h
    · rename_i hj
      cases sp with
      | inBuf => cases h; exact .operandWritten j [b] s.inlen s.fresh (Nat.not_le.mp hj) rfl
      | outBuf => cases h; exact .kept rfl
      | pix => cases h; exact .kept rfl

theorem hostStep_shape {a : HostAction} {s t : State} (h : hostStep a s = .next t) : HostShape a s t := by
  cases a
  case readReg n =>
    simp only [hostStep, hostReadReg] at h
    split at h
    · cases h
    · split at h <;> cases h
      exact .read _ rfl
  case writeReg n v => exact hostWriteReg_shape h
  case readByte sp j =>
    simp only [hostStep, hostReadByte] at h
    split at h
    · cases h
    · split at h <;> cases h
      exact .read _ rfl
  case writeByte sp j b => exact hostWriteByte_shape h
  case load bs =>
    simp only [hostStep, hostLoad] at h
    split at h
    · cases h
    · split at h <;> cases h
      rename_i hfit
      exact .operandWritten 0 bs _ s.fresh (by omega) rfl
  case move =>
    simp only [hostStep, hostMove] at h
    split at h <;> cases h
    exact .operandWritten 0 (s.result.take s.params.inmax) _ _ (by simp) rfl
  case reset p =>
    obtain ⟨-, hp, ht⟩ := hostStep_reset_eq_next.mp h
    exact .reset p rfl hp ht.symm

theorem hostStep_inv {a : HostAction} {s t : State} (hs : s.Inv) (h : hostStep a s = .next t) : t.Inv := by
  cases hostStep_shape h with
  | kept h => exact h ▸ hs
  | read d h => exact h ▸ { hs with }
  | inlenWritten v h => exact h ▸ { hs with }
  | operandWritten base bs n k hfit h => exact h ▸ hs.storeOperand hfit n k
  | command i h => exact exec_inv hs.startOp h
  | reserved h => exact h ▸ hs.startOp.raise _
  | reset p _ hp h => exact h ▸ { State.resetWith_inv hp with }

/-- What does not depend on the accesses to come, and is kept by each access, is kept by a step. -/
theorem step_keeps {P : State → Prop} (hpending : ∀ s rest, P s → P { s with pending := rest })
    (haccess : ∀ a s t, P s → hostStep a s = .next t → P t) {s t : State} (hs : P s) (h : step s = .next t) : P t := by
  unfold step at h
  split at h
  · cases h; exact hs
  · exact haccess _ _ t (hpending s _ hs) h

/-- Settles O37: each end of an operation keeps the invariant, hence each access, hence each step. -/
theorem everyStepKeepsTheInvariant : Obligations.EveryStepKeepsTheInvariant := by
  intro s t hs h
  exact step_keeps (P := State.Inv) (fun _ _ hs => { hs with }) (fun _ _ _ hs h => hostStep_inv hs h) hs h

/-- Settles O38: `PIXLEN` fits by R25, and the buffers of a reset state list nothing. -/
theorem theInvariantHoldsAfterReset : Obligations.TheInvariantHoldsAfterReset :=
  ⟨fun _ hp => State.resetWith_inv hp, State.resetWith_inv (by decide)⟩

/-! ### What an operation keeps -/

/-- The writer leaves the parameters and `INGESTED`, and is an end of an operation: `BUSY` is 0, `FPOS` and `FLEN` are not
valid. -/
theorem State.writeSymbols_frame (s : State) (y : List Byte) :
    (s.writeSymbols y).params = s.params ∧ (s.writeSymbols y).ingested = s.ingested ∧
      (s.writeSymbols y).busy = false ∧ (s.writeSymbols y).fposValid = false ∧
      (s.writeSymbols y).flenValid = false := by
  rcases s.writeSymbols_cases y with hw | ⟨z, hw⟩ | ⟨z, hw⟩ <;> rw [hw] <;> simp

/-- Every end of an operation leaves the parameters and clears `BUSY`. -/
theorem exec_frame {i : Instr} {s t : State} (h : exec i s = .next t) : t.params = s.params ∧ t.busy = false := by
  cases exec_shape h with
  | raised e ht => simp [ht]
  | raisedAt e m l ht => simp [ht]
  | returned r ht => simp [ht]
  | returnedAt r m l ht => simp [ht]
  | ingested _ ht => simp [ht]
  | written y ht =>
    obtain ⟨hparams, -, hidle, -⟩ := s.writeSymbols_frame y
    exact ht ▸ ⟨hparams, hidle⟩

theorem exec_params {i : Instr} {s t : State} (h : exec i s = .next t) : t.params = s.params := (exec_frame h).1

theorem exec_idle {i : Instr} {s t : State} (h : exec i s = .next t) : t.busy = false := (exec_frame h).2

theorem exec_ingested {i : Instr} {s t : State} (h : exec i s = .next t) :
    t.ingested = (s.ingested || (decide (i = .ingest) && decide (t.err = .ok))) := by
  cases exec_end h with
  | tooLong ht => simp [ht]
  | tooShort _ ht => simp [ht]
  | noPayload _ ht => simp [ht]
  | truncated _ m ht => simp [ht]
  | damaged hi e _ m l ht => rcases hi with rfl | rfl <;> simp [ht]
  | found hi r _ m l ht => rcases hi with rfl | rfl <;> simp [ht]
  | returned _ _ hi r _ ht => simp [ht, hi]
  | ingested hi _ ht => simp [ht, hi]
  | written hi y ht =>
    obtain ⟨-, hkept, -⟩ := s.writeSymbols_frame y
    rcases hi with rfl | rfl <;> simp [ht, hkept]

/-- R32's two lists, after every end of an operation. -/
theorem exec_scanValid {i : Instr} {s t : State} (h : exec i s = .next t) :
    (t.fposValid = true ↔ (i = .scan ∨ i = .extract) ∧
      t.err ∈ [ErrCode.ok, .truncatedHeader, .payloadOverrun, .tooShort]) ∧
    (t.flenValid = true ↔ (i = .scan ∨ i = .extract) ∧ t.err ∈ [ErrCode.ok, .payloadOverrun, .tooShort]) := by
  cases exec_end h with
  | tooLong ht => simp [ht]
  | tooShort hi ht => simp [ht, hi]
  | noPayload _ ht => simp [ht]
  | truncated hi m ht => simp [ht, hi]
  | damaged hi e he m l ht => rcases he with rfl | rfl <;> simp [ht, hi]
  | found hi r _ m l ht => simp [ht, hi]
  | returned hscan hextract _ r _ ht => simp [ht, hscan, hextract]
  | ingested hi _ ht => simp [ht, hi]
  | written hi y ht =>
    obtain ⟨-, -, -, hfpos, hflen⟩ := s.writeSymbols_frame y
    rcases hi with rfl | rfl <;> simp [ht, hfpos, hflen]

theorem hostStep_idle {a : HostAction} {s t : State} (hb : s.busy = false) (h : hostStep a s = .next t) :
    t.busy = false := by
  cases hostStep_shape h with
  | kept h => rw [h, hb]
  | read d h => rw [h, hb]
  | inlenWritten v h => rw [h, hb]
  | operandWritten base bs n k _ h => rw [h, hb]
  | command i h => exact exec_idle h
  | reserved h => rw [h, State.raise_busy]
  | reset p _ _ h => rw [h]; rfl

/-- No access but reset clears `INGESTED`. -/
theorem hostStep_keeps_ingested {a : HostAction} {s t : State} (h : hostStep a s = .next t) (ha : ∀ p, a ≠ .reset p)
    (hs : s.ingested = true) : t.ingested = true := by
  cases hostStep_shape h with
  | kept h => rw [h, hs]
  | read d h => rw [h, hs]
  | inlenWritten v h => rw [h, hs]
  | operandWritten base bs n k _ h => rw [h, hs]
  | command i h => rw [exec_ingested h, State.startOp_ingested, hs, Bool.true_or]
  | reserved h => rw [h, State.raise_ingested, State.startOp_ingested, hs]
  | reset p hp => exact absurd hp (ha p)

/-- Settles O39: every operation ends with `BUSY = 0`, and no other access sets it. -/
theorem busyIsNeverSeenBetweenSteps : Obligations.BusyIsNeverSeenBetweenSteps := by
  intro s t hs h
  exact step_keeps (P := fun s => s.busy = false) (fun _ _ hs => hs) (fun _ _ _ hs h => hostStep_idle hs h) hs h

/-- Settles O45, by the ends of an operation: SCAN and EXTRACT alone write the two registers. -/
theorem scannerRegistersAreValidAsListed : Obligations.ScannerRegistersAreValidAsListed := by
  refine ⟨fun i s t h => exec_scanValid h, fun s => ⟨rfl, rfl, ?_, ?_, ?_, ?_⟩⟩ <;>
    · intro hv
      simp [State.regValue, hv]

/-- Settles O46, by the ends of an operation and by what an access of the host can do. -/
theorem onlyIngestSetsIngested : Obligations.OnlyIngestSetsIngested := by
  refine ⟨fun i s t h => exec_ingested h, fun a s t h ha hs => hostStep_keeps_ingested h ha hs, fun p s t h => ?_⟩
  obtain ⟨-, -, rfl⟩ := hostStep_reset_eq_next.mp h
  rfl

/-! ### IN at and above `INLEN` -/

/-- The state with other contents of IN. -/
def State.withIn (s : State) (X : Memory) : State := { s with inMem := X }

@[simp] theorem State.withIn_params (s : State) (X : Memory) : (s.withIn X).params = s.params := rfl
@[simp] theorem State.withIn_pixels (s : State) (X : Memory) : (s.withIn X).pixels = s.pixels := rfl
@[simp] theorem State.withIn_detected (s : State) (X : Memory) (m : Nat) (l : Option Nat) :
    (s.withIn X).detected m l = (s.detected m l).withIn X := by
  cases l <;> rfl

@[simp] theorem State.withIn_writeSymbols (s : State) (X : Memory) (y : List Byte) :
    (s.withIn X).writeSymbols y = (s.writeSymbols y).withIn X := by
  rcases le_or_gt y.length (slots s.pixlen.toNat) with hfit | hover
  · rw [s.writeSymbols_fits hfit, (s.withIn X).writeSymbols_fits hfit]
    rfl
  · cases hatomic : s.params.atomic
    · rw [s.writeSymbols_partial hover hatomic, (s.withIn X).writeSymbols_partial hover hatomic]
      rfl
    · rw [s.writeSymbols_atomic hover hatomic, (s.withIn X).writeSymbols_atomic hover hatomic]
      rfl

/-- The operand is `IN[0..INLEN)`: two contents of IN that agree there give one operand. -/
theorem State.withIn_operand {s : State} {X : Memory}
    (h : ∀ a < s.inlen.toNat, Memory.read X a = Memory.read s.inMem a) : (s.withIn X).operand = s.operand := by
  simp only [State.operand, State.withIn, Memory.range_eq_map]
  refine List.map_congr_left fun a ha => ?_
  rw [h a (by simpa using List.mem_range'_1.mp ha)]

/-- Two outcomes are the next states that differ in the contents `X` of IN only. -/
def NextWithIn (X : Memory) (o o' : Host.Outcome State Fault Refusal) : Prop :=
  ∃ t, o = .next t ∧ o' = .next (t.withIn X)

theorem NextWithIn.raise (s : State) (X : Memory) (e : ErrCode) :
    NextWithIn X (.next (s.raise e)) (.next ((s.withIn X).raise e)) := ⟨_, rfl, rfl⟩

theorem NextWithIn.complete (s : State) (X : Memory) {r r' : List Byte} (hr : r' = r) :
    NextWithIn X (.next (s.complete r)) (.next ((s.withIn X).complete r')) := ⟨_, rfl, hr ▸ rfl⟩

theorem NextWithIn.writeSymbols (s : State) (X : Memory) {y y' : List Byte} (hy : y' = y) :
    NextWithIn X (.next (s.writeSymbols y)) (.next ((s.withIn X).writeSymbols y')) :=
  ⟨_, rfl, by rw [hy, State.withIn_writeSymbols]⟩

theorem NextWithIn.detected {X : Memory} {t t' : State} (h : NextWithIn X (.next t) (.next t')) (m : Nat)
    (l : Option Nat) : NextWithIn X (.next (t.detected m l)) (.next (t'.detected m l)) := by
  obtain ⟨_, ht, ht'⟩ := h
  cases ht
  cases ht'
  exact ⟨_, rfl, by rw [State.withIn_detected]⟩

/-- A test of R149 does not depend on what IN holds: it fails from both states, or neither. -/
theorem NextWithIn.test {s : State} {X : Memory} {c : Prop} [Decidable c] {o o' : Host.Outcome State Fault Refusal}
    (h : NextWithIn X o o') :
    NextWithIn X (if c then .next (s.raise .operandTooLong) else o)
      (if c then .next ((s.withIn X).raise .operandTooLong) else o') := by
  split
  · exact .raise ..
  · exact h

/-- An operation takes from IN the operand only. -/
theorem exec_withIn (i : Instr) {s : State} {X : Memory} (h : (s.withIn X).operand = s.operand) :
    NextWithIn X (exec i s) (exec i (s.withIn X)) := by
  cases i
  case pack => exact .test (.test (.complete s X (congrArg (pack s.params.B) h)))
  case unpack => exact .test (.test (.complete s X (congrArg (unpack s.params.B) h)))
  case penc => exact .test (.test (.complete s X (congrArg (penc s.params.N) h)))
  case frame => exact .test (.test (.complete s X (congrArg (frame s.params.magic) h)))
  case pdec =>
    refine .test ?_
    rw [h, State.withIn_params]
    cases pdec s.params.N s.operand with
    | none => exact .raise ..
    | some p => exact .test (.complete s X rfl)
  case scan =>
    refine .test ?_
    rw [h, State.withIn_params]
    cases scan s.params.magic s.operand with
    | noPayloadFound => exact .raise ..
    | truncatedHeader m => exact .detected (.raise ..) m none
    | payloadOverrun m l => exact .detected (.raise ..) m (some l)
    | found m l e => exact .test (.detected (.complete s X rfl) m (some l))
  case ingest =>
    refine .test (.test ?_)
    rw [h]
    exact ⟨_, rfl, rfl⟩
  case embed => exact .test (.writeSymbols s X h)
  case inject => exact .test (.writeSymbols s X (congrArg (injectSymbols s.params) h))
  case xtract => exact .test (.complete s X rfl)
  case extract =>
    simp only [exec, execExtract, State.withIn_params, State.withIn_pixels]
    cases scan s.params.magic (extractStream s.params s.pixels) with
    | noPayloadFound => exact .raise ..
    | truncatedHeader m => exact .detected (.raise ..) m none
    | payloadOverrun m l => exact .detected (.raise ..) m (some l)
    | found m l e =>
      cases hp : pdec s.params.N e with
      | none => simp only [hp]; exact .detected (.raise ..) m (some l)
      | some p => simp only [hp]; exact .test (.detected (.complete s X rfl) m (some l))

/-- Settles O42: an operation reads IN through its operand only. -/
theorem bytesBeyondInlenHaveNoEffect : Obligations.BytesBeyondInlenHaveNoEffect :=
  fun i _ _ h => exec_withIn i (State.withIn_operand h)

/-! ### Issuing a command -/

/-- Settles O4: the access is a write to `CMD`, whose word selects the operation. -/
theorem stepRunsTheDecodedCommand : Obligations.StepRunsTheDecodedCommand := by
  intro s w i rest hb hpending hdecode
  have hidle : ({ s with pending := rest } : State).busy = false := hb
  calc step s = hostStep (.writeReg 0x00 w) { s with pending := rest } := by simp only [step, hpending]
    _ = writeCmd w { s with pending := rest } := hostStep_writeCmd hidle w
    _ = exec i { s with pending := rest, busy := true, hidden := Hidden.start s.params.N } :=
      writeCmd_decoded hdecode _

theorem decode_of_decodeTableWord {nbits w : Nat} {i : Instr} (h : decodeTableWord nbits w = some i) :
    decode (BitVec.ofNat 32 (w % 2 ^ nbits)) = .ok i := by
  unfold decodeTableWord at h
  split at h
  · rename_i hdecode
    rw [hdecode, Option.some.inj h]
  · cases h

/-- Settles O6: O4 for the access that `withFetchWord` puts in front. -/
theorem fetchWordRunsNext : Obligations.FetchWordRunsNext := fun s w i h =>
  stepRunsTheDecodedCommand (s.withFetchWord 32 w) _ i s.pending rfl rfl (decode_of_decodeTableWord h)

/-! ### The registers -/

/-- The host cannot write a register but `CMD` and `INLEN` (R41). -/
theorem hostStep_writeReg_readOnly {s : State} (hb : s.busy = false) {n : Nat} (hn : n ≤ 0x10) (hcmd : n ≠ 0)
    (hinlen : n ≠ 3) (v : Word) : hostStep (.writeReg n v) s = .next s := by
  obtain ⟨r, hr, hr0, hr3⟩ := regOfNumber_of_le hn
  simp only [hostStep, hostWriteReg, hr, hb]
  cases r
  case cmd => exact absurd (hr0.mp rfl) hcmd
  case inlen => exact absurd (hr3.mp rfl) hinlen
  all_goals rfl

theorem toNat_ofNat_wordMax {n : Nat} (h : n ≤ wordMax) : (BitVec.ofNat 32 n).toNat = n := by
  rw [BitVec.toNat_ofNat, Nat.mod_eq_of_lt (Nat.lt_of_le_pred (by decide) h)]

/-- The constraints of R25, written out. -/
theorem Params.legal_iff (p : Params) :
    p.legal = true ↔ (p.B = 1 ∨ p.B = 2 ∨ p.B = 4 ∨ p.B = 8) ∧
      p.inmax ≤ 2 ^ 32 - 1 ∧ p.outmax ≤ 2 ^ 32 - 1 ∧ p.pixmax ≤ 2 ^ 32 - 1 ∧
      p.width ≤ 2 ^ 32 - 1 ∧ p.height ≤ 2 ^ 32 - 1 ∧ p.N ≤ 2 ^ 32 - 1 ∧
      p.inmax + p.N ≤ 2 ^ 32 - 1 ∧ p.width * p.height * 4 ≤ p.pixmax := by
  simp only [Params.legal, Params.widthLegal, Params.registersFit, Params.lengthFits, Params.imageFits, wordMax,
    Bool.and_eq_true, Bool.or_eq_true, beq_iff_eq, decide_eq_true_eq, and_assoc, or_assoc]

/-- Settles O52: `Params.legal` is R25, and R25 makes each capacity fit its register. -/
theorem instancesAreLegal : Obligations.InstancesAreLegal := by
  refine ⟨fun p s hb => ⟨fun hp => ?_, fun hp => ?_⟩, fun s hs => ?_, fun s v hb n hn => ?_,
    fun i s t h => exec_params h⟩
  · exact ⟨_, hostStep_reset_eq_next.mpr ⟨hb, (Params.legal_iff p).mpr hp, rfl⟩, rfl⟩
  · have hillegal : ¬ p.legal = true := fun h => hp ((Params.legal_iff p).mp h)
    simp [hostStep_reset, hb, hillegal]
  · obtain ⟨hin, hout, hpix, -⟩ := Params.legal_bounds hs.legal
    exact ⟨rfl, toNat_ofNat_wordMax hin, rfl, toNat_ofNat_wordMax hout, rfl, toNat_ofNat_wordMax hpix⟩
  · simp only [List.mem_cons, List.not_mem_nil, or_false] at hn
    exact hostStep_writeReg_readOnly hb (by omega) (by omega) (by omega) v

theorem cfgBWord_toNat {B : Nat} (h : B ∈ [1, 2, 4, 8]) : (cfgBWord B).toNat = B := by
  simp only [List.mem_cons, List.not_mem_nil, or_false] at h
  rcases h with rfl | rfl | rfl | rfl <;> rfl

/-- The four fields of `CFG_MAGIC` (R21). -/
theorem cfgMagicWord_fields (g : Magic) :
    (cfgMagicWord g).extractLsb' 24 8 = g.m0 ∧ (cfgMagicWord g).extractLsb' 16 8 = g.m1 ∧
      (cfgMagicWord g).extractLsb' 8 8 = g.m2 ∧ (cfgMagicWord g).extractLsb' 0 8 = g.m3 := by
  refine ⟨?_, ?_, ?_, BitVec.extractLsb'_append_eq_right⟩
  all_goals rw [cfgMagicWord, BitVec.extractLsb'_append_eq_of_le (by decide)]
  · rw [BitVec.extractLsb'_append_eq_of_le (by decide)]
    exact BitVec.extractLsb'_append_eq_left
  · rw [BitVec.extractLsb'_append_eq_of_le (by decide)]
    exact BitVec.extractLsb'_append_eq_right
  · exact BitVec.extractLsb'_append_eq_right

/-- The bytes of `CFG_MAGIC`, most significant first, are those of MAGIC. -/
theorem be32_cfgMagicWord (g : Magic) : be32 (cfgMagicWord g) = g.bytes := by
  obtain ⟨h0, h1, h2, h3⟩ := cfgMagicWord_fields g
  rw [be32, Magic.bytes, h0, h1, h2, h3]

theorem cfgModeWord_fields (atomic : Bool) :
    (cfgModeWord atomic).getLsbD 0 = atomic ∧ (cfgModeWord atomic).extractLsb' 1 31 = 0 :=
  ⟨by cases atomic <;> rfl, BitVec.extractLsb'_append_eq_left⟩

theorem statusWord_fields : ∀ busy ingested : Bool, (statusWord busy ingested).getLsbD 0 = busy ∧
    (statusWord busy ingested).getLsbD 1 = ingested ∧ (statusWord busy ingested).extractLsb' 2 30 = 0 := by
  decide

/-- Settles O53: R25 makes each parameter fit its register, and the fields are those of the words put together. -/
theorem parameterRegistersRead : Obligations.ParameterRegistersRead := by
  refine ⟨fun s hs => ?_, fun p => rfl, fun s v hb n hn => ?_, fun i s t h => exec_params h⟩
  · obtain ⟨-, -, -, hwidth, hheight, hN, -⟩ := Params.legal_bounds hs.legal
    obtain ⟨h0, h1, h2, h3⟩ := cfgMagicWord_fields s.params.magic
    obtain ⟨hatomic, hzero⟩ := cfgModeWord_fields s.params.atomic
    have hmagic : (cfgMagicWord s.params.magic).toNat = ube32 s.params.magic.bytes := by
      rw [← be32_cfgMagicWord, ube32_be32]
    have hw : (s.regValue .width).toNat = s.params.width := toNat_ofNat_wordMax hwidth
    have hh : (s.regValue .height).toNat = s.params.height := toNat_ofNat_wordMax hheight
    refine ⟨rfl, cfgBWord_toNat (Params.legal_B hs.legal), BitVec.extractLsb'_append_eq_left,
      rfl, toNat_ofNat_wordMax hN, rfl, h0, h1, h2, h3, hmagic, fun hdefault => ?_,
      rfl, hw, rfl, hh, ?_, rfl, hatomic, hzero⟩
    · rw [State.regValue, hdefault]
      rfl
    · rw [hw, hh, State.dimensions]
  · simp only [List.mem_cons, List.not_mem_nil, or_false] at hn
    exact hostStep_writeReg_readOnly hb (by omega) (by omega) (by omega) v

/-- Settles O54, by the fields of `STATUS` and `ERR`. -/
theorem statusAndErrRead : Obligations.StatusAndErrRead := by
  refine ⟨rfl, rfl, rfl, rfl, rfl, rfl, fun s => ?_, rfl, rfl, rfl, rfl, rfl, rfl, rfl, rfl⟩
  obtain ⟨hbusy, hingested, hzero⟩ := statusWord_fields s.busy s.ingested
  exact ⟨rfl, hbusy, hingested, hzero, BitVec.extractLsb'_append_eq_right, BitVec.extractLsb'_append_eq_left,
    rfl, rfl, rfl⟩

/-! ### After reset -/

/-- A host read of a byte that the buffer does not list. -/
theorem State.hostByte_unlisted {s : State} {sp : Space} {i : Nat} (h : Memory.read (s.mem sp) i = none) :
    s.hostByte sp i = if i < s.shown sp then unlistedByte sp s.fresh i else Config.freeByte s.fresh i := by
  rw [State.hostByte, State.byteAt, h, Option.getD_none]

/-- Settles O51: nothing is listed after reset, so PIX reads zero below `PIXLEN` and every other byte is free. -/
theorem resetLeavesTheTable : Obligations.ResetLeavesTheTable := by
  intro s p hb hp
  obtain ⟨-, -, hpixmax, -, -, -, -, himage⟩ := Params.legal_bounds hp
  have hpixlen : (s.afterReset p).pixlen.toNat = p.width * p.height * 4 := toNat_ofNat_wordMax (himage.trans hpixmax)
  have hread (sp : Space) (i : Nat) : Memory.read ((s.afterReset p).mem sp) i = none := by cases sp <;> rfl
  have hstatus : statusWord false false = 0 := by decide
  have herr : errWord .ok = 0 := by decide
  refine ⟨_, hostStep_reset_eq_next.mpr ⟨hb, hp, rfl⟩, rfl, hstatus, rfl, rfl, herr, rfl, rfl, hpixlen,
    fun i hi => ?_, fun i hi => ?_, fun i => ?_, fun i => ?_, rfl, rfl⟩ <;>
    rw [State.hostByte_unlisted (hread _ i)]
  · exact if_pos hi
  · exact if_neg (Nat.not_lt.mpr (hpixlen.trans_le hi))
  · exact ite_self _
  · exact ite_self _

end Sys2Proof.Machine

/-! PROOFS. The buffers (20_memory.md): what the operations read and write of PIX, and what the host's accesses to the
registers and to the buffers answer. -/

namespace Sys2Proof.Machine

/-! ### PIX under the operations -/

/-- A written blue byte keeps its bits [7:B] (R61). -/
theorem embedByte_and_high (B : Nat) (x u : Byte) :
    embedByte B x u &&& (0xFF - mask B) = x &&& (0xFF - mask B) := by
  have hhigh : (0xFF : Byte) - mask B = ~~~ mask B := BitVec.allOnes_sub_eq_not (mask B)
  rw [embedByte, symbolOf, hhigh]
  ext j
  simp only [BitVec.getElem_and, BitVec.getElem_or, BitVec.getElem_not]
  cases x[j] <;> cases (mask B)[j] <;> simp

/-- A byte of the buffer after the writer: as it was, or a blue byte with a symbol in it. -/
theorem embed_getD_cases (B : Nat) (X y : List Byte) (a : Nat) :
    (embed B X y).getD a 0 = X.getD a 0 ∨
    a % 4 = 2 ∧ ∃ u, (embed B X y).getD a 0 = embedByte B (X.getD a 0) u := by
  induction X using quad_induction generalizing y a with
  | short X h => rw [embed_short h]; exact .inl rfl
  | three r g b =>
    cases y with
    | nil => exact .inl rfl
    | cons u y =>
      match a with
      | 0 | 1 | _ + 3 => exact .inl rfl
      | 2 => exact .inr ⟨rfl, u, rfl⟩
  | quad r g b a' X ih =>
    cases y with
    | nil => exact .inl rfl
    | cons u y =>
      match a with
      | 0 | 1 | 3 => exact .inl rfl
      | 2 => exact .inr ⟨rfl, u, rfl⟩
      | a + 4 =>
        rw [embed_quad, Nat.add_mod_right]
        exact ih y a

/-- A symbol the reader takes: the low `B` bits of the blue byte of its slot (R108). -/
theorem xtract_getD (B : Nat) (X : List Byte) {k : Nat} (h : k < slots X.length) :
    (xtract B X).getD k 0 = symbolOf B (X.getD (slotAddr k) 0) := by
  induction X using quad_induction generalizing k with
  | short X hX => simp only [slots] at h; omega
  | three r g b =>
    obtain rfl : k = 0 := by simp only [slots, List.length_cons, List.length_nil] at h; omega
    rfl
  | quad r g b a X ih =>
    cases k with
    | zero => rfl
    | succ k => exact ih (by simp only [slots, List.length_cons] at h ⊢; omega)

/-- Every slot of a buffer lies within it. -/
theorem slotAddr_lt {k n : Nat} (h : k < slots n) : slotAddr k < n := by
  simp only [slots] at h
  simp only [slotAddr]
  omega

/-- Nothing is held of PIX at or above `PIXLEN`: a byte of PIX is that of the buffer held, or 0. -/
theorem State.Inv.byteAt_pix {s : State} (h : s.Inv) (a : Nat) : s.byteAt .pix a = s.pixels.getD a 0 := by
  rcases Nat.lt_or_ge a s.pixlen.toNat with ha | ha
  · exact (s.pixels_getD 0 ha).symm
  · have hnone : Memory.read s.pixMem a = none := by
      rw [Option.eq_none_iff_forall_ne_some]
      intro b hb
      have := h.pixBound _ ((Memory.read_eq_some_iff h.pixWf.1 a b).mp hb)
      omega
    rw [List.getD_eq_default _ _ (by simpa using ha)]
    simp [State.byteAt, State.mem, hnone]

/-- A byte of PIX after the writer, whatever the symbols and however it ends. -/
theorem State.Inv.byteAt_writeSymbols {s : State} (h : s.Inv) (y : List Byte) (a : Nat) :
    (s.writeSymbols y).byteAt .pix a = s.byteAt .pix a ∨
    a % 4 = 2 ∧ ∃ u, (s.writeSymbols y).byteAt .pix a = embedByte s.params.B (s.byteAt .pix a) u := by
  have embedded (z : List Byte) :
      (s.withPixels (embed s.params.B s.pixels z)).byteAt .pix a = s.byteAt .pix a ∨
      a % 4 = 2 ∧ ∃ u, (s.withPixels (embed s.params.B s.pixels z)).byteAt .pix a =
        embedByte s.params.B (s.byteAt .pix a) u := by
    have hlen : (embed s.params.B s.pixels z).length = s.pixlen.toNat := by rw [embed_length, State.pixels_length]
    rw [(h.withPixels hlen.le).byteAt_pix, State.withPixels_pixels _ _ hlen, h.byteAt_pix]
    exact embed_getD_cases ..
  rcases s.writeSymbols_cases y with hw | ⟨z, hw⟩ | ⟨z, hw⟩ <;> rw [hw]
  · exact .inl rfl
  · exact embedded z
  · exact embedded z

theorem State.writeSymbols_pixlen (s : State) (y : List Byte) : (s.writeSymbols y).pixlen = s.pixlen := by
  rcases s.writeSymbols_cases y with hw | ⟨z, hw⟩ | ⟨z, hw⟩ <;> rw [hw] <;> rfl

theorem State.KeepsPixels.byteAt {s t : State} (h : s.KeepsPixels t) (a : Nat) : t.byteAt .pix a = s.byteAt .pix a :=
  congrArg (Option.getD · 0) (h.pixBytes a)

/-- An operation keeps the pixel buffer, or is INGEST, or is the writer (R49). -/
theorem exec_pixels {i : Instr} {s t : State} (h : exec i s = .next t) :
    s.KeepsPixels t ∨ i = .ingest ∨ (i = .embed ∨ i = .inject) ∧ ∃ y, t = s.writeSymbols y := by
  cases exec_shape h with
  | raised e ht => exact .inl (ht ▸ s.raise_keepsPixels e)
  | raisedAt e m l ht => exact .inl (ht ▸ (s.raise_keepsPixels e).detected m l)
  | returned r ht => exact .inl (ht ▸ s.complete_keepsPixels r)
  | returnedAt r m l ht => exact .inl (ht ▸ (s.complete_keepsPixels r).detected m l)
  | ingested hi => exact .inr (.inl hi)
  | written y ht hi => exact .inr (.inr ⟨hi, y, ht⟩)

/-- Settles O40: only the writer changes a byte of the buffer held, and that byte is a blue one with a symbol in it. -/
theorem onlyBlueLowBitsChange : Obligations.OnlyBlueLowBitsChange := by
  intro i s t hs hi h
  rcases exec_pixels h with hkept | hingest | ⟨hwriter, y, rfl⟩
  · have hbyte := hkept.byteAt
    exact ⟨hkept.pixlen, fun a _ => hbyte a, fun a => by rw [hbyte a], fun _ _ => hbyte⟩
  · exact absurd hingest hi
  · have hbyte := hs.byteAt_writeSymbols y
    refine ⟨s.writeSymbols_pixlen y, fun a ha => ?_, fun a => ?_, fun hembed hinject => ?_⟩
    · exact (hbyte a).resolve_right fun hblue => ha hblue.1
    · rcases hbyte a with hsame | ⟨-, u, hu⟩
      · rw [hsame]
      · rw [hu, embedByte_and_high]
    · exact absurd hwriter (not_or.mpr ⟨hembed, hinject⟩)

/-- Two buffers of one length that agree on the low `B` bits of every slot give the reader the same symbols. -/
theorem xtract_congr {B : Nat} {X Y : List Byte} (hlen : X.length = Y.length)
    (h : ∀ k < slots Y.length, symbolOf B (X.getD (slotAddr k) 0) = symbolOf B (Y.getD (slotAddr k) 0)) :
    xtract B X = xtract B Y := by
  refine List.ext_getElem (by rw [xtract_length, xtract_length, hlen]) fun k hX hY => ?_
  have hk : k < slots Y.length := xtract_length B Y ▸ hY
  calc (xtract B X)[k] = (xtract B X).getD k 0 := List.getElem_eq_getD 0
    _ = symbolOf B (X.getD (slotAddr k) 0) := xtract_getD B X (hlen ▸ hk)
    _ = symbolOf B (Y.getD (slotAddr k) 0) := h k hk
    _ = (xtract B Y).getD k 0 := (xtract_getD B Y hk).symm
    _ = (xtract B Y)[k] := (List.getElem_eq_getD 0).symm

/-- The state with other contents of PIX. -/
def State.withPix (s : State) (X : Memory) : State := { s with pixMem := X }

@[simp] theorem State.withPix_params (s : State) (X : Memory) : (s.withPix X).params = s.params := rfl
@[simp] theorem State.withPix_pixlen (s : State) (X : Memory) : (s.withPix X).pixlen = s.pixlen := rfl

/-- Contents of PIX that agree on the low `B` bits of every slot give the reader the same symbols. -/
theorem State.withPix_xtract {s : State} {X : Memory}
    (h : ∀ k < slots s.pixlen.toNat,
      (s.withPix X).byteAt .pix (slotAddr k) &&& mask s.params.B = s.byteAt .pix (slotAddr k) &&& mask s.params.B) :
    xtract s.params.B (s.withPix X).pixels = xtract s.params.B s.pixels := by
  refine xtract_congr (by simp) fun k hk => ?_
  rw [State.pixels_length] at hk
  rw [(s.withPix X).pixels_getD 0 (slotAddr_lt hk), s.pixels_getD 0 (slotAddr_lt hk)]
  exact h k hk

/-- XTRACT takes from PIX the symbols only. -/
theorem execXtract_withPix {s : State} {X : Memory}
    (h : xtract s.params.B (s.withPix X).pixels = xtract s.params.B s.pixels) :
    ∃ t, execXtract s = .next t ∧ execXtract (s.withPix X) = .next (t.withPix X) := by
  simp only [execXtract, State.withPix_params, h]
  cases hlong : s.resultTooLong (slots s.pixlen.toNat)
  · exact ⟨_, rfl, if_neg (ne_true_of_eq_false hlong)⟩
  · exact ⟨_, rfl, if_pos hlong⟩

/-- EXTRACT takes from PIX the symbols only. -/
theorem execExtract_withPix {s : State} {X : Memory}
    (h : xtract s.params.B (s.withPix X).pixels = xtract s.params.B s.pixels) :
    ∃ t, execExtract s = .next t ∧ execExtract (s.withPix X) = .next (t.withPix X) := by
  simp only [execExtract, extractStream, State.withPix_params, h]
  cases scan s.params.magic (unpack s.params.B (xtract s.params.B s.pixels)) with
  | noPayloadFound => exact ⟨_, rfl, rfl⟩
  | truncatedHeader m => exact ⟨_, rfl, rfl⟩
  | payloadOverrun m l => exact ⟨_, rfl, rfl⟩
  | found m l e =>
    cases hp : pdec s.params.N e with
    | none => simp only [hp]; exact ⟨_, rfl, rfl⟩
    | some p =>
      simp only [hp]
      cases hlong : s.resultTooLong (l - s.params.N)
      · exact ⟨_, rfl, if_neg (ne_true_of_eq_false hlong)⟩
      · exact ⟨_, rfl, if_pos hlong⟩

/-- Settles O41: both operations read PIX through the symbols of its slots only. -/
theorem readersSeeOnlyBlueLowBits : Obligations.ReadersSeeOnlyBlueLowBits := by
  intro i s X hi h
  have hsymbols : xtract s.params.B (s.withPix X).pixels = xtract s.params.B s.pixels := State.withPix_xtract h
  rcases hi with rfl | rfl
  · exact execXtract_withPix hsymbols
  · exact execExtract_withPix hsymbols

/-! ### The host's accesses complete exactly when allowed -/

/-- The outcome is a next state where `p` holds, and a refusal by name where it does not. -/
def CompletesExactlyWhen (p : Prop) (o : Host.Outcome State Fault Refusal) : Prop :=
  (p → ∃ t, o = .next t) ∧ (¬ p → ∃ r, o = .refused r ∧ ∀ m, r ≠ .notModelled m)

theorem CompletesExactlyWhen.next {p : Prop} (hp : p) (t : State) : CompletesExactlyWhen p (.next t) :=
  ⟨fun _ => ⟨t, rfl⟩, fun h => absurd hp h⟩

theorem CompletesExactlyWhen.refused {p : Prop} (hp : ¬ p) {r : Refusal} (hr : ∀ m, r ≠ .notModelled m) :
    CompletesExactlyWhen p (.refused r) :=
  ⟨fun h => absurd h hp, fun _ => ⟨r, rfl, hr⟩⟩

/-- A test `c` that refuses what `p` does not allow, before an outcome `o`. -/
theorem CompletesExactlyWhen.test {p c : Prop} [Decidable c] {o : Host.Outcome State Fault Refusal} {r : Refusal}
    (hr : ∀ m, r ≠ .notModelled m) (hc : c → ¬ p) (ho : ¬ c → CompletesExactlyWhen p o) :
    CompletesExactlyWhen p (if c then .refused r else o) := by
  split
  · rename_i h
    exact .refused (hc h) hr
  · rename_i h
    exact ho h

/-- While `BUSY = 1` only `STATUS` may be read (R41). -/
theorem State.allows_of_busy {s : State} (hb : s.busy = true) (a : HostAction) : s.allows a ↔ a = .readReg 0x01 := by
  simp [State.allows, hb]

/-- The test of `BUSY` before the outcome `o` of an access that is not a read of `STATUS`. -/
theorem CompletesExactlyWhen.busyTest {s : State} {a : HostAction} {o : Host.Outcome State Fault Refusal} {r : Refusal}
    (hr : ∀ m, r ≠ .notModelled m) (ha : a ≠ .readReg 0x01)
    (ho : s.busy = false → CompletesExactlyWhen (s.allows a) o) :
    CompletesExactlyWhen (s.allows a) (if s.busy then .refused r else o) :=
  .test hr (fun hb => mt (s.allows_of_busy hb a).mp ha) (fun hb => ho (eq_false_of_ne_true hb))

/-- Every operation answers a next state, from every state. -/
theorem exec_next (i : Instr) (s : State) : ∃ t, exec i s = .next t := by
  obtain ⟨t, ht, -⟩ := exec_withIn i (s := s) (X := s.inMem) rfl
  exact ⟨t, ht⟩

theorem writeCmd_next (w : Word) (s : State) : ∃ t, writeCmd w s = .next t := by
  cases hw : decode w with
  | ok i => exact writeCmd_decoded hw s ▸ exec_next i s.startOp
  | error e => exact ⟨_, writeCmd_reserved hw s⟩

theorem regOfNumber_eq_status_iff {n : Nat} : regOfNumber n = some .status ↔ n = 0x01 := by
  constructor
  · intro h
    unfold regOfNumber at h
    split at h <;> cases h
    rfl
  · rintro rfl
    rfl

/-- No access to a number above `0x10` is allowed. -/
theorem State.not_allows_of_gt {s : State} {n : Nat} (hn : 0x10 < n) :
    ¬ s.allows (.readReg n) ∧ ∀ v, ¬ s.allows (.writeReg n v) := by
  cases hb : s.busy <;> simp [State.allows, hb] <;> omega

theorem hostReadReg_completes (n : Nat) (s : State) :
    CompletesExactlyWhen (s.allows (.readReg n)) (hostReadReg n s) := by
  unfold hostReadReg
  rcases Nat.lt_or_ge 0x10 n with hn | hn
  · rw [regOfNumber_of_gt hn]
    exact .refused (State.not_allows_of_gt hn).1 nofun
  · obtain ⟨r, hr, -⟩ := regOfNumber_of_le hn
    have hstatus : r = .status ↔ n = 0x01 := by rw [← regOfNumber_eq_status_iff, hr, Option.some.injEq]
    rw [hr]
    refine .test nofun (fun hbusy => ?_) (fun hopen => .next ?_ _)
    · simp only [Bool.and_eq_true, bne_iff_ne] at hbusy
      obtain ⟨hb, hne⟩ := hbusy
      simpa [State.allows_of_busy hb] using mt hstatus.mpr hne
    · cases hb : s.busy
      · simpa [State.allows, hb] using hn
      · rw [State.allows_of_busy hb, hstatus.mp (by simpa [hb] using hopen)]

theorem hostWriteReg_completes (n : Nat) (v : Word) (s : State) :
    CompletesExactlyWhen (s.allows (.writeReg n v)) (hostWriteReg n v s) := by
  unfold hostWriteReg
  rcases Nat.lt_or_ge 0x10 n with hn | hn
  · rw [regOfNumber_of_gt hn]
    exact .refused ((State.not_allows_of_gt hn).2 v) nofun
  · obtain ⟨r, hr, -⟩ := regOfNumber_of_le hn
    rw [hr]
    refine .busyTest nofun nofun (fun hb => ?_)
    have hallowed : s.allows (.writeReg n v) := by simpa [State.allows, hb] using hn
    cases r
    case cmd =>
      obtain ⟨t, ht⟩ := writeCmd_next v s
      exact ht ▸ .next hallowed t
    all_goals exact .next hallowed _

theorem hostReadByte_completes (sp : Space) (i : Nat) (s : State) :
    CompletesExactlyWhen (s.allows (.readByte sp i)) (hostReadByte sp i s) := by
  refine .busyTest nofun nofun (fun hb => ?_)
  have hallows : s.allows (.readByte sp i) ↔ i < s.capacity sp := by simp [State.allows, hb]
  rw [hallows]
  exact .test nofun Nat.not_lt.mpr fun hi => .next (Nat.not_le.mp hi) _

theorem hostWriteByte_completes (sp : Space) (i : Nat) (b : Byte) (s : State) :
    CompletesExactlyWhen (s.allows (.writeByte sp i b)) (hostWriteByte sp i b s) := by
  refine .busyTest nofun nofun (fun hb => ?_)
  have hallows : s.allows (.writeByte sp i b) ↔ i < s.capacity sp := by simp [State.allows, hb]
  rw [hallows]
  refine .test nofun Nat.not_lt.mpr fun hi => ?_
  cases sp <;> exact .next (Nat.not_le.mp hi) _

theorem hostLoad_completes (bs : List Byte) (s : State) :
    CompletesExactlyWhen (s.allows (.load bs)) (hostLoad bs s) := by
  refine .busyTest nofun nofun (fun hb => ?_)
  have hallows : s.allows (.load bs) ↔ bs.length ≤ s.params.inmax := by simp [State.allows, hb]
  rw [hallows]
  exact .test nofun Nat.not_le.mpr fun hfit => .next (Nat.not_lt.mp hfit) _

theorem hostMove_completes (s : State) : CompletesExactlyWhen (s.allows .move) (hostMove s) :=
  .busyTest nofun nofun fun hb => .next (by simp [State.allows, hb]) _

theorem hostReset_completes (p : Params) (s : State) :
    CompletesExactlyWhen (s.allows (.reset p)) (hostReset p s) := by
  refine .busyTest nofun nofun (fun hb => ?_)
  have hallows : s.allows (.reset p) ↔ p.legal = true := by simp [State.allows, hb]
  rw [hallows]
  split
  · rename_i hp
    exact .next hp _
  · rename_i hp
    exact .refused hp nofun

theorem hostStep_completes (a : HostAction) (s : State) : CompletesExactlyWhen (s.allows a) (hostStep a s) := by
  cases a with
  | readReg n => exact hostReadReg_completes n s
  | writeReg n v => exact hostWriteReg_completes n v s
  | readByte sp i => exact hostReadByte_completes sp i s
  | writeByte sp i b => exact hostWriteByte_completes sp i b s
  | load bs => exact hostLoad_completes bs s
  | move => exact hostMove_completes s
  | reset p => exact hostReset_completes p s

/-- Settles O47, access by access: each test refuses what the model does not allow, and no test is left out. -/
theorem hostAccessesCompleteExactlyWhenAllowed : Obligations.HostAccessesCompleteExactlyWhenAllowed :=
  hostStep_completes

/-! ### What the host's writes do -/

theorem hostStep_writeInlen {s : State} (hb : s.busy = false) (v : Word) :
    hostStep (.writeReg 0x03 v) s = .next { s with inlen := v } := by
  simp [hostStep, hostWriteReg, regOfNumber, hb]

/-- The host cannot write OUT or PIX (R41). -/
theorem hostStep_writeByte_readOnly {s : State} (hb : s.busy = false) {sp : Space} (hsp : sp ≠ .inBuf) {i : Nat}
    (hi : i < s.capacity sp) (b : Byte) : hostStep (.writeByte sp i b) s = .next s := by
  simp only [hostStep, hostWriteByte, hb, Nat.not_le.mpr hi]
  cases sp
  case inBuf => exact absurd rfl hsp
  all_goals rfl

theorem hostStep_writeByte_inBuf {s : State} (hb : s.busy = false) {i : Nat} (hi : i < s.params.inmax) (b : Byte) :
    hostStep (.writeByte .inBuf i b) s = .next { s with inMem := Memory.store .inBuf s.inMem i [b] } := by
  simp [hostStep, hostWriteByte, hb, State.capacity, hi]

/-- Settles O48: the one byte stored is found at its index, and every other byte where it was. -/
theorem hostWrites : Obligations.HostWrites := by
  refine fun s hb => ⟨fun n v hn hcmd hinlen => hostStep_writeReg_readOnly hb hn hcmd hinlen v,
    fun i b hi => hostStep_writeByte_readOnly hb (sp := .outBuf) nofun hi b,
    fun i b hi => hostStep_writeByte_readOnly hb (sp := .pix) nofun hi b,
    hostStep_writeInlen hb, fun hwf i b hi => ⟨_, hostStep_writeByte_inBuf hb hi b, ?_, fun a ha => ?_⟩⟩
  · rw [Memory.read_store_inside_listed rfl hwf.1 le_rfl (by simp), Nat.sub_self]
    rfl
  · exact Memory.read_store_outside hwf.1 (by simp only [List.length_singleton]; omega)

/-! ### What the host's reads answer -/

/-- The state after a host read that returned `d`: the block is as it was (R50). -/
def State.afterRead (s : State) (d : ReadData) : State := { s with readData := d, fresh := s.fresh + 1 }

theorem hostStep_readReg {s : State} {n : Nat} {r : Reg} (hr : regOfNumber n = some r)
    (hopen : s.busy = false ∨ r = .status) :
    hostStep (.readReg n) s = .next (s.afterRead (.word (s.regValue r))) := by
  simp only [hostStep, hostReadReg, hr]
  refine if_neg ?_
  rcases hopen with hb | rfl
  · simp [hb]
  · simp

theorem hostStep_readByte {s : State} (hb : s.busy = false) {sp : Space} {i : Nat} (hi : i < s.capacity sp) :
    hostStep (.readByte sp i) s = .next (s.afterRead (.byte (s.hostByte sp i))) := by
  simp only [hostStep, hostReadByte]
  exact (if_neg (ne_true_of_eq_false hb)).trans (if_neg (Nat.not_le.mpr hi))

/-- A second read of a register returns the same, `FPOS` and `FLEN` while they are valid (R32). -/
theorem State.regValue_afterRead {s : State} {r : Reg} (hfpos : ¬ (r = .fpos ∧ s.fposValid = false))
    (hflen : ¬ (r = .flen ∧ s.flenValid = false)) (d : ReadData) : (s.afterRead d).regValue r = s.regValue r := by
  cases r
  case fpos =>
    have hvalid : s.fposValid = true := by simpa using hfpos
    simp only [State.regValue, State.afterRead, hvalid, if_true]
  case flen =>
    have hvalid : s.flenValid = true := by simpa using hflen
    simp only [State.regValue, State.afterRead, hvalid, if_true]
  all_goals rfl

theorem State.hostByte_shown {s : State} {sp : Space} {i : Nat} (h : i < s.shown sp) :
    s.hostByte sp i = s.byteAt sp i := if_pos h

theorem State.hostByte_hidden {s : State} {sp : Space} {i : Nat} (h : s.shown sp ≤ i) :
    s.hostByte sp i = Config.freeByte s.fresh i := if_neg (Nat.not_lt.mpr h)

theorem State.byteAt_listed {s : State} {sp : Space} {i : Nat} {b : Byte} (h : Memory.read (s.mem sp) i = some b) :
    s.byteAt sp i = b := by
  rw [State.byteAt, h, Option.getD_some]

theorem State.byteAt_unlisted {s : State} {sp : Space} {i : Nat} (h : Memory.read (s.mem sp) i = none) :
    s.byteAt sp i = if sp = .pix then 0 else Config.freeByte s.fresh i := by
  rw [State.byteAt, h, Option.getD_none]
  cases sp <;> rfl

/-- A read leaves every byte that is listed, and every byte of PIX. -/
theorem State.byteAt_afterRead {s : State} {sp : Space} {i : Nat}
    (h : sp = .pix ∨ (Memory.read (s.mem sp) i).isSome = true) (d : ReadData) :
    (s.afterRead d).byteAt sp i = s.byteAt sp i := by
  have hmem : (s.afterRead d).mem sp = s.mem sp := by cases sp <;> rfl
  rcases h with rfl | hlisted
  · rfl
  · obtain ⟨b, hb⟩ := Option.isSome_iff_exists.mp hlisted
    rw [State.byteAt_listed hb, State.byteAt_listed (hmem ▸ hb)]

/-- A second read of a byte that is shown and not a free value returns the same. -/
theorem State.hostByte_afterRead {s : State} {sp : Space} {i : Nat} (hi : i < s.shown sp)
    (h : sp = .pix ∨ (Memory.read (s.mem sp) i).isSome = true) (d : ReadData) :
    (s.afterRead d).hostByte sp i = s.hostByte sp i := by
  have hshown : (s.afterRead d).shown sp = s.shown sp := by cases sp <;> rfl
  rw [State.hostByte_shown hi, State.hostByte_shown (hshown ▸ hi), State.byteAt_afterRead h]

/-- Settles O49: a read draws a free value or finds what is held, and writes nothing but the model's own fields. -/
theorem hostReadsChangeNothing : Obligations.HostReadsChangeNothing := by
  refine ⟨fun s n r hr hopen => ?_, fun s sp i hb hi => ?_, fun s i => ?_, fun s sp i => ?_, fun s => ?_⟩
  · exact ⟨_, hostStep_readReg hr hopen, rfl, fun hfpos hflen => State.regValue_afterRead hfpos hflen _⟩
  · exact ⟨_, hostStep_readByte hb hi, rfl, fun hshown hheld => State.hostByte_afterRead hshown hheld _⟩
  · exact ⟨State.hostByte_shown (sp := .inBuf), State.hostByte_hidden (sp := .inBuf),
      State.hostByte_shown (sp := .outBuf), State.hostByte_hidden (sp := .outBuf),
      State.hostByte_shown (sp := .pix), State.hostByte_hidden (sp := .pix)⟩
  · exact ⟨fun b => State.byteAt_listed, State.byteAt_unlisted⟩
  · exact ⟨s.pixels_length, fun i hi => (s.pixels_getD 0 hi).trans (State.hostByte_shown hi).symm⟩

end Sys2Proof.Machine

/-! PROOFS. The command word (30_encoding.md): the decoder and the encoder as inverses of one another, a reserved word,
`LOAD` and `MOVE`, and where the writer puts the symbols of a frame. -/

namespace Sys2Proof.Machine

/-! ### The decoder and the encoder -/

/-- The table of R70, read in both directions. -/
theorem opInstr_eq_some_iff {op : Byte} {i : Instr} : opInstr op = some i ↔ op = instrOp i := by
  constructor
  · intro h
    unfold opInstr at h
    split at h <;> cases h
    all_goals exact BitVec.eq_of_toNat_eq ‹_›
  · rintro rfl
    cases i <;> rfl

/-- An `op` selects an operation exactly from `0x01` to `0x0B` (R72). -/
theorem opInstr_listed_iff (op : Byte) : (∃ i, opInstr op = some i) ↔ 0x01 ≤ op.toNat ∧ op.toNat ≤ 0x0B := by
  constructor
  · rintro ⟨i, h⟩
    rw [opInstr_eq_some_iff.mp h]
    cases i <;> decide
  · rintro ⟨hlow, hhigh⟩
    unfold opInstr
    interval_cases op.toNat <;> exact ⟨_, rfl⟩

/-- A word decodes where its bits [31:8] are 0 and its `op` selects an operation (R69, R70). -/
theorem decode_eq_ok_iff {w : Word} {i : Instr} :
    decode w = .ok i ↔ commandHigh w = 0 ∧ opInstr (commandOp w) = some i := by
  unfold decode
  by_cases hhigh : commandHigh w = 0
  · cases opInstr (commandOp w) <;> simp [hhigh]
  · rw [if_neg hhigh]
    exact ⟨nofun, fun h => absurd h.1 hhigh⟩

/-- The words that decode, by their two fields (R72). -/
theorem decode_listed_iff (w : Word) :
    (∃ i, decode w = .ok i) ↔ commandHigh w = 0 ∧ 0x01 ≤ (commandOp w).toNat ∧ (commandOp w).toNat ≤ 0x0B := by
  simp only [decode_eq_ok_iff, exists_and_left, opInstr_listed_iff]

/-- A command word is its two fields, bits [31:8] in front. -/
theorem commandHigh_append_commandOp (w : Word) : commandHigh w ++ commandOp w = w :=
  (BitVec.extractLsb'_append_extractLsb'_eq_extractLsb' rfl).trans BitVec.extractLsb'_eq_self

@[simp] theorem commandHigh_encode (i : Instr) : commandHigh (encode i) = 0 := BitVec.extractLsb'_append_eq_left

@[simp] theorem commandOp_encode (i : Instr) : commandOp (encode i) = instrOp i := BitVec.extractLsb'_append_eq_right

theorem decode_encode (i : Instr) : decode (encode i) = .ok i := by
  rw [decode_eq_ok_iff, commandHigh_encode, commandOp_encode, opInstr_eq_some_iff]
  exact ⟨rfl, rfl⟩

theorem encode_of_decode {w : Word} {i : Instr} (h : decode w = .ok i) : encode i = w := by
  obtain ⟨hhigh, hop⟩ := decode_eq_ok_iff.mp h
  calc encode i = (0 : BitVec 24) ++ instrOp i := rfl
    _ = commandHigh w ++ commandOp w := by rw [hhigh, opInstr_eq_some_iff.mp hop]
    _ = w := commandHigh_append_commandOp w

/-- The value of a word from those of its fields. -/
theorem command_toNat (w : Word) : w.toNat = (commandHigh w).toNat * 2 ^ 8 + (commandOp w).toNat := by
  simp only [commandHigh, commandOp, BitVec.extractLsb'_toNat, Nat.shiftRight_eq_div_pow]
  omega

/-- The words that decode, as numbers (R72). -/
theorem decode_listed_iff_toNat (w : Word) : (∃ i, decode w = .ok i) ↔ 0x01 ≤ w.toNat ∧ w.toNat ≤ 0x0B := by
  have hvalue := command_toNat w
  have hhigh : commandHigh w = 0 ↔ (commandHigh w).toNat = 0 := BitVec.toNat_inj.symm
  rw [decode_listed_iff, hhigh]
  omega

/-- Settles O2: a word is its two fields, and the table of R70 reads back in both directions. -/
theorem decodeAndEncodeAgree : Obligations.DecodeAndEncodeAgree :=
  ⟨fun i => ⟨decode_encode i, commandHigh_encode i⟩, fun _ _ => encode_of_decode, decode_listed_iff_toNat⟩

/-- Settles O1: each word of the table is the encoding of its operation. -/
theorem commandWordsDecodeAsListed : Obligations.CommandWordsDecodeAsListed :=
  ⟨decode_encode .pack, decode_encode .unpack, decode_encode .penc, decode_encode .pdec, decode_encode .frame,
    decode_encode .scan, decode_encode .ingest, decode_encode .embed, decode_encode .xtract, decode_encode .inject,
    decode_encode .extract⟩

/-! ### A reserved command word -/

/-- A word with a bit of [31:8] set, or an unlisted `op`, does not decode (R72). -/
theorem decode_reserved {w : Word}
    (h : commandHigh w ≠ 0 ∨ (commandOp w).toNat = 0 ∨ 0x0C ≤ (commandOp w).toNat) : ∃ e, decode w = .error e := by
  cases hw : decode w with
  | error e => exact ⟨e, rfl⟩
  | ok i =>
    obtain ⟨hhigh, hlow, hop⟩ := (decode_listed_iff w).mp ⟨i, hw⟩
    rcases h with h | h | h
    · exact absurd hhigh h
    · omega
    · omega

/-- The code of IllegalCommand as `ERR` shows it (R28, R141). -/
theorem errWord_illegalCommand : errWord .illegalCommand = 6 := by decide

/-- The step whose access writes a reserved word to `CMD` (R72, R148). -/
theorem step_reservedCommand {s : State} {w : Word} {rest : List HostAction} {e : DecodeError} (hb : s.busy = false)
    (hpending : s.pending = .writeReg 0x00 w :: rest) (he : decode w = .error e) :
    step s = .next (State.raise (State.startOp { s with pending := rest }) .illegalCommand) := by
  have hidle : ({ s with pending := rest } : State).busy = false := hb
  calc step s = hostStep (.writeReg 0x00 w) { s with pending := rest } := by simp only [step, hpending]
    _ = writeCmd w { s with pending := rest } := hostStep_writeCmd hidle w
    _ = _ := writeCmd_reserved he _

/-- Settles O3: the word does not decode, so the step raises IllegalCommand on the started state; what `raise` keeps of
that state it keeps of `s`, from which it differs in `BUSY`, the hidden state and the access taken off. -/
theorem reservedWordRaisesIllegalCommand : Obligations.ReservedWordRaisesIllegalCommand := by
  intro s w rest hb hpending hreserved
  obtain ⟨e, he⟩ := decode_reserved hreserved
  exact ⟨_, step_reservedCommand hb hpending he, State.raise_raises _ _, errWord_illegalCommand,
    { State.raise_keepsOperand _ _ with }, { State.raise_keepsPixels _ _ with },
    { State.raise_scanUnspecified _ _ with }, rfl, rfl⟩

/-! ### `LOAD` and `MOVE` (R75) -/

/-- A `LOAD` of what IN has room for. -/
theorem hostStep_load {s : State} (hb : s.busy = false) {bs : List Byte} (hfit : bs.length ≤ s.params.inmax) :
    hostStep (.load bs) s =
      .next { s with inMem := Memory.store .inBuf s.inMem 0 bs, inlen := BitVec.ofNat 32 bs.length } := by
  simp [hostStep, hostLoad, hb, Nat.not_lt.mpr hfit]

/-- Bytes stored at the front of IN, with their count in `INLEN`, are the operand. -/
theorem State.operand_store {s : State} (hm : s.inMem.Rising) {bs : List Byte} {n : Word} (hn : n.toNat = bs.length)
    (k : Nat) :
    State.operand { s with inMem := Memory.store .inBuf s.inMem 0 bs, inlen := n, fresh := k } = bs := by
  simp only [State.operand, hn]
  exact Memory.range_store .inBuf _ nofun hm bs

/-- A byte of IN after a store at its front. -/
theorem Memory.read_store_front {m : Memory} (hm : m.Rising) (bs : List Byte) (a : Nat) :
    Memory.read (Memory.store .inBuf m 0 bs) a = if a < bs.length then some (bs.getD a 0) else Memory.read m a := by
  split
  · rename_i ha
    exact Memory.read_store_inside_listed rfl hm (Nat.zero_le a) (by omega)
  · rename_i ha
    exact Memory.read_store_outside hm (by omega)

/-- Settles O50: a store at the front of IN is the operand as far as `INLEN` says, and leaves IN from there on. -/
theorem loadAndMoveSetTheOperand : Obligations.LoadAndMoveSetTheOperand := by
  intro s hs hb
  have hrising : s.inMem.Rising := hs.inWf.1
  have hread := Memory.read_store_front hrising
  refine ⟨fun bs hfit => ?_, fun hfit => ?_, fun hover => ?_⟩
  · have hlen : (BitVec.ofNat 32 bs.length).toNat = bs.length :=
      toNat_ofNat_wordMax (hfit.trans (Params.legal_bounds hs.legal).1)
    exact ⟨_, _, hostStep_load hb hfit, hlen, State.operand_store hrising hlen s.fresh,
      fun a ha => by rw [hread, if_neg (Nat.not_lt.mpr ha)]⟩
  · exact ⟨_, hostStep_move_fits hb hfit, State.operand_store hrising s.result_length.symm _,
      fun a ha => by rw [hread, if_neg (by simpa using ha)]⟩
  · have hlen : (s.result.take s.params.inmax).length = s.params.inmax := by simpa using hover.le
    refine ⟨_, hostStep_move hb, fun a ha => ?_, fun a ha => ?_⟩
    · rw [hread, if_pos (hlen.symm ▸ ha)]
      simp [ha]
    · rw [hread, if_neg (by omega)]

/-! ### The writer succeeds exactly when the symbols fit -/

/-- Every operation that writes symbols succeeds exactly when each symbol has a slot (R104, R129). -/
theorem State.writeSymbols_ok_iff (s : State) (y : List Byte) :
    (s.writeSymbols y).err = .ok ↔ y.length ≤ slots s.pixlen.toNat := by
  rcases Nat.lt_or_ge (slots s.pixlen.toNat) y.length with hover | hfit
  · cases hatomic : s.params.atomic
    · simp [s.writeSymbols_partial hover hatomic, hover]
    · simp [s.writeSymbols_atomic hover hatomic, hover]
  · simp [s.writeSymbols_fits hfit, hfit]

/-- INJECT writes `SPB` symbols for each byte of the header, the payload and the parity (R129). -/
theorem injectSymbols_length (p : Params) (payload : List Byte) :
    (injectSymbols p payload).length = (8 + payload.length + p.N) * spb p.B := by
  rw [injectSymbols, pack_length, frame_length, penc_length, Nat.add_assoc]

/-- INJECT of an operand that fits IN is the writer. -/
theorem exec_inject_fits {s : State} (h : s.inlen.toNat ≤ s.params.inmax) :
    exec .inject s = .next (s.writeSymbols (injectSymbols s.params s.operand)) :=
  if_neg (ne_true_of_eq_false (State.operandFits h))

/-- `n` bytes as symbols fit `S` slots exactly when their bits fit the slots' bits. -/
theorem symbols_fit_iff_bits_fit {B : Nat} (hB : B ∈ [1, 2, 4, 8]) (n S : Nat) :
    n * spb B ≤ S ↔ 8 * n ≤ S * B := by
  have hpos : 0 < B := Nat.pos_of_ne_zero (by rintro rfl; simp at hB)
  rw [← Nat.mul_le_mul_right_iff hpos, Nat.mul_assoc, spb_mul hB, Nat.mul_comm n]

/-- Settles O33: the writer's own condition, and `SPB * B = 8`. -/
theorem injectSucceedsExactlyWhenItFits : Obligations.InjectSucceedsExactlyWhenItFits := by
  intro s hs hfit
  have hlen : (injectSymbols s.params s.operand).length = (8 + s.inlen.toNat + s.params.N) * spb s.params.B := by
    rw [injectSymbols_length, State.operand_length]
  refine ⟨?_, symbols_fit_iff_bits_fit (Params.legal_B hs.legal) _ _⟩
  rw [exec_inject_fits hfit, ← hlen, ← State.writeSymbols_ok_iff]
  simp

/-! ### Where the symbols of a frame stand -/

/-- The low `B` bits of a written blue byte are the symbol (R61). -/
theorem symbolOf_embedByte (B : Nat) (x u : Byte) : symbolOf B (embedByte B x u) = symbolOf B u := by
  have hhigh : (0xFF : Byte) - mask B = ~~~ mask B := BitVec.allOnes_sub_eq_not (mask B)
  rw [embedByte, symbolOf, symbolOf, hhigh]
  ext j
  simp only [BitVec.getElem_and, BitVec.getElem_or, BitVec.getElem_not]
  cases (mask B)[j] <;> simp

/-- A symbol that `pack` makes has no bits but its low `B`. -/
theorem symbolOf_packSymbol (B : Nat) (b : Byte) (t : Nat) : symbolOf B (packSymbol B b t) = packSymbol B b t := by
  rw [symbolOf, packSymbol, BitVec.and_assoc, BitVec.and_self]

/-- Symbol `t` of byte `q` is unit `q*SPB + t` of the packed sequence (R78). -/
theorem pack_getD {B : Nat} {f : List Byte} {q t : Nat} (hq : q < f.length) (ht : t < spb B) :
    (pack B f).getD (q * spb B + t) 0 = packSymbol B (f.getD q 0) t := by
  induction f generalizing q with
  | nil => exact absurd hq (Nat.not_lt_zero q)
  | cons b f ih =>
    rw [pack_cons]
    cases q with
    | zero =>
      rw [Nat.zero_mul, Nat.zero_add, List.getD_append _ _ _ _ (by simpa using ht)]
      simp [ht]
    | succ q =>
      rw [List.getD_append_right _ _ _ _ (by simp [Nat.succ_mul]; omega)]
      simpa [Nat.succ_mul, Nat.add_right_comm] using ih (Nat.lt_of_succ_lt_succ hq)

/-- The writer puts symbol `k` into the blue byte of slot `k` (R103). -/
theorem embed_getD_slot (B : Nat) {X y : List Byte} {k : Nat} (hy : k < y.length) (hX : k < slots X.length) :
    (embed B X y).getD (slotAddr k) 0 = embedByte B (X.getD (slotAddr k) 0) (y.getD k 0) := by
  induction X using quad_induction generalizing y k with
  | short X h => simp only [slots] at hX; omega
  | three r g b =>
    obtain rfl : k = 0 := by simp only [slots, List.length_cons, List.length_nil] at hX; omega
    cases y with
    | nil => exact absurd hy (Nat.not_lt_zero 0)
    | cons u y => rfl
  | quad r g b a X ih =>
    cases y with
    | nil => exact absurd hy (Nat.not_lt_zero k)
    | cons u y =>
      cases k with
      | zero => rfl
      | succ k =>
        exact ih (Nat.lt_of_succ_lt_succ hy) (by simp only [slots, List.length_cons] at hX ⊢; omega)

/-- A slot after the writer has written symbols that all fit. -/
theorem State.Inv.byteAt_writeSymbols_slot {s : State} (h : s.Inv) {y : List Byte}
    (hfit : y.length ≤ slots s.pixlen.toNat) {k : Nat} (hk : k < y.length) :
    (s.writeSymbols y).byteAt .pix (slotAddr k) = embedByte s.params.B (s.byteAt .pix (slotAddr k)) (y.getD k 0) := by
  have hlen : (embed s.params.B s.pixels y).length = s.pixlen.toNat := by rw [embed_length, State.pixels_length]
  have hslot : k < slots s.pixels.length := s.pixels_length.symm ▸ hk.trans_le hfit
  calc (s.writeSymbols y).byteAt .pix (slotAddr k)
      = (s.withPixels (embed s.params.B s.pixels y)).byteAt .pix (slotAddr k) := by rw [s.writeSymbols_fits hfit]; rfl
    _ = (embed s.params.B s.pixels y).getD (slotAddr k) 0 := by
      rw [(h.withPixels hlen.le).byteAt_pix, State.withPixels_pixels _ _ hlen]
    _ = embedByte s.params.B (s.byteAt .pix (slotAddr k)) (y.getD k 0) := by
      rw [embed_getD_slot _ hk hslot, h.byteAt_pix]

/-- EMBED and INJECT that succeed have passed the test of the operand and are the writer. -/
theorem eq_of_operandTest_ok {s t u : State}
    (h : (if s.operandTooLong then .next (s.raise .operandTooLong) else .next u : Host.Outcome State Fault Refusal) =
      .next t) (hok : t.err = .ok) : t = u := by
  split at h <;> cases h
  · cases hok
  · rfl

/-- Settles O32: a successful writer has a slot for each symbol of `pack(f)`, and writes it there. -/
theorem frameBitsArePlaced : Obligations.FrameBitsArePlaced := by
  intro s i f u hs hi hexec hok q hq t ht
  have hu : u = s.writeSymbols (pack s.params.B f) := by
    rcases hi with ⟨rfl, hoperand⟩ | ⟨rfl, rfl⟩
    · exact hoperand ▸ eq_of_operandTest_ok hexec hok
    · exact eq_of_operandTest_ok hexec hok
  subst hu
  have hfit := (s.writeSymbols_ok_iff _).mp hok
  have hk : q * spb s.params.B + t < (pack s.params.B f).length := by
    rw [pack_length]
    calc q * spb s.params.B + t < (q + 1) * spb s.params.B := by rw [Nat.succ_mul]; omega
      _ ≤ f.length * spb s.params.B := Nat.mul_le_mul_right _ hq
  calc symbolOf s.params.B ((s.writeSymbols (pack s.params.B f)).byteAt .pix (slotAddr (q * spb s.params.B + t)))
      = symbolOf s.params.B ((pack s.params.B f).getD (q * spb s.params.B + t) 0) := by
        rw [hs.byteAt_writeSymbols_slot hfit hk, symbolOf_embedByte]
    _ = packSymbol s.params.B (f.getD q 0) t := by rw [pack_getD hq ht, symbolOf_packSymbol]

end Sys2Proof.Machine

/-! PROOFS. The bit-packer (40_bit_packer.md): the symbols of a byte and the byte of a group of symbols as inverses of
one another, `pack` and `unpack` from them, the two operations, and their sequencers. -/

namespace Sys2Proof.Machine

/-! ### One symbol -/

theorem width_le {B : Nat} (hB : B ∈ [1, 2, 4, 8]) : B ≤ 8 := by
  simp only [List.mem_cons, List.not_mem_nil, or_false] at hB
  omega

theorem mask_toNat {B : Nat} (hB : B ≤ 8) : (mask B).toNat = 2 ^ B - 1 := by
  have hpow : 2 ^ B ≤ 2 ^ 8 := Nat.pow_le_pow_right (by decide) hB
  rw [mask, BitVec.toNat_ofNat, Nat.mod_eq_of_lt (by omega)]

theorem symbolOf_toNat {B : Nat} (hB : B ≤ 8) (u : Byte) : (symbolOf B u).toNat = u.toNat % 2 ^ B := by
  rw [symbolOf, BitVec.toNat_and, mask_toNat hB, Nat.and_two_pow_sub_one_eq_mod]

theorem symbolOf_toNat_lt {B : Nat} (hB : B ≤ 8) (u : Byte) : (symbolOf B u).toNat < 2 ^ B :=
  symbolOf_toNat hB u ▸ Nat.mod_lt _ (Nat.two_pow_pos B)

/-- A unit with no bits above bit B-1 is a symbol. -/
theorem symbolOf_of_lt {B : Nat} (hB : B ≤ 8) {u : Byte} (hu : u.toNat < 2 ^ B) : symbolOf B u = u := by
  rw [← BitVec.toNat_inj, symbolOf_toNat hB, Nat.mod_eq_of_lt hu]

theorem packSymbol_toNat_le {B : Nat} (hB : B ≤ 8) (b : Byte) (t : Nat) : (packSymbol B b t).toNat ≤ 2 ^ B - 1 := by
  rw [packSymbol, BitVec.toNat_and, mask_toNat hB]
  exact Nat.and_le_right

/-! ### One step of the accumulator -/

/-- While the accumulator has `B` bits to spare, a step appends the symbol to it. -/
theorem joinStep_toNat {B : Nat} (hB : B ≤ 8) {acc : Byte} (hacc : acc.toNat * 2 ^ B < 2 ^ 8) (u : Byte) :
    (joinStep B acc u).toNat = acc.toNat * 2 ^ B + (symbolOf B u).toNat := by
  rw [joinStep, BitVec.toNat_or, BitVec.toNat_shiftLeft, Nat.shiftLeft_eq, Nat.mod_eq_of_lt hacc,
    ← Nat.shiftLeft_eq, Nat.shiftLeft_add_eq_or_of_lt (symbolOf_toNat_lt hB u)]

/-- The step that takes back the last `B` bits of a byte. -/
theorem joinStep_ushiftRight {B : Nat} (hB : B ≤ 8) (b : Byte) : joinStep B (b >>> B) (symbolOf B b) = b := by
  have hshift : (b >>> B).toNat = b.toNat / 2 ^ B := by rw [BitVec.toNat_ushiftRight, Nat.shiftRight_eq_div_pow]
  have hspare : (b >>> B).toNat * 2 ^ B < 2 ^ 8 := hshift ▸ (Nat.div_mul_le_self _ _).trans_lt b.isLt
  rw [← BitVec.toNat_inj, joinStep_toNat hB hspare, hshift, symbolOf_toNat hB, symbolOf_toNat hB, Nat.mod_mod,
    Nat.mul_comm, Nat.div_add_mod]

/-- The accumulator before a step is what the step has shifted up. -/
theorem ushiftRight_joinStep {B : Nat} (hB : B ≤ 8) {acc : Byte} (hacc : acc.toNat * 2 ^ B < 2 ^ 8) (u : Byte) :
    joinStep B acc u >>> B = acc := by
  rw [← BitVec.toNat_inj, BitVec.toNat_ushiftRight, Nat.shiftRight_eq_div_pow, joinStep_toNat hB hacc,
    Nat.mul_comm, Nat.mul_add_div (Nat.two_pow_pos B), Nat.div_eq_of_lt (symbolOf_toNat_lt hB u), Nat.add_zero]

/-- The symbol of a step is its low `B` bits. -/
theorem symbolOf_joinStep {B : Nat} (hB : B ≤ 8) {acc : Byte} (hacc : acc.toNat * 2 ^ B < 2 ^ 8) (u : Byte) :
    symbolOf B (joinStep B acc u) = symbolOf B u := by
  rw [← BitVec.toNat_inj, symbolOf_toNat hB, joinStep_toNat hB hacc, symbolOf_toNat hB, Nat.mul_comm,
    Nat.mul_add_mod, Nat.mod_mod]

/-! ### A group of symbols and its byte -/

theorem joinByte_toNat_lt {B : Nat} (hB : B ≤ 8) (g : List Byte) (hg : B * g.length ≤ 8) :
    (joinByte B g).toNat < 2 ^ (B * g.length) := by
  induction g using List.reverseRecOn with
  | nil => simp [joinByte]
  | append_singleton g u ih =>
    rw [List.length_append, List.length_singleton, Nat.mul_succ] at hg ⊢
    have hacc := ih (by omega)
    have hsymbol := symbolOf_toNat_lt hB u
    have hshifted : (joinByte B g).toNat * 2 ^ B + 2 ^ B ≤ 2 ^ (B * g.length + B) := by
      rw [← Nat.succ_mul, Nat.pow_add]
      exact Nat.mul_le_mul_right _ hacc
    have hbyte : 2 ^ (B * g.length + B) ≤ 2 ^ 8 := Nat.pow_le_pow_right (by decide) hg
    rw [joinByte_snoc, joinStep_toNat hB (by omega)]
    omega

/-- The accumulator of a group that is not full has `B` bits to spare. -/
theorem joinByte_spare {B : Nat} (hB : B ≤ 8) {g : List Byte} (hg : B * (g.length + 1) ≤ 8) :
    (joinByte B g).toNat * 2 ^ B < 2 ^ 8 := by
  rw [Nat.mul_succ] at hg
  calc (joinByte B g).toNat * 2 ^ B < 2 ^ (B * g.length) * 2 ^ B :=
        Nat.mul_lt_mul_of_pos_right (joinByte_toNat_lt hB g (by omega)) (Nat.two_pow_pos B)
    _ = 2 ^ (B * g.length + B) := (Nat.pow_add ..).symm
    _ ≤ 2 ^ 8 := Nat.pow_le_pow_right (by decide) hg

/-- The low `n` symbols of a byte, the most significant first. -/
def lowSymbols (B : Nat) : Nat → Byte → List Byte
  | 0, _ => []
  | n + 1, b => lowSymbols B n (b >>> B) ++ [symbolOf B b]

theorem lowSymbols_eq_map (B n : Nat) (b : Byte) :
    lowSymbols B n b = (List.range n).map fun t => symbolOf B (b >>> (B * (n - (t + 1)))) := by
  induction n generalizing b with
  | zero => rfl
  | succ n ih =>
    rw [lowSymbols, ih, List.range_succ, List.map_append]
    congr 1
    · refine List.map_congr_left fun t ht => ?_
      have hplace : n + 1 - (t + 1) = n - (t + 1) + 1 := Nat.sub_add_comm (List.mem_range.mp ht)
      rw [← BitVec.shiftRight_add, hplace, Nat.mul_succ, Nat.add_comm]
    · simp

/-- What `pack` emits for a byte are its symbols, all of them. -/
theorem map_packSymbol {B : Nat} (hB : B ∈ [1, 2, 4, 8]) (b : Byte) :
    (List.range (spb B)).map (packSymbol B b) = lowSymbols B (spb B) b := by
  rw [lowSymbols_eq_map]
  refine List.map_congr_left fun t _ => ?_
  rw [packSymbol, symbolOf, Nat.mul_sub, Nat.mul_comm B (spb B), spb_mul hB]

/-- Joining the symbols of a byte gives the byte. -/
theorem joinByte_lowSymbols {B : Nat} (hB : B ≤ 8) (n : Nat) {b : Byte} (hb : b.toNat < 2 ^ (B * n)) :
    joinByte B (lowSymbols B n b) = b := by
  induction n generalizing b with
  | zero =>
    have : b = 0 := BitVec.eq_of_toNat_eq (Nat.lt_one_iff.mp hb)
    exact this.symm
  | succ n ih =>
    have hshift : (b >>> B).toNat < 2 ^ (B * n) := by
      rw [BitVec.toNat_ushiftRight, Nat.shiftRight_eq_div_pow, Nat.div_lt_iff_lt_mul (Nat.two_pow_pos B),
        ← Nat.pow_add, ← Nat.mul_succ]
      exact hb
    rw [lowSymbols, joinByte_snoc, ih hshift, joinStep_ushiftRight hB]

/-- The symbols of a joined byte are those of the group. -/
theorem lowSymbols_joinByte {B : Nat} (hB : B ≤ 8) (g : List Byte) (hg : B * g.length ≤ 8) :
    lowSymbols B g.length (joinByte B g) = g.map (symbolOf B) := by
  induction g using List.reverseRecOn with
  | nil => rfl
  | append_singleton g u ih =>
    rw [List.length_append, List.length_singleton] at hg ⊢
    have hspare := joinByte_spare hB hg
    rw [lowSymbols, joinByte_snoc, ushiftRight_joinStep hB hspare, symbolOf_joinStep hB hspare,
      ih ((Nat.mul_le_mul_left B (Nat.le_succ _)).trans hg), List.map_append, List.map_singleton]

/-! ### `pack` -/

theorem joinByte_map_packSymbol {B : Nat} (hB : B ∈ [1, 2, 4, 8]) (b : Byte) :
    joinByte B ((List.range (spb B)).map (packSymbol B b)) = b := by
  rw [map_packSymbol hB]
  refine joinByte_lowSymbols (width_le hB) _ ?_
  rw [Nat.mul_comm, spb_mul hB]
  exact b.isLt

theorem map_packSymbol_joinByte {B : Nat} (hB : B ∈ [1, 2, 4, 8]) {g : List Byte} (hg : g.length = spb B) :
    (List.range (spb B)).map (packSymbol B (joinByte B g)) = g.map (symbolOf B) := by
  have hbits : B * g.length ≤ 8 := by rw [hg, Nat.mul_comm, spb_mul hB]
  rw [map_packSymbol hB, ← hg]
  exact lowSymbols_joinByte (width_le hB) g hbits

theorem pack_append (B : Nat) (s u : List Byte) : pack B (s ++ u) = pack B s ++ pack B u := List.flatMap_append

theorem pack_toNat_le {B : Nat} (hB : B ≤ 8) {s : List Byte} {x : Byte} (hx : x ∈ pack B s) :
    x.toNat ≤ 2 ^ B - 1 := by
  obtain ⟨b, -, hx⟩ := List.mem_flatMap.mp hx
  obtain ⟨t, -, rfl⟩ := List.mem_map.mp hx
  exact packSymbol_toNat_le hB b t

theorem unpack_nil (B : Nat) : unpack B [] = [] := by simp [unpack, unpackGroups]

theorem unpack_pack {B : Nat} (hB : B ∈ [1, 2, 4, 8]) (s : List Byte) : unpack B (pack B s) = s := by
  induction s with
  | nil => exact unpack_nil B
  | cons b s ih => rw [pack_cons, unpack_group hB (by simp), joinByte_map_packSymbol hB, ih]

/-- Settles O7, by the place of each symbol in the packed sequence. -/
theorem packFunction : Obligations.PackFunction := fun B _ =>
  ⟨pack_nil B, fun s => ⟨pack_length B s, fun _ hq _ ht => pack_getD hq ht⟩⟩

/-- Settles O8: `pack` is injective because `unpack` undoes it. -/
theorem packLaws : Obligations.PackLaws := by
  intro B hB s u
  refine ⟨pack_length B s, fun x hx => pack_toNat_le (width_le hB) hx, pack_append B s u, fun h => ?_, ?_⟩
  · exact Function.LeftInverse.injective (unpack_pack hB) h
  · rw [pack_length, Nat.mul_mod_left]

/-! ### `unpack` -/

theorem unpack_append {B : Nat} (hB : B ∈ [1, 2, 4, 8]) (y z : List Byte) (hy : y.length % spb B = 0) :
    unpack B (y ++ z) = unpack B y ++ unpack B z := by
  induction y using groups_induction (spb_pos hB) with
  | short y hshort =>
    obtain rfl : y = [] := List.eq_nil_of_length_eq_zero (Nat.mod_eq_of_lt hshort ▸ hy)
    rw [List.nil_append, unpack_nil, List.nil_append]
  | group g y hg ih =>
    rw [List.length_append, hg, Nat.add_mod_left] at hy
    rw [List.append_assoc, unpack_group hB hg, unpack_group hB hg, ih hy, List.cons_append]

/-- A trailing partial group contributes nothing. -/
theorem unpack_append_short {B : Nat} (hB : B ∈ [1, 2, 4, 8]) {y z : List Byte} (hy : y.length % spb B = 0)
    (hz : z.length < spb B) : unpack B (y ++ z) = unpack B y := by
  rw [unpack_append hB y z hy, unpack_short hz, List.append_nil]

theorem unpack_take_groups {B : Nat} (hB : B ∈ [1, 2, 4, 8]) (y : List Byte) :
    unpack B (y.take (y.length / spb B * spb B)) = unpack B y := by
  have hlen : (y.take (y.length / spb B * spb B)).length = y.length / spb B * spb B :=
    List.length_take_of_le (Nat.div_mul_le_self _ _)
  have hrest : (y.drop (y.length / spb B * spb B)).length < spb B := by
    rw [List.length_drop, Nat.mul_comm, ← Nat.mod_eq_sub_mul_div]
    exact Nat.mod_lt _ (spb_pos hB)
  rw [← unpack_append_short hB (by rw [hlen, Nat.mul_mod_left]) hrest, List.take_append_drop]

theorem pack_unpack {B : Nat} (hB : B ∈ [1, 2, 4, 8]) (y : List Byte) (hy : ∀ x ∈ y, x.toNat < 2 ^ B) :
    pack B (unpack B y) = y.take (y.length / spb B * spb B) := by
  induction y using groups_induction (spb_pos hB) with
  | short y hshort => rw [unpack_short hshort, pack_nil, Nat.div_eq_of_lt hshort, Nat.zero_mul, List.take_zero]
  | group g y hg ih =>
    have hsymbols : g.map (symbolOf B) = g :=
      (List.map_congr_left fun x hx => symbolOf_of_lt (width_le hB) (hy x (List.mem_append_left y hx))).trans g.map_id
    have hgroups : (g ++ y).length / spb B * spb B = g.length + y.length / spb B * spb B := by
      rw [List.length_append, hg, Nat.add_div_left _ (spb_pos hB), Nat.succ_mul, Nat.add_comm]
    rw [unpack_group hB hg, pack_cons, map_packSymbol_joinByte hB hg, hsymbols,
      ih fun x hx => hy x (List.mem_append_right g hx), hgroups, List.take_length_add_append]

/-- Settles O10, by induction over whole groups: each group is one byte's symbols. -/
theorem unpackInvertsPack : Obligations.UnpackInvertsPack := by
  refine fun B hB => ⟨unpack_pack hB, fun s z hz => ?_, pack_unpack hB, unpack_append hB⟩
  rw [unpack_append_short hB (by rw [pack_length, Nat.mul_mod_left]) hz, unpack_pack hB]

/-- The first `t` units of group `q` of a sequence. -/
def groupUnits (B : Nat) (y : List Byte) (q t : Nat) : List Byte :=
  (List.range t).map fun i => y.getD (q * spb B + i) 0

theorem groupUnits_succ (B : Nat) (y : List Byte) (q t : Nat) :
    groupUnits B y q (t + 1) = groupUnits B y q t ++ [y.getD (q * spb B + t) 0] := by
  simp [groupUnits, List.range_succ]

theorem unpack_getD {B : Nat} (hB : B ∈ [1, 2, 4, 8]) {y : List Byte} {q : Nat} (hq : q < y.length / spb B) :
    (unpack B y).getD q 0 = joinByte B (groupUnits B y q (spb B)) := by
  induction y using groups_induction (spb_pos hB) generalizing q with
  | short y hshort => exact absurd hq (by rw [Nat.div_eq_of_lt hshort]; exact Nat.not_lt_zero q)
  | group g y hg ih =>
    rw [unpack_group hB hg]
    cases q with
    | zero =>
      have hfront : groupUnits B (g ++ y) 0 (spb B) = g := by
        refine List.ext_getElem (by simp [groupUnits, hg]) fun i _ hi => ?_
        simp [groupUnits, List.getElem?_append, hi]
      rw [hfront, List.getD_cons_zero]
    | succ q =>
      have hrest : groupUnits B (g ++ y) (q + 1) (spb B) = groupUnits B y q (spb B) := by
        refine List.map_congr_left fun i _ => ?_
        have hplace : (q + 1) * spb B + i = g.length + (q * spb B + i) := by rw [Nat.succ_mul, hg]; omega
        rw [hplace, List.getD_append_right _ _ _ _ (Nat.le_add_right ..), Nat.add_sub_cancel_left]
      rw [List.length_append, hg, Nat.add_div_left _ (spb_pos hB)] at hq
      rw [List.getD_cons_succ, ih (Nat.lt_of_succ_lt_succ hq), hrest]

/-- A joined byte is the sum of its symbols, each shifted to its place (R82). -/
theorem joinByte_toNat_eq_sum {B : Nat} (hB : B ≤ 8) (f : Nat → Byte) (n : Nat) (hn : B * n ≤ 8) :
    (joinByte B ((List.range n).map f)).toNat =
      ((List.range n).map fun t => (symbolOf B (f t)).toNat <<< (B * n - B * (t + 1))).sum := by
  induction n with
  | zero => rfl
  | succ n ih =>
    have hshifted (t : Nat) (ht : t ∈ List.range n) :
        (symbolOf B (f t)).toNat <<< (B * (n + 1) - B * (t + 1)) =
          (symbolOf B (f t)).toNat <<< (B * n - B * (t + 1)) * 2 ^ B := by
      have hle : B * (t + 1) ≤ B * n := Nat.mul_le_mul_left B (List.mem_range.mp ht)
      rw [Nat.mul_succ B n, Nat.sub_add_comm hle, Nat.shiftLeft_add, Nat.shiftLeft_eq _ B]
    rw [List.range_succ, List.map_append, List.map_append, List.sum_append, List.map_congr_left hshifted,
      List.sum_map_mul_right, ← ih ((Nat.mul_le_mul_left B (Nat.le_succ n)).trans hn), List.map_singleton,
      joinByte_snoc, joinStep_toNat hB (joinByte_spare hB (by simpa using hn))]
    simp

/-- Settles O9: byte `q` is group `q` joined, by the loop of R82 or as the sum of its shifted symbols. -/
theorem unpackFunction : Obligations.UnpackFunction := by
  refine fun B hB => ⟨unpack_nil B, fun y =>
    ⟨unpack_length B y, fun q hq => ⟨?_, ?_⟩, unpack_take_groups hB y⟩⟩
  · have hbits : B * spb B = 8 := by rw [Nat.mul_comm, spb_mul hB]
    rw [unpack_getD hB hq, groupUnits, joinByte_toNat_eq_sum (width_le hB) _ _ hbits.le, hbits]
    rfl
  · rw [unpack_getD hB hq, groupUnits, joinByte, List.foldl_map]
    rfl


/-! ### The two operations -/

/-- The shape of the operations that test the lengths of operand and result (R149) and return `r`, of `n` bytes. -/
def State.returnTested (s : State) (n : Nat) (r : List Byte) : Host.Outcome State Fault Refusal :=
  if s.operandTooLong then .next (s.raise .operandTooLong)
  else if s.resultTooLong n then .next (s.raise .operandTooLong)
  else .next (s.complete r)

theorem exec_pack (s : State) :
    exec .pack s = s.returnTested (s.inlen.toNat * spb s.params.B) (pack s.params.B s.operand) := rfl

theorem exec_unpack (s : State) :
    exec .unpack s = s.returnTested (s.inlen.toNat / spb s.params.B) (unpack s.params.B s.operand) := rfl

theorem State.returnTested_fits {s : State} {n : Nat} (hin : s.inlen.toNat ≤ s.params.inmax)
    (hout : n ≤ s.params.outmax) (r : List Byte) : s.returnTested n r = .next (s.complete r) := by
  simp [State.returnTested, State.operandFits hin, State.resultFits hout]

theorem State.returnTested_tooLong {s : State} {n : Nat} (h : s.params.inmax < s.inlen.toNat ∨ s.params.outmax < n)
    (r : List Byte) : s.returnTested n r = .next (s.raise .operandTooLong) := by
  rw [← s.operandTooLong_iff, ← s.resultTooLong_iff] at h
  rcases h with hin | hout
  · exact if_pos hin
  · simp [State.returnTested, hout]

/-- The lengths fit, or one of the tests fails. -/
theorem State.lengths_fit_or (s : State) (n : Nat) :
    (s.inlen.toNat ≤ s.params.inmax ∧ n ≤ s.params.outmax) ∨
      (s.params.inmax < s.inlen.toNat ∨ s.params.outmax < n) := by omega

/-- Such an operation returns `r` where the lengths fit, raises OperandTooLong where not, and keeps all but OUT. -/
theorem State.Inv.returnTested_runs {s : State} (hs : s.Inv) {n : Nat} {r : List Byte} (hr : r.length = n) :
    (s.inlen.toNat ≤ s.params.inmax → n ≤ s.params.outmax →
      ∃ t, s.returnTested n r = .next t ∧ s.Returns t r ∧ t.outlen.toNat = n) ∧
    (s.params.inmax < s.inlen.toNat ∨ s.params.outmax < n →
      ∃ t, s.returnTested n r = .next t ∧ t.Raises .operandTooLong) ∧
    (∀ t, s.returnTested n r = .next t → s.KeepsOperand t ∧ s.KeepsPixels t ∧ s.ScanUnspecified t) := by
  refine ⟨fun hin hout => ?_, fun h => ⟨_, State.returnTested_tooLong h r, s.raise_raises _⟩, fun t ht => ?_⟩
  · have hoff : s.params.outmax < 2 ^ 32 := Nat.lt_of_le_pred (by decide) (Params.legal_bounds hs.legal).2.1
    have hreturns := State.complete_returns hs.outWf.1 (res := r) (hr.trans_le hout |>.trans_lt hoff)
    exact ⟨_, State.returnTested_fits hin hout r, hreturns, hreturns.outlen.trans hr⟩
  · rcases s.lengths_fit_or n with ⟨hin, hout⟩ | h
    · rw [State.returnTested_fits hin hout] at ht
      cases ht
      exact ⟨s.complete_keepsOperand r, s.complete_keepsPixels r, s.complete_scanUnspecified r⟩
    · rw [State.returnTested_tooLong h] at ht
      cases ht
      exact ⟨s.raise_keepsOperand _, s.raise_keepsPixels _, s.raise_scanUnspecified _⟩

/-- Settles O21: PACK tests its two lengths and returns `pack` of the operand, `SPB` symbols for each byte. -/
theorem packRuns : Obligations.PackRuns :=
  ⟨by decide, fun s hs => hs.returnTested_runs (by rw [pack_length, State.operand_length])⟩

/-- Settles O22: UNPACK tests its two lengths and returns `unpack` of the operand, a byte for each whole group. -/
theorem unpackRuns : Obligations.UnpackRuns :=
  ⟨by decide, fun s hs => hs.returnTested_runs (by rw [unpack_length, State.operand_length])⟩

/-! ### Sequencers that write their result byte by byte -/

/-- A sequencer that is busy for `n` cycles and completes in the next. -/
theorem Cycle.run_done {cycle : State → Cycle} {st : Nat → State} {n : Nat} {u : State}
    (hbusy : ∀ r < n, cycle (st r) = .busy (st (r + 1))) (hdone : cycle (st n) = .done u) :
    Cycle.run cycle (n + 1) (st 0) = .done u := by
  rw [Cycle.run_add, Cycle.run_busy hbusy le_rfl]
  simp only [Cycle.run, hdone]

/-- The state with another hidden state. -/
def State.withHidden (s : State) (h : Hidden) : State := { s with hidden := h }

/-- The state `s` with the bytes `p` written to `OUT[0..)`, and hidden state `h`. -/
def State.written (s : State) (p : List Byte) (h : Hidden) : State :=
  { s with outMem := Memory.store .outBuf s.outMem 0 p, hidden := h }

theorem State.written_nil (s : State) : s.written [] s.hidden = s := by
  simp [State.written]

/-- The next byte of `p` to OUT. -/
theorem State.written_putOut {s : State} (hm : s.outMem.Rising) {p : List Byte} {r : Nat} (hr : r < p.length)
    (h h' : Hidden) :
    ((s.written (p.take r) h).putOut r (p.getD r 0)).withHidden h' = s.written (p.take (r + 1)) h' := by
  simp only [State.written, State.putOut, State.withHidden, Memory.store_take_succ .outBuf hm hr]

/-- All of `p` written: the end is that of `return p` (R145), but for the hidden state. -/
theorem State.written_endOp (s : State) (p : List Byte) (h : Hidden) :
    (s.written p h).endOp .ok p.length = (s.complete p).withHidden h := rfl

/-- A sequencer behind the tests of an operation agrees with it where its cycles, from a state whose lengths fit, pass
through the states `st` for `k` cycles and then complete as `return r`. -/
theorem State.sequencer_agrees {s : State} {n k : Nat} {r : List Byte} {cycle : State → Cycle} {st : Nat → State}
    {h : Hidden} (hstart : st 0 = s) (hbusy : ∀ j < k, cycle (st j) = .busy (st (j + 1)))
    (hdone : cycle (st k) = .done ((s.complete r).withHidden h)) :
    (∃ t h, s.returnTested n r = .next t ∧
      (if s.operandTooLong || s.resultTooLong n then .done (s.raise .operandTooLong) else Cycle.run cycle (k + 1) s) =
        .done { t with hidden := h }) ∧
    (s.inlen.toNat ≤ s.params.inmax → n ≤ s.params.outmax →
      ∃ u, (if s.operandTooLong || s.resultTooLong n then .done (s.raise .operandTooLong) else Cycle.run cycle k s) =
        .busy u) := by
  subst hstart
  refine ⟨?_, fun hin hout => ⟨st k, ?_⟩⟩
  · rcases (st 0).lengths_fit_or n with ⟨hin, hout⟩ | hlong
    · refine ⟨_, h, State.returnTested_fits hin hout r, ?_⟩
      rw [State.operandFits hin, State.resultFits hout]
      exact Cycle.run_done hbusy hdone
    · refine ⟨_, (st 0).hidden, State.returnTested_tooLong hlong r, if_pos ?_⟩
      rwa [Bool.or_eq_true, State.operandTooLong_iff, State.resultTooLong_iff]
  · rw [State.operandFits hin, State.resultFits hout]
    exact Cycle.run_busy hbusy le_rfl

/-! ### Counting in groups -/

/-- The last place of a group is followed by the first of the next. -/
theorem div_mod_succ_of_last {r d : Nat} (hr : r % d + 1 = d) : (r + 1) / d = r / d + 1 ∧ (r + 1) % d = 0 := by
  have hplace := Nat.div_add_mod r d
  refine (Nat.div_mod_unique (by omega)).mpr ⟨?_, by omega⟩
  rw [Nat.mul_succ]
  omega

/-- Any other place is followed by the next of its group. -/
theorem div_mod_succ_of_inner {r d : Nat} (hd : 0 < d) (hr : r % d + 1 ≠ d) :
    (r + 1) / d = r / d ∧ (r + 1) % d = r % d + 1 := by
  have hplace := Nat.div_add_mod r d
  have hlt := Nat.mod_lt r hd
  exact (Nat.div_mod_unique hd).mpr ⟨by omega, by omega⟩

/-! ### The PACK sequencer -/

/-- The cursors after a symbol of a byte of `n` symbols. -/
def Hidden.afterSymbol (h : Hidden) (n : Nat) : Hidden :=
  if h.t + 1 = n then { h with t := 0, q := h.q + 1 } else { h with t := h.t + 1 }

/-- A cycle that puts out a symbol. -/
theorem packCycle_symbol {s : State} (hq : s.hidden.q < s.inlen.toNat) :
    packCycle s =
      .busy ((s.putOut (s.hidden.q * spb s.params.B + s.hidden.t)
        (packSymbol s.params.B (s.byteAt .inBuf s.hidden.q) s.hidden.t)).withHidden
          (s.hidden.afterSymbol (spb s.params.B))) := by
  refine (if_pos hq).trans ?_
  unfold Hidden.afterSymbol
  split <;> rfl

/-- The cycle that completes. -/
theorem packCycle_end {s : State} (hq : s.inlen.toNat ≤ s.hidden.q) :
    packCycle s = .done (s.endOp .ok (s.inlen.toNat * spb s.params.B)) := if_neg (Nat.not_lt.mpr hq)

/-- The hidden state after `r` symbols: symbol `t` of byte `q` is next (R80). -/
def packHidden (s : State) (r : Nat) : Hidden :=
  { s.hidden with q := r / spb s.params.B, t := r % spb s.params.B }

theorem packHidden_succ {s : State} (hpos : 0 < spb s.params.B) (r : Nat) :
    packHidden s (r + 1) = (packHidden s r).afterSymbol (spb s.params.B) := by
  unfold Hidden.afterSymbol
  split
  · rename_i hlast
    obtain ⟨hq, ht⟩ := div_mod_succ_of_last (r := r) hlast
    rw [packHidden, packHidden, hq, ht]
  · rename_i hinner
    obtain ⟨hq, ht⟩ := div_mod_succ_of_inner (r := r) hpos hinner
    rw [packHidden, packHidden, hq, ht]

/-- The state after `r` symbols of PACK. -/
def packed (s : State) (r : Nat) : State := s.written ((pack s.params.B s.operand).take r) (packHidden s r)

theorem packed_zero (s : State) : packed s.startOp 0 = s.startOp := by
  have hhidden : packHidden s.startOp 0 = s.startOp.hidden := by simp [packHidden, Hidden.start]
  rw [packed, hhidden, List.take_zero, State.written_nil]

/-- Symbol `r` of the result is symbol `r % SPB` of byte `r / SPB`. -/
theorem pack_operand_getD {s : State} (hpos : 0 < spb s.params.B) {r : Nat} (hq : r / spb s.params.B < s.inlen.toNat) :
    (pack s.params.B s.operand).getD r 0 =
      packSymbol s.params.B (s.byteAt .inBuf (r / spb s.params.B)) (r % spb s.params.B) := by
  have hplace : r / spb s.params.B * spb s.params.B + r % spb s.params.B = r := Nat.div_add_mod' ..
  rw [← s.operand_getD 0 hq, ← pack_getD (by simpa using hq) (Nat.mod_lt r hpos), hplace]

theorem packCycle_packed {s : State} (hs : s.Inv) {r : Nat} (hr : r < s.inlen.toNat * spb s.params.B) :
    packCycle (packed s r) = .busy (packed s (r + 1)) := by
  have hpos : 0 < spb s.params.B := spb_pos (Params.legal_B hs.legal)
  have hq : r / spb s.params.B < s.inlen.toNat := Nat.div_lt_of_lt_mul (Nat.mul_comm .. ▸ hr)
  have hplace : r / spb s.params.B * spb s.params.B + r % spb s.params.B = r := Nat.div_add_mod' ..
  have hlen : r < (pack s.params.B s.operand).length := by rwa [pack_length, State.operand_length]
  calc packCycle (packed s r)
      = .busy (((packed s r).putOut (r / spb s.params.B * spb s.params.B + r % spb s.params.B)
          (packSymbol s.params.B (s.byteAt .inBuf (r / spb s.params.B)) (r % spb s.params.B))).withHidden
            ((packHidden s r).afterSymbol (spb s.params.B))) := packCycle_symbol (s := packed s r) hq
    _ = .busy (packed s (r + 1)) := by
      rw [hplace, ← pack_operand_getD hpos hq, ← packHidden_succ hpos, packed,
        State.written_putOut hs.outWf.1 hlen, packed]

theorem packCycle_packed_all {s : State} (hs : s.Inv) :
    packCycle (packed s (s.inlen.toNat * spb s.params.B)) =
      .done ((s.complete (pack s.params.B s.operand)).withHidden
        (packHidden s (s.inlen.toNat * spb s.params.B))) := by
  have hpos : 0 < spb s.params.B := spb_pos (Params.legal_B hs.legal)
  have hq : s.inlen.toNat * spb s.params.B / spb s.params.B = s.inlen.toNat := Nat.mul_div_cancel _ hpos
  have hlen : (pack s.params.B s.operand).length = s.inlen.toNat * spb s.params.B := by
    rw [pack_length, State.operand_length]
  calc packCycle (packed s (s.inlen.toNat * spb s.params.B))
      = .done ((packed s (s.inlen.toNat * spb s.params.B)).endOp .ok (s.inlen.toNat * spb s.params.B)) :=
        packCycle_end (s := packed s _) hq.ge
    _ = _ := by rw [packed, ← hlen, List.take_length, State.written_endOp]

/-- Settles O55: after `r` cycles the first `r` symbols stand in OUT, and after the last the sequencer completes. -/
theorem packSequencerAgrees : Obligations.PackSequencerAgrees := fun s hs =>
  State.sequencer_agrees (packed_zero s) (fun _ hr => packCycle_packed hs.startOp hr) (packCycle_packed_all hs.startOp)

/-! ### The UNPACK sequencer -/

/-- A cycle whose unit fills its group: the byte is written. -/
theorem unpackCycle_full {s : State} (hk : s.hidden.k < s.inlen.toNat) (ht : s.hidden.t + 1 = spb s.params.B) :
    unpackCycle s =
      .busy ((s.putOut s.hidden.q (joinStep s.params.B s.hidden.acc (s.byteAt .inBuf s.hidden.k))).withHidden
        { s.hidden with k := s.hidden.k + 1, q := s.hidden.q + 1, t := 0, acc := 0 }) :=
  (if_pos hk).trans (if_pos ht)

/-- A cycle whose unit does not fill its group: it goes into the accumulator. -/
theorem unpackCycle_partial {s : State} (hk : s.hidden.k < s.inlen.toNat) (ht : s.hidden.t + 1 ≠ spb s.params.B) :
    unpackCycle s =
      .busy (s.withHidden { s.hidden with
        k := s.hidden.k + 1, t := s.hidden.t + 1
        acc := joinStep s.params.B s.hidden.acc (s.byteAt .inBuf s.hidden.k) }) :=
  (if_pos hk).trans (if_neg ht)

/-- The cycle that completes. -/
theorem unpackCycle_end {s : State} (hk : s.inlen.toNat ≤ s.hidden.k) :
    unpackCycle s = .done (s.endOp .ok s.hidden.q) := if_neg (Nat.not_lt.mpr hk)

/-- The hidden state after `r` units: those of the group begun are in the accumulator (R84). -/
def unpackHidden (s : State) (r : Nat) : Hidden :=
  { s.hidden with
    k := r, q := r / spb s.params.B, t := r % spb s.params.B
    acc := joinByte s.params.B (groupUnits s.params.B s.operand (r / spb s.params.B) (r % spb s.params.B)) }

/-- The state after `r` units of UNPACK: the bytes of the whole groups are written. -/
def unpacked (s : State) (r : Nat) : State :=
  s.written ((unpack s.params.B s.operand).take (r / spb s.params.B)) (unpackHidden s r)

theorem unpacked_zero (s : State) : unpacked s.startOp 0 = s.startOp := by
  have hhidden : unpackHidden s.startOp 0 = s.startOp.hidden := by
    simp [unpackHidden, Hidden.start, groupUnits, joinByte]
  rw [unpacked, hhidden, Nat.zero_div, List.take_zero, State.written_nil]

/-- The accumulator after the next unit. -/
theorem joinStep_unpackHidden {s : State} {r : Nat} (hr : r < s.inlen.toNat) :
    joinStep s.params.B (unpackHidden s r).acc (s.byteAt .inBuf r) =
      joinByte s.params.B (groupUnits s.params.B s.operand (r / spb s.params.B) (r % spb s.params.B + 1)) := by
  have hplace : r / spb s.params.B * spb s.params.B + r % spb s.params.B = r := Nat.div_add_mod' ..
  rw [groupUnits_succ, joinByte_snoc, hplace, s.operand_getD 0 hr]
  rfl

theorem unpackHidden_succ_full {s : State} {r : Nat} (ht : r % spb s.params.B + 1 = spb s.params.B) :
    unpackHidden s (r + 1) =
      { unpackHidden s r with k := r + 1, q := r / spb s.params.B + 1, t := 0, acc := 0 } := by
  obtain ⟨hquot, hrem⟩ := div_mod_succ_of_last ht
  simp [unpackHidden, hquot, hrem, groupUnits, joinByte]

theorem unpackHidden_succ_partial {s : State} (hpos : 0 < spb s.params.B) {r : Nat} (hr : r < s.inlen.toNat)
    (ht : r % spb s.params.B + 1 ≠ spb s.params.B) :
    unpackHidden s (r + 1) =
      { unpackHidden s r with
        k := r + 1, t := r % spb s.params.B + 1
        acc := joinStep s.params.B (unpackHidden s r).acc (s.byteAt .inBuf r) } := by
  obtain ⟨hquot, hrem⟩ := div_mod_succ_of_inner hpos ht
  rw [joinStep_unpackHidden hr]
  simp [unpackHidden, hquot, hrem]

/-- A unit that fills its group: the byte it completes goes to OUT. -/
theorem unpackCycle_unpacked_full {s : State} (hs : s.Inv) {r : Nat} (hr : r < s.inlen.toNat)
    (ht : r % spb s.params.B + 1 = spb s.params.B) : unpackCycle (unpacked s r) = .busy (unpacked s (r + 1)) := by
  have hquot : (r + 1) / spb s.params.B = r / spb s.params.B + 1 := (div_mod_succ_of_last ht).1
  have hq : r / spb s.params.B < s.operand.length / spb s.params.B := by
    rw [State.operand_length, Nat.lt_iff_add_one_le, ← hquot]
    exact Nat.div_le_div_right hr
  have hbyte : joinStep s.params.B (unpackHidden s r).acc (s.byteAt .inBuf r) =
      (unpack s.params.B s.operand).getD (r / spb s.params.B) 0 := by
    rw [joinStep_unpackHidden hr, ht, unpack_getD (Params.legal_B hs.legal) hq]
  calc unpackCycle (unpacked s r)
      = .busy (((unpacked s r).putOut (r / spb s.params.B)
          (joinStep s.params.B (unpackHidden s r).acc (s.byteAt .inBuf r))).withHidden
            { unpackHidden s r with k := r + 1, q := r / spb s.params.B + 1, t := 0, acc := 0 }) :=
        unpackCycle_full (s := unpacked s r) hr ht
    _ = .busy (unpacked s (r + 1)) := by
      rw [hbyte, ← unpackHidden_succ_full ht, unpacked, State.written_putOut hs.outWf.1 (by rwa [unpack_length]),
        unpacked, hquot]

/-- A unit that does not fill its group: nothing is written. -/
theorem unpackCycle_unpacked_partial {s : State} (hs : s.Inv) {r : Nat} (hr : r < s.inlen.toNat)
    (ht : r % spb s.params.B + 1 ≠ spb s.params.B) : unpackCycle (unpacked s r) = .busy (unpacked s (r + 1)) := by
  have hpos : 0 < spb s.params.B := spb_pos (Params.legal_B hs.legal)
  have hquot : (r + 1) / spb s.params.B = r / spb s.params.B := (div_mod_succ_of_inner hpos ht).1
  calc unpackCycle (unpacked s r)
      = .busy ((unpacked s r).withHidden { unpackHidden s r with
          k := r + 1, t := r % spb s.params.B + 1
          acc := joinStep s.params.B (unpackHidden s r).acc (s.byteAt .inBuf r) }) :=
        unpackCycle_partial (s := unpacked s r) hr ht
    _ = .busy ((unpacked s r).withHidden (unpackHidden s (r + 1))) := by rw [unpackHidden_succ_partial hpos hr ht]
    _ = .busy (unpacked s (r + 1)) := by
      rw [unpacked, unpacked, hquot]
      rfl

theorem unpackCycle_unpacked {s : State} (hs : s.Inv) {r : Nat} (hr : r < s.inlen.toNat) :
    unpackCycle (unpacked s r) = .busy (unpacked s (r + 1)) :=
  (eq_or_ne (r % spb s.params.B + 1) (spb s.params.B)).elim (unpackCycle_unpacked_full hs hr)
    (unpackCycle_unpacked_partial hs hr)

theorem unpackCycle_unpacked_all (s : State) :
    unpackCycle (unpacked s s.inlen.toNat) =
      .done ((s.complete (unpack s.params.B s.operand)).withHidden (unpackHidden s s.inlen.toNat)) := by
  have hlen : (unpack s.params.B s.operand).length = s.inlen.toNat / spb s.params.B := by
    rw [unpack_length, State.operand_length]
  calc unpackCycle (unpacked s s.inlen.toNat)
      = .done ((unpacked s s.inlen.toNat).endOp .ok (s.inlen.toNat / spb s.params.B)) :=
        unpackCycle_end (s := unpacked s _) le_rfl
    _ = _ := by rw [unpacked, ← hlen, List.take_length, State.written_endOp]

/-- Settles O56: after `r` cycles the bytes of the whole groups among the first `r` units stand in OUT; a group begun is
in the accumulator and stays there when the sequencer completes. -/
theorem unpackSequencerAgrees : Obligations.UnpackSequencerAgrees := fun s hs =>
  State.sequencer_agrees (unpacked_zero s) (fun _ hr => unpackCycle_unpacked hs.startOp hr)
    (unpackCycle_unpacked_all s.startOp)

end Sys2Proof.Machine

/-! PROOFS. The parity codec (41_parity.md): rotations of a byte, the parity bytes as rotations of one another, `penc` and
`pdec`, the two operations, and their sequencers. -/

namespace Sys2Proof.Machine

/-! ### Rotations -/

/-- Bit `i` of a rotation by `r` to the left, which is one by `7 * r` to the right. -/
theorem getLsbD_rotl8 (b : Byte) (r : Nat) {i : Nat} (hi : i < 8) :
    (rotl8 b (r % 8)).getLsbD i = b.getLsbD ((i + 7 * r) % 8) := by
  rw [rotl8, BitVec.getLsbD_or, BitVec.getLsbD_shiftLeft, BitVec.getLsbD_ushiftRight]
  by_cases hwrap : i < r % 8
  · have hplace : (i + 7 * r) % 8 = 8 - r % 8 + i := by omega
    simp [hwrap, hplace]
  · have hplace : (i + 7 * r) % 8 = i - r % 8 := by omega
    simp [hwrap, hplace, hi, BitVec.getLsbD_of_ge b (8 - r % 8 + i) (by omega)]

/-- Rotation distributes over XOR (R91(b)). -/
theorem rotl8_xor (a b : Byte) (r : Nat) : rotl8 (a ^^^ b) (r % 8) = rotl8 a (r % 8) ^^^ rotl8 b (r % 8) := by
  refine BitVec.eq_of_getLsbD_eq fun i hi => ?_
  simp only [BitVec.getLsbD_xor, getLsbD_rotl8 _ r hi]

theorem rotl8_zero (r : Nat) : rotl8 0 r = 0 := by simp [rotl8]

/-- Two rotations are one (R91(b)). -/
theorem rotl8_rotl8 (b : Byte) (r k : Nat) : rotl8 (rotl8 b (r % 8)) (k % 8) = rotl8 b ((r + k) % 8) := by
  refine BitVec.eq_of_getLsbD_eq fun i hi => ?_
  have hplace : ((i + 7 * k) % 8 + 7 * r) % 8 = (i + 7 * (r + k)) % 8 := by omega
  rw [getLsbD_rotl8 _ k hi, getLsbD_rotl8 _ r (Nat.mod_lt _ (by decide)), getLsbD_rotl8 _ (r + k) hi, hplace]

/-! ### The parity bytes -/

/-- Beginning the rotations `k` later rotates the sum by `k`. -/
theorem parityFrom_add (r k : Nat) (p : List Byte) : parityFrom (r + k) p = rotl8 (parityFrom r p) (k % 8) := by
  induction p generalizing r with
  | nil => exact (rotl8_zero _).symm
  | cons b p ih => rw [parityFrom, parityFrom, rotl8_xor, rotl8_rotl8, ← ih, Nat.add_right_comm]

theorem parityByte_eq_rotl8 (p : List Byte) (i : Nat) : parityByte p i = rotl8 (parityByte p 0) (i % 8) := by
  simpa only [parityByte, Nat.zero_add] using parityFrom_add 0 i p

theorem parityByte_add_eight (p : List Byte) (i : Nat) : parityByte p (i + 8) = parityByte p i := by
  rw [parityByte_eq_rotl8 p (i + 8), Nat.add_mod_right, ← parityByte_eq_rotl8]

theorem parityFrom_zipWith_xor (r : Nat) {p p' : List Byte} (hlen : p.length = p'.length) :
    parityFrom r (List.zipWith (· ^^^ ·) p p') = parityFrom r p ^^^ parityFrom r p' := by
  induction p generalizing r p' with
  | nil =>
    obtain rfl := List.length_eq_zero_iff.mp hlen.symm
    exact BitVec.xor_self.symm
  | cons b p ih =>
    obtain ⟨b', p', rfl⟩ := List.exists_cons_of_length_eq_add_one hlen.symm
    rw [List.zipWith_cons_cons, parityFrom, parityFrom, parityFrom, rotl8_xor, ih _ (Nat.succ.inj hlen)]
    ac_rfl

theorem parityFrom_replicate_zero (r n : Nat) : parityFrom r (List.replicate n 0) = 0 := by
  induction n generalizing r with
  | zero => rfl
  | succ n ih =>
    rw [List.replicate_succ, parityFrom, rotl8_zero, ih]
    rfl

theorem parityByte_eq_of_zero {p p' : List Byte} (h : parityByte p 0 = parityByte p' 0) (i : Nat) :
    parityByte p i = parityByte p' i := by
  rw [parityByte_eq_rotl8 p, parityByte_eq_rotl8 p', h]

/-- Settles O12: rotation distributes over XOR and two rotations are one, so every parity byte is a rotation of `par[0]`
and the parity is linear; `01 00` and `00 80` have the same `par[0]`. -/
theorem parityLaws : Obligations.ParityLaws :=
  ⟨parityByte_add_eight, parityByte_eq_rotl8, fun _ _ hlen i => parityFrom_zipWith_xor i hlen,
    fun n i => parityFrom_replicate_zero i n, parityByte_eq_of_zero (by decide)⟩

theorem parity_nil (N : Nat) : parity N [] = List.replicate N 0 := by
  have hzero : parityByte [] = fun _ => 0 := rfl
  rw [parity, hzero, List.map_const', List.length_range]

theorem parity_getD {N i : Nat} (hi : i < N) (p : List Byte) : (parity N p).getD i 0 = parityByte p i := by
  simp [parity, hi]

/-! ### `penc` -/

theorem penc_getD_payload (N : Nat) {p : List Byte} {j : Nat} (hj : j < p.length) :
    (penc N p).getD j 0 = p.getD j 0 := List.getD_append _ _ _ _ hj

theorem penc_getD_parity (N : Nat) {p : List Byte} {j : Nat} (hj : p.length ≤ j) :
    (penc N p).getD j 0 = (parity N p).getD (j - p.length) 0 := List.getD_append_right _ _ _ _ hj

/-- The parity of the first `n` bytes as the XOR over their indices. -/
theorem parityFrom_take_eq_foldl (i : Nat) (p : List Byte) {n : Nat} (hn : n ≤ p.length) :
    parityFrom i (p.take n) =
      (List.range n).foldl (fun x j => x ^^^ rotl8 (p.getD j 0) ((i + j) % 8)) 0 := by
  induction n with
  | zero => rfl
  | succ n ih =>
    rw [← take_succ_getD hn, parityFrom_snoc, ih (Nat.le_of_succ_le hn), List.length_take_of_le (Nat.le_of_succ_le hn),
      List.range_succ, List.foldl_concat]

/-- Settles O11: the recursion of `parityFrom` and the XOR over the indices add the same terms. -/
theorem pencFunction : Obligations.PencFunction := fun N p =>
  ⟨penc_length N p, List.take_left, fun i hi => by
    rw [penc_getD_parity N (Nat.le_add_right ..), Nat.add_sub_cancel_left, parity_getD hi, parityByte,
      ← parityFrom_take_eq_foldl i p le_rfl, List.take_length]⟩

/-! ### `pdec` -/

theorem pdec_of_lt {N : Nat} {d : List Byte} (h : d.length < N) : pdec N d = none := if_pos h

theorem pdec_of_le {N : Nat} {d : List Byte} (h : N ≤ d.length) : pdec N d = some (d.take (d.length - N)) :=
  if_neg (Nat.not_lt.mpr h)

/-- The last `N` bytes are dropped whatever they hold (R95(b)). -/
theorem pdec_append {N : Nat} (p : List Byte) {z : List Byte} (hz : z.length = N) : pdec N (p ++ z) = some p := by
  have hlen : (p ++ z).length = p.length + N := by rw [List.length_append, hz]
  rw [pdec_of_le (hlen ▸ Nat.le_add_left ..), hlen, Nat.add_sub_cancel, List.take_left]

/-- Settles O13: `pdec` looks at nothing but the length. -/
theorem pdecStripsWithoutVerifying : Obligations.PdecStripsWithoutVerifying := fun N =>
  ⟨fun _ => pdec_of_lt, fun _ => pdec_of_le, fun _ => pdec_append [], fun p => pdec_append p (parity_length N p),
    fun p _ => pdec_append p⟩

/-! ### The two operations -/

theorem exec_penc (s : State) :
    exec .penc s = s.returnTested (s.inlen.toNat + s.params.N) (penc s.params.N s.operand) := rfl

theorem State.penc_operand_length (s : State) :
    (penc s.params.N s.operand).length = s.inlen.toNat + s.params.N := by rw [penc_length, State.operand_length]

/-- Settles O23: PENC tests its two lengths and returns `penc` of the operand, `N` bytes longer. -/
theorem pencRuns : Obligations.PencRuns :=
  ⟨by decide, fun s hs => hs.returnTested_runs s.penc_operand_length⟩

/-- An operand that fits IN and is shorter than `N` (R94). -/
def State.tooShort (s : State) : Prop := s.inlen.toNat ≤ s.params.inmax ∧ s.inlen.toNat < s.params.N

/-- The operand without its last `N` bytes, `d[0 .. INLEN - N)` (R94). -/
def State.stripped (s : State) : List Byte := s.operand.take (s.inlen.toNat - s.params.N)

theorem State.stripped_length (s : State) : s.stripped.length = s.inlen.toNat - s.params.N := by
  simp [State.stripped]

theorem exec_pdec_tooShort {s : State} (h : s.tooShort) : exec .pdec s = .next (s.raise .tooShort) := by
  obtain ⟨hin, hN⟩ := h
  have hpdec : pdec s.params.N s.operand = none := pdec_of_lt (by rwa [State.operand_length])
  simp only [exec, execPdec, State.operandFits hin, hpdec, Bool.false_eq_true, if_false]

theorem exec_pdec_not_tooShort {s : State} (h : ¬ s.tooShort) :
    exec .pdec s = s.returnTested (s.inlen.toNat - s.params.N) s.stripped := by
  rcases Nat.lt_or_ge s.params.inmax s.inlen.toNat with hlong | hin
  · rw [State.returnTested_tooLong (.inl hlong)]
    exact if_pos (s.operandTooLong_iff.mpr hlong)
  · have hN : s.params.N ≤ s.operand.length := by
      rw [State.operand_length]
      exact Nat.not_lt.mp fun hN => h ⟨hin, hN⟩
    have hpdec : pdec s.params.N s.operand = some s.stripped := by
      rw [pdec_of_le hN, State.operand_length, State.stripped]
    simp only [exec, execPdec, State.returnTested, hpdec]

/-- Settles O24: PDEC raises TooShort on a short operand that fits IN; on any other it tests its two lengths and returns
the operand without its last `N` bytes. -/
theorem pdecRuns : Obligations.PdecRuns := ⟨by decide, fun s hs => by
  obtain ⟨hfits, hlong, hframe⟩ := hs.returnTested_runs s.stripped_length
  refine ⟨fun hin hN hout => ?_, fun hin hN => ⟨_, exec_pdec_tooShort ⟨hin, hN⟩, s.raise_raises _⟩, fun h => ?_,
    fun t ht => ?_⟩
  · rw [exec_pdec_not_tooShort fun ⟨_, hshort⟩ => Nat.not_lt.mpr hN hshort]
    exact hfits hin hout
  · rw [exec_pdec_not_tooShort fun ⟨hin, hN⟩ => by omega]
    exact hlong h
  · by_cases hshort : s.tooShort
    · rw [exec_pdec_tooShort hshort] at ht
      cases ht
      exact ⟨s.raise_keepsOperand _, s.raise_keepsPixels _, s.raise_scanUnspecified _⟩
    · rw [exec_pdec_not_tooShort hshort] at ht
      exact hframe t ht⟩

/-! ### The PENC sequencer -/

/-- A cycle that takes a payload byte. -/
theorem pencCycle_payload {s : State} (hq : s.hidden.q < s.inlen.toNat) :
    pencCycle s =
      .busy ((s.putOut s.hidden.q (s.byteAt .inBuf s.hidden.q)).withHidden
        { s.hidden.absorb (s.byteAt .inBuf s.hidden.q) with q := s.hidden.q + 1 }) := if_pos hq

/-- A cycle that puts out an accumulator. -/
theorem pencCycle_parity {s : State} (hq : s.inlen.toNat ≤ s.hidden.q) (hk : s.hidden.k < s.params.N) :
    pencCycle s =
      .busy ((s.putOut (s.inlen.toNat + s.hidden.k) (s.hidden.par.getD s.hidden.k 0)).withHidden
        { s.hidden with k := s.hidden.k + 1 }) := (if_neg (Nat.not_lt.mpr hq)).trans (if_pos hk)

/-- The cycle that completes. -/
theorem pencCycle_end {s : State} (hq : s.inlen.toNat ≤ s.hidden.q) (hk : s.params.N ≤ s.hidden.k) :
    pencCycle s = .done (s.endOp .ok (s.inlen.toNat + s.params.N)) :=
  (if_neg (Nat.not_lt.mpr hq)).trans (if_neg (Nat.not_lt.mpr hk))

/-- The hidden state after `r` bytes of the result: payload bytes first, then accumulators (R90). -/
def pencHidden (s : State) (r : Nat) : Hidden :=
  { s.hidden with
    q := min r s.inlen.toNat, k := r - s.inlen.toNat
    par := parity s.params.N (s.operand.take r), phase := min r s.inlen.toNat % 8 }

/-- The state after `r` bytes of PENC. -/
def penced (s : State) (r : Nat) : State := s.written ((penc s.params.N s.operand).take r) (pencHidden s r)

theorem penced_zero (s : State) : penced s.startOp 0 = s.startOp := by
  have hhidden : pencHidden s.startOp 0 = s.startOp.hidden := by simp [pencHidden, Hidden.start, parity_nil]
  rw [penced, hhidden, List.take_zero, State.written_nil]

theorem pencHidden_succ_payload {s : State} {r : Nat} (hr : r < s.inlen.toNat) :
    pencHidden s (r + 1) = { (pencHidden s r).absorb (s.byteAt .inBuf r) with q := r + 1 } := by
  have hphase : (pencHidden s r).phase = r % 8 := by rw [pencHidden, Nat.min_eq_left hr.le]
  have hpar : ((pencHidden s r).absorb (s.byteAt .inBuf r)).par = parity s.params.N (s.operand.take (r + 1)) := by
    rw [← s.operand_getD 0 hr]
    exact Hidden.absorb_par (by rwa [State.operand_length]) rfl hphase
  have hk : r + 1 - s.inlen.toNat = r - s.inlen.toNat := by omega
  simp only [hpar, Hidden.absorb_phase, hphase, Nat.mod_add_mod]
  rw [pencHidden, hk, Nat.min_eq_left hr]
  rfl

theorem pencHidden_succ_parity {s : State} {r : Nat} (hr : s.inlen.toNat ≤ r) :
    pencHidden s (r + 1) = { pencHidden s r with k := r - s.inlen.toNat + 1 } := by
  have hlen : s.operand.length ≤ r := by rwa [State.operand_length]
  simp only [pencHidden, Nat.min_eq_right hr, Nat.min_eq_right (Nat.le_succ_of_le hr), List.take_of_length_le hlen,
    List.take_of_length_le (Nat.le_succ_of_le hlen), Nat.succ_sub hr]

theorem pencCycle_penced_payload {s : State} (hs : s.Inv) {r : Nat} (hr : r < s.inlen.toNat) :
    pencCycle (penced s r) = .busy (penced s (r + 1)) := by
  have hq : (penced s r).hidden.q = r := Nat.min_eq_left hr.le
  have hbyte : s.byteAt .inBuf r = (penc s.params.N s.operand).getD r 0 := by
    rw [penc_getD_payload _ (by rwa [State.operand_length]), s.operand_getD 0 hr]
  have hlen : r < (penc s.params.N s.operand).length := s.penc_operand_length ▸ Nat.lt_add_right _ hr
  have hcycle := pencCycle_payload (s := penced s r) (hq.trans_lt hr)
  rw [hq] at hcycle
  calc pencCycle (penced s r)
      = .busy (((penced s r).putOut r (s.byteAt .inBuf r)).withHidden
          { (pencHidden s r).absorb (s.byteAt .inBuf r) with q := r + 1 }) := hcycle
    _ = .busy (penced s (r + 1)) := by
      rw [← pencHidden_succ_payload hr, hbyte, penced, State.written_putOut hs.outWf.1 hlen, penced]

theorem pencCycle_penced_parity {s : State} (hs : s.Inv) {r : Nat} (hr : s.inlen.toNat ≤ r)
    (hend : r < s.inlen.toNat + s.params.N) : pencCycle (penced s r) = .busy (penced s (r + 1)) := by
  have hq : (penced s r).hidden.q = s.inlen.toNat := Nat.min_eq_right hr
  have hlen : s.operand.length ≤ r := by rwa [State.operand_length]
  have hbyte : (pencHidden s r).par.getD (r - s.inlen.toNat) 0 = (penc s.params.N s.operand).getD r 0 := by
    rw [penc_getD_parity _ hlen, State.operand_length, pencHidden, List.take_of_length_le hlen]
  have hplace : s.inlen.toNat + (r - s.inlen.toNat) = r := Nat.add_sub_of_le hr
  calc pencCycle (penced s r)
      = .busy (((penced s r).putOut (s.inlen.toNat + (r - s.inlen.toNat))
          ((pencHidden s r).par.getD (r - s.inlen.toNat) 0)).withHidden
            { pencHidden s r with k := r - s.inlen.toNat + 1 }) :=
        pencCycle_parity (s := penced s r) hq.ge (Nat.sub_lt_left_of_lt_add hr hend)
    _ = .busy (penced s (r + 1)) := by
      rw [hplace, hbyte, ← pencHidden_succ_parity hr, penced, State.written_putOut hs.outWf.1, penced]
      rwa [State.penc_operand_length]

theorem pencCycle_penced {s : State} (hs : s.Inv) {r : Nat} (hr : r < s.inlen.toNat + s.params.N) :
    pencCycle (penced s r) = .busy (penced s (r + 1)) :=
  (Nat.lt_or_ge r s.inlen.toNat).elim (pencCycle_penced_payload hs) fun hge => pencCycle_penced_parity hs hge hr

theorem pencCycle_penced_all (s : State) :
    pencCycle (penced s (s.inlen.toNat + s.params.N)) =
      .done ((s.complete (penc s.params.N s.operand)).withHidden (pencHidden s (s.inlen.toNat + s.params.N))) := by
  calc pencCycle (penced s (s.inlen.toNat + s.params.N))
      = .done ((penced s (s.inlen.toNat + s.params.N)).endOp .ok (s.inlen.toNat + s.params.N)) :=
        pencCycle_end (s := penced s _) (Nat.min_eq_right (Nat.le_add_right ..)).ge (Nat.add_sub_cancel_left ..).ge
    _ = _ := by rw [penced, ← State.penc_operand_length, List.take_length, State.written_endOp]

/-! ### The PDEC sequencer -/

/-- A copy reads its source at the indices below its length only. -/
theorem copyCycle_congr {n : Nat} {src src' : Nat → Byte} (h : ∀ i < n, src i = src' i) (s : State) :
    copyCycle n src s = copyCycle n src' s := by
  unfold copyCycle
  dsimp only
  split
  · rename_i hq
    rw [h _ hq]
  · rfl

theorem copied_zero (s : State) (p : List Byte) : copied s.startOp p 0 = s.startOp := by
  simp [copied, State.startOp, Hidden.start]

theorem State.stripped_getD (s : State) {i : Nat} (hi : i < s.inlen.toNat - s.params.N) :
    s.stripped.getD i 0 = s.byteAt .inBuf i := by
  rw [← s.operand_getD 0 (hi.trans_le (Nat.sub_le ..)), State.stripped, List.getD, List.getElem?_take_of_lt hi,
    List.getD]

/-- A cycle of PDEC during its copy. -/
theorem pdecCycle_eq_copyCycle (s : State) (r : Nat) :
    pdecCycle (copied s s.stripped r) =
      copyCycle s.stripped.length (fun i => s.stripped.getD i 0) (copied s s.stripped r) := by
  rw [State.stripped_length]
  exact copyCycle_congr (fun i hi => (s.stripped_getD hi).symm) _

theorem pdecCycle_copied {s : State} (hs : s.Inv) {r : Nat} (hr : r < s.inlen.toNat - s.params.N) :
    pdecCycle (copied s s.stripped r) = .busy (copied s s.stripped (r + 1)) := by
  rw [pdecCycle_eq_copyCycle, copyCycle_copied hs.outWf.1 (by rwa [State.stripped_length])]

theorem pdecCycle_copied_all (s : State) :
    pdecCycle (copied s s.stripped (s.inlen.toNat - s.params.N)) =
      .done ((s.complete s.stripped).withHidden { s.hidden with q := s.inlen.toNat - s.params.N }) := by
  rw [pdecCycle_eq_copyCycle, ← State.stripped_length, copyCycle_end, State.withHidden]

theorem pdecSequencer_tooShort {s : State} (h : s.tooShort) (n : Nat) :
    pdecSequencer n s = .done (s.raise .tooShort) := by
  obtain ⟨hin, hN⟩ := h
  simp only [pdecSequencer, State.operandFits hin, hN, Bool.false_eq_true, if_false, if_true]

theorem pdecSequencer_not_tooShort {s : State} (h : ¬ s.tooShort) (n : Nat) :
    pdecSequencer n s =
      if s.operandTooLong || s.resultTooLong (s.inlen.toNat - s.params.N) then .done (s.raise .operandTooLong)
      else Cycle.run pdecCycle n s := by
  rcases Nat.lt_or_ge s.params.inmax s.inlen.toNat with hlong | hin
  · simp only [pdecSequencer, s.operandTooLong_iff.mpr hlong, Bool.true_or, if_true]
  · have hN : ¬ s.inlen.toNat < s.params.N := fun hN => h ⟨hin, hN⟩
    simp only [pdecSequencer, State.operandFits hin, hN, Bool.false_or, Bool.false_eq_true, if_false]

/-- On an operand that is not too short the PDEC sequencer tests the lengths and copies. -/
theorem State.Inv.pdecSequencer_agrees {s : State} (hs : s.Inv) (h : ¬ s.startOp.tooShort) :
    (∃ t h, exec .pdec s.startOp = .next t ∧
      pdecSequencer (s.inlen.toNat - s.params.N + 1) s.startOp = .done { t with hidden := h }) ∧
    (s.inlen.toNat ≤ s.params.inmax → s.inlen.toNat - s.params.N ≤ s.params.outmax →
      ∃ u, pdecSequencer (s.inlen.toNat - s.params.N) s.startOp = .busy u) := by
  simp only [exec_pdec_not_tooShort h, pdecSequencer_not_tooShort h]
  exact State.sequencer_agrees (copied_zero s s.startOp.stripped) (fun _ hr => pdecCycle_copied hs.startOp hr)
    (pdecCycle_copied_all s.startOp)

/-- Settles O57: after `r` cycles the first `r` bytes of the result stand in OUT; PENC's accumulators hold the parity of
the payload bytes taken so far, and PDEC copies what is not dropped or raises TooShort. -/
theorem paritySequencersAgree : Obligations.ParitySequencersAgree := fun s hs => by
  obtain ⟨hpenc, hpencBusy⟩ := State.sequencer_agrees (n := s.inlen.toNat + s.params.N) (penced_zero s)
    (fun _ hr => pencCycle_penced hs.startOp hr) (pencCycle_penced_all s.startOp)
  refine ⟨hpenc, hpencBusy, ?_, fun hin hN hout => ?_⟩
  · by_cases hshort : s.startOp.tooShort
    · exact ⟨_, s.startOp.hidden, exec_pdec_tooShort hshort, pdecSequencer_tooShort hshort _⟩
    · exact (hs.pdecSequencer_agrees hshort).1
  · exact (hs.pdecSequencer_agrees fun hshort => Nat.not_lt.mpr hN hshort.2).2 hin hout

end Sys2Proof.Machine

/-! PROOFS. The pixel buffer (42_pixel_buffer.md): `embed` and `xtract` slot by slot and as inverses of one another,
PIX as the byte sequence it holds, INGEST, EMBED and XTRACT, and the sequencers of the operations that write or read
PIX. -/

namespace Sys2Proof.Machine

/-! ### Slots (R99) -/

theorem lt_slots_iff {n k : Nat} : k < slots n ↔ slotAddr k < n := by
  simp only [slots, slotAddr]
  omega

/-- Past the last slot the pointer is past the buffer. -/
theorem le_slotAddr_slots (n : Nat) : n ≤ slotAddr (slots n) :=
  Nat.not_lt.mp fun hlt => Nat.lt_irrefl _ (lt_slots_iff.mpr hlt)

/-- Settles O14: the offsets `2 + 4k` below `n`, counted. -/
theorem slotsFunction : Obligations.SlotsFunction :=
  ⟨fun _ _ => lt_slots_iff, fun _ => rfl, fun n hn => by simp only [slots]; omega, by decide⟩

/-! ### `embed` and `xtract` -/

/-- The writer leaves every byte that is not the blue byte of a slot it has a symbol for (R103). -/
theorem embed_getD_other (B : Nat) (X y : List Byte) {a : Nat} (ha : ∀ k < y.length, a ≠ slotAddr k) :
    (embed B X y).getD a 0 = X.getD a 0 := by
  induction X using quad_induction generalizing y a with
  | short X h => rw [embed_short h]
  | three r g b =>
    cases y with
    | nil => rfl
    | cons u y =>
      match a with
      | 0 | 1 | _ + 3 => rfl
      | 2 => exact absurd rfl (ha 0 (Nat.succ_pos _))
  | quad r g b a' X ih =>
    cases y with
    | nil => rfl
    | cons u y =>
      match a with
      | 0 | 1 | 3 => rfl
      | 2 => exact absurd rfl (ha 0 (Nat.succ_pos _))
      | a + 4 =>
        refine ih y fun k hk heq => ha (k + 1) (Nat.succ_lt_succ hk) ?_
        simp only [slotAddr] at heq ⊢
        omega

theorem getD_take {y : List Byte} {c k : Nat} (hk : k < c) : (y.take c).getD k 0 = y.getD k 0 := by
  rw [List.getD, List.getElem?_take_of_lt hk, List.getD]

/-- Settles O15: slot by slot for the symbols written, and byte by byte for the rest. -/
theorem embedFunction : Obligations.EmbedFunction := by
  intro B _ X y c hc
  obtain ⟨hy, hX⟩ := Nat.le_min.mp hc
  have hlen : (y.take c).length = c := List.length_take_of_le hy
  refine ⟨embed_length B X _, fun k hk => ?_, fun i hi => embed_getD_other B X _ (hlen.symm ▸ hi)⟩
  rw [← getD_take (y := y) hk]
  exact embed_getD_slot B (hlen.symm ▸ hk) (hk.trans_le hX)

/-- Settles O16: one symbol for each slot, its low `B` bits. -/
theorem xtractFunction : Obligations.XtractFunction := fun B _ X =>
  ⟨xtract_length B X, fun _ => xtract_getD B X⟩

/-- Writing a symbol twice is writing it once. -/
theorem embedByte_embedByte (B : Nat) (x u : Byte) : embedByte B (embedByte B x u) u = embedByte B x u := by
  rw [embedByte, embedByte_and_high, embedByte]

/-- Writing the symbol a blue byte holds changes nothing. -/
theorem embedByte_symbolOf (B : Nat) (x : Byte) : embedByte B x (symbolOf B x) = x := by
  have hhigh : (0xFF : Byte) - mask B = ~~~ mask B := BitVec.allOnes_sub_eq_not (mask B)
  rw [embedByte, symbolOf, symbolOf, hhigh]
  ext j
  simp only [BitVec.getElem_and, BitVec.getElem_or, BitVec.getElem_not]
  cases (mask B)[j] <;> simp

theorem embed_embed (B : Nat) (X y : List Byte) : embed B (embed B X y) y = embed B X y := by
  induction X using quad_induction generalizing y with
  | short X h => rw [embed_short h, embed_short h]
  | three r g b =>
    cases y with
    | nil => rfl
    | cons u y => rw [embed_three, embed_three, embedByte_embedByte]
  | quad r g b a X ih =>
    cases y with
    | nil => rfl
    | cons u y => rw [embed_quad, embed_quad, embedByte_embedByte, ih]

theorem embed_xtract (B : Nat) (X : List Byte) : embed B X (xtract B X) = X := by
  induction X using quad_induction with
  | short X h => exact embed_short h B _
  | three r g b => rw [xtract, embed_three, embedByte_symbolOf]
  | quad r g b a X ih => rw [xtract, embed_quad, embedByte_symbolOf, ih]

/-- A slot the writer has a symbol for reads as that symbol. -/
theorem xtract_embed_getD (B : Nat) {X y : List Byte} {k : Nat} (hy : k < y.length) (hX : k < slots X.length) :
    (xtract B (embed B X y)).getD k 0 = symbolOf B (y.getD k 0) := by
  rw [xtract_getD _ _ (by rwa [embed_length]), embed_getD_slot B hy hX, symbolOf_embedByte]

/-- A slot the writer has no symbol for reads as before. -/
theorem xtract_embed_getD_other (B : Nat) (X : List Byte) {y : List Byte} {k : Nat} (hy : y.length ≤ k) :
    (xtract B (embed B X y)).getD k 0 = (xtract B X).getD k 0 := by
  rcases Nat.lt_or_ge k (slots X.length) with hX | hX
  · have hother : ∀ j < y.length, slotAddr k ≠ slotAddr j := by
      simp only [slotAddr]
      omega
    rw [xtract_getD _ _ (by rwa [embed_length]), embed_getD_other B X y hother, xtract_getD _ _ hX]
  · rw [List.getD_eq_default _ _ (by rwa [xtract_length, embed_length]),
      List.getD_eq_default _ _ (by rwa [xtract_length])]

/-- Settles O17: (a) and (b) slot by slot, (c) and (d) by quads. -/
theorem writerReaderLaws : Obligations.WriterReaderLaws := by
  intro B _ X y c hc
  obtain ⟨hy, hX⟩ := Nat.le_min.mp hc
  have hlen : (y.take c).length = c := List.length_take_of_le hy
  refine ⟨fun k hk => ?_, fun k hk => xtract_embed_getD_other B X (hlen.trans_le hk), embed_embed B X _,
    embed_xtract B X⟩
  rw [← getD_take (y := y) hk]
  exact xtract_embed_getD B (hlen.symm ▸ hk) (hk.trans_le hX)

/-! ### PIX as the byte sequence held -/

/-- PIX in canonical form lists a byte exactly where it is not 0. -/
theorem Memory.read_pix {m : Memory} (hm : m.wf .pix) (a : Nat) :
    Memory.read m a = if (Memory.read m a).getD 0 = 0 then none else some ((Memory.read m a).getD 0) := by
  cases hread : Memory.read m a with
  | none => rfl
  | some b =>
    have hne : b ≠ 0 := fun hb => hm.2 _ ((Memory.read_eq_some_iff hm.1 a b).mp hread) (by simp [hb])
    exact (if_neg hne).symm

/-- So a byte of PIX determines what is listed. -/
theorem Memory.read_pix_congr {m n : Memory} (hm : m.wf .pix) (hn : n.wf .pix) {a : Nat}
    (h : (Memory.read m a).getD 0 = (Memory.read n a).getD 0) : Memory.read m a = Memory.read n a := by
  rw [Memory.read_pix hm, Memory.read_pix hn, h]

/-- The buffer held is all there is of PIX. -/
theorem State.Inv.pixMem_eq {s : State} (h : s.Inv) : s.pixMem = Memory.ofBytes .pix 0 s.pixels := by
  have hwf := Memory.ofBytes_wf .pix 0 s.pixels
  refine Memory.ext_of_rising h.pixWf.1 hwf.1 fun a => Memory.read_pix_congr h.pixWf hwf ?_
  have hlen : s.pixels.length ≤ s.pixlen.toNat := s.pixels_length.le
  calc s.byteAt .pix a = s.pixels.getD a 0 := h.byteAt_pix a
    _ = (s.withPixels s.pixels).pixels.getD a 0 := by rw [State.withPixels_pixels _ _ s.pixels_length]
    _ = (s.withPixels s.pixels).byteAt .pix a := ((h.withPixels hlen).byteAt_pix a).symm

theorem State.Inv.withPixels_pixels {s : State} (h : s.Inv) : s.withPixels s.pixels = s := by
  rw [State.withPixels, ← h.pixMem_eq]

/-- A byte of PIX after a buffer of the same length has been written. -/
theorem State.Inv.byteAt_withPixels {s : State} (h : s.Inv) {X : List Byte} (hX : X.length = s.pixlen.toNat) (a : Nat) :
    (s.withPixels X).byteAt .pix a = X.getD a 0 := by
  rw [(h.withPixels hX.le).byteAt_pix, State.withPixels_pixels _ _ hX]

/-! ### INGEST -/

/-- The state with the operand as the buffer held (R101). -/
def State.withIngested (s : State) : State :=
  { s with pixlen := s.inlen, ingested := true }.withPixels s.operand

theorem exec_ingest_fits {s : State} (hin : s.inlen.toNat ≤ s.params.inmax) (hpix : s.inlen.toNat ≤ s.params.pixmax) :
    exec .ingest s = .next (s.withIngested.complete []) :=
  (if_neg (ne_true_of_eq_false (State.operandFits hin))).trans (if_neg (Nat.not_lt.mpr hpix))

theorem exec_ingest_tooLong {s : State} (h : s.params.inmax < s.inlen.toNat ∨ s.params.pixmax < s.inlen.toNat) :
    exec .ingest s = .next (s.raise .operandTooLong) := by
  rw [← s.operandTooLong_iff] at h
  rcases h with hin | hpix
  · exact if_pos hin
  · simp [exec, execIngest, hpix]

theorem State.withIngested_pixels (s : State) : s.withIngested.pixels = s.operand :=
  State.withPixels_pixels { s with pixlen := s.inlen, ingested := true } _ s.operand_length

theorem State.withIngested_byteAt (s : State) {i : Nat} (hi : i < s.inlen.toNat) :
    s.withIngested.byteAt .pix i = s.byteAt .inBuf i := by
  rw [← s.withIngested.pixels_getD 0 hi, s.withIngested_pixels, s.operand_getD 0 hi]

theorem State.lengths_ingest_or (s : State) :
    (s.inlen.toNat ≤ s.params.inmax ∧ s.inlen.toNat ≤ s.params.pixmax) ∨
      (s.params.inmax < s.inlen.toNat ∨ s.params.pixmax < s.inlen.toNat) := by omega

/-- Settles O27: where both tests pass the operand is the buffer held, of whatever length; where not, PIX is as
before. -/
theorem ingestRuns : Obligations.IngestRuns := by
  refine ⟨by decide, fun s hs => ⟨fun hin hpix => ?_, fun h => ?_, fun t ht => ?_⟩⟩
  · exact ⟨_, exec_ingest_fits hin hpix, { State.complete_returns hs.outWf.1 (by simp) with }, rfl, rfl,
      fun i => s.withIngested_byteAt, s.withIngested_pixels⟩
  · exact ⟨_, exec_ingest_tooLong h, s.raise_raises _, s.raise_keepsPixels _⟩
  · rcases s.lengths_ingest_or with ⟨hin, hpix⟩ | h
    · rw [exec_ingest_fits hin hpix] at ht
      cases ht
      exact ⟨{ State.complete_keepsOperand _ _ with }, { State.complete_scanUnspecified _ _ with }, rfl⟩
    · rw [exec_ingest_tooLong h] at ht
      cases ht
      exact ⟨s.raise_keepsOperand _, s.raise_scanUnspecified _, rfl⟩

/-! ### EMBED -/

/-- The buffer held with the symbols `y` in its first slots (R103). -/
def State.withSymbols (s : State) (y : List Byte) : State := s.withPixels (embed s.params.B s.pixels y)

theorem State.embed_pixels_length (s : State) (y : List Byte) :
    (embed s.params.B s.pixels y).length = s.pixlen.toNat := by rw [embed_length, State.pixels_length]

/-- A slot with a symbol. -/
theorem State.Inv.byteAt_withSymbols_slot {s : State} (h : s.Inv) {y : List Byte} {k : Nat} (hy : k < y.length)
    (hk : k < slots s.pixlen.toNat) :
    (s.withSymbols y).byteAt .pix (slotAddr k) = embedByte s.params.B (s.byteAt .pix (slotAddr k)) (y.getD k 0) := by
  rw [State.withSymbols, h.byteAt_withPixels (s.embed_pixels_length y),
    embed_getD_slot _ hy (by rwa [State.pixels_length]), h.byteAt_pix]

/-- Any other byte of PIX. -/
theorem State.Inv.read_withSymbols_other {s : State} (h : s.Inv) {y : List Byte} {a : Nat}
    (ha : ∀ k < y.length, a ≠ slotAddr k) : Memory.read (s.withSymbols y).pixMem a = Memory.read s.pixMem a := by
  refine Memory.read_pix_congr (h.withPixels (s.embed_pixels_length y).le).pixWf h.pixWf ?_
  calc (s.withSymbols y).byteAt .pix a = (embed s.params.B s.pixels y).getD a 0 :=
        h.byteAt_withPixels (s.embed_pixels_length y) a
    _ = s.byteAt .pix a := by rw [embed_getD_other _ _ _ ha, h.byteAt_pix]

theorem exec_embed_fits {s : State} (h : s.inlen.toNat ≤ s.params.inmax) :
    exec .embed s = .next (s.writeSymbols s.operand) :=
  if_neg (ne_true_of_eq_false (State.operandFits h))

theorem exec_embed_tooLong {s : State} (h : s.params.inmax < s.inlen.toNat) :
    exec .embed s = .next (s.raise .operandTooLong) := if_pos (s.operandTooLong_iff.mpr h)

theorem State.writeSymbols_keepsOperand (s : State) (y : List Byte) : s.KeepsOperand (s.writeSymbols y) := by
  rcases s.writeSymbols_cases y with hw | ⟨z, hw⟩ | ⟨z, hw⟩ <;> rw [hw]
  · exact s.raise_keepsOperand _
  · exact { State.raise_keepsOperand _ _ with }
  · exact { State.complete_keepsOperand _ _ with }

theorem State.writeSymbols_scanUnspecified (s : State) (y : List Byte) : s.ScanUnspecified (s.writeSymbols y) := by
  rcases s.writeSymbols_cases y with hw | ⟨z, hw⟩ | ⟨z, hw⟩ <;> rw [hw]
  · exact s.raise_scanUnspecified _
  · exact { State.raise_scanUnspecified _ _ with }
  · exact { State.complete_scanUnspecified _ _ with }

/-- Settles O28, by the three outcomes of the writer: the symbols that have a slot stand in it, and with `ATOMIC = 1`
none where one has no slot. -/
theorem embedRuns : Obligations.EmbedRuns := by
  refine ⟨by decide, fun s hs => ⟨fun hin hfit => ?_, fun hin hover hatomic => ?_, fun hin hover hatomic => ?_,
    fun hlong => ?_, fun t ht => ?_⟩⟩
  · have hslots : s.operand.length ≤ slots s.pixlen.toNat := s.operand_length.trans_le hfit
    refine ⟨_, exec_embed_fits hin, ?_⟩
    rw [State.writeSymbols_fits s hslots]
    refine ⟨{ State.complete_returns hs.outWf.1 (by simp) with }, fun k hk => ?_, fun a ha => ?_⟩
    · rw [← s.operand_getD 0 hk]
      exact hs.byteAt_withSymbols_slot (s.operand_length.symm ▸ hk) (hk.trans_le hfit)
    · exact hs.read_withSymbols_other (s.operand_length.symm ▸ ha)
  · refine ⟨_, exec_embed_fits hin, ?_⟩
    rw [State.writeSymbols_atomic s (s.operand_length.symm ▸ hover) hatomic]
    exact ⟨s.raise_raises _, s.raise_keepsPixels _⟩
  · have hlen : (s.operand.take (slots s.pixlen.toNat)).length = slots s.pixlen.toNat :=
      List.length_take_of_le (s.operand_length.symm ▸ hover.le)
    refine ⟨_, exec_embed_fits hin, ?_⟩
    rw [State.writeSymbols_partial s (s.operand_length.symm ▸ hover) hatomic]
    refine ⟨State.raise_raises _ _, fun k hk => ?_, fun a ha => ?_⟩
    · rw [← s.operand_getD 0 (hk.trans hover), ← getD_take hk]
      exact hs.byteAt_withSymbols_slot (hlen.symm ▸ hk) hk
    · exact hs.read_withSymbols_other (hlen.symm ▸ ha)
  · exact ⟨_, exec_embed_tooLong hlong, s.raise_raises _, s.raise_keepsPixels _⟩
  · rcases Nat.lt_or_ge s.params.inmax s.inlen.toNat with hlong | hin
    · rw [exec_embed_tooLong hlong] at ht
      cases ht
      exact ⟨s.raise_keepsOperand _, s.raise_scanUnspecified _, rfl, rfl⟩
    · rw [exec_embed_fits hin] at ht
      cases ht
      exact ⟨s.writeSymbols_keepsOperand _, s.writeSymbols_scanUnspecified _, s.writeSymbols_pixlen _,
        (s.writeSymbols_frame _).2.1⟩

/-! ### XTRACT -/

theorem exec_xtract_fits {s : State} (h : slots s.pixlen.toNat ≤ s.params.outmax) :
    exec .xtract s = .next (s.complete (xtract s.params.B s.pixels)) :=
  if_neg (ne_true_of_eq_false (State.resultFits h))

theorem exec_xtract_tooLong {s : State} (h : s.params.outmax < slots s.pixlen.toNat) :
    exec .xtract s = .next (s.raise .operandTooLong) := if_pos ((s.resultTooLong_iff _).mpr h)

theorem State.xtract_pixels_length (s : State) : (xtract s.params.B s.pixels).length = slots s.pixlen.toNat := by
  rw [xtract_length, State.pixels_length]

theorem State.xtract_pixels_getD (s : State) {k : Nat} (hk : k < slots s.pixlen.toNat) :
    (xtract s.params.B s.pixels).getD k 0 = symbolOf s.params.B (s.byteAt .pix (slotAddr k)) := by
  rw [xtract_getD _ _ (by rwa [State.pixels_length]), s.pixels_getD 0 (slotAddr_lt hk)]

/-- Settles O29: XTRACT tests the length of its result and returns the symbol of every slot. -/
theorem xtractRuns : Obligations.XtractRuns := by
  refine ⟨by decide, fun s hs =>
    ⟨fun hfit => ?_, fun h => ⟨_, exec_xtract_tooLong h, s.raise_raises _⟩, fun t ht => ?_⟩⟩
  · have hoff : s.params.outmax < 2 ^ 32 := Nat.lt_of_le_pred (by decide) (Params.legal_bounds hs.legal).2.1
    have hreturns := State.complete_returns hs.outWf.1 (res := xtract s.params.B s.pixels)
      (s.xtract_pixels_length.trans_le hfit |>.trans_lt hoff)
    refine ⟨_, exec_xtract_fits hfit, hreturns, hreturns.outlen.trans s.xtract_pixels_length, fun k hk => ?_⟩
    rw [hreturns.outBytes k (s.xtract_pixels_length.symm ▸ hk), s.xtract_pixels_getD hk, symbolOf]
  · rcases Nat.lt_or_ge s.params.outmax (slots s.pixlen.toNat) with hlong | hfit
    · rw [exec_xtract_tooLong hlong] at ht
      cases ht
      exact ⟨s.raise_keepsOperand _, s.raise_keepsPixels _, s.raise_scanUnspecified _⟩
    · rw [exec_xtract_fits hfit] at ht
      cases ht
      exact ⟨s.complete_keepsOperand _, s.complete_keepsPixels _, s.complete_scanUnspecified _⟩

/-! ### PIX while a sequencer writes symbols -/

theorem slotAddr_succ (k : Nat) : slotAddr (k + 1) = slotAddr k + 4 := rfl

/-- The next symbol into its slot (R106). -/
theorem embed_take_succ (B : Nat) {X y : List Byte} {r : Nat} (hy : r < y.length) (hX : r < slots X.length) :
    (embed B X (y.take r)).set (slotAddr r) (embedByte B (X.getD (slotAddr r) 0) (y.getD r 0)) =
      embed B X (y.take (r + 1)) := by
  induction X using quad_induction generalizing y r with
  | short X h => simp only [slots] at hX; omega
  | three x g b =>
    obtain rfl : r = 0 := by simp only [slots, List.length_cons, List.length_nil] at hX; omega
    cases y with
    | nil => exact absurd hy (Nat.not_lt_zero 0)
    | cons u y => rfl
  | quad x g b a X ih =>
    cases y with
    | nil => exact absurd hy (Nat.not_lt_zero r)
    | cons u y =>
      cases r with
      | zero =>
        rw [List.take_zero, embed_nil, List.take_succ_cons, List.take_zero, embed_quad, embed_nil]
        rfl
      | succ r =>
        rw [List.take_succ_cons, List.take_succ_cons, embed_quad, embed_quad,
          ← ih (Nat.lt_of_succ_lt_succ hy) (by simp only [slots, List.length_cons] at hX ⊢; omega)]
        rfl

/-- One byte stored into a whole buffer. -/
theorem Memory.store_ofBytes_set (sp : Space) {X : List Byte} {i : Nat} (hi : i < X.length) (b : Byte) :
    Memory.store sp (Memory.ofBytes sp 0 X) i [b] = Memory.ofBytes sp 0 (X.set i b) := by
  have hrising := Memory.ofBytes_rising sp 0 X
  refine Memory.ext_of_rising (Memory.store_rising hrising i [b]) (Memory.ofBytes_rising sp 0 _) fun a => ?_
  rw [Memory.read_ofBytes]
  by_cases ha : a = i
  · subst ha
    rw [Memory.read_store_inside hrising le_rfl (Nat.lt_succ_self a), List.getElem?_set_self hi]
    simp [Option.filter]
  · have hout : a < i ∨ i + [b].length ≤ a := by simp only [List.length_singleton]; omega
    rw [Memory.read_store_outside hrising hout, Memory.read_ofBytes, List.getElem?_set_ne (Ne.symm ha)]

/-- Symbol `r` after the first `r`: one store of a sequencer. -/
theorem State.Inv.withSymbols_putPix {s : State} (h : s.Inv) {y : List Byte} {r : Nat} (hy : r < y.length)
    (hr : r < slots s.pixlen.toNat) (hid hid' : Hidden) :
    (((s.withSymbols (y.take r)).withHidden hid).putPix (slotAddr r)
      (embedByte s.params.B ((s.withSymbols (y.take r)).byteAt .pix (slotAddr r)) (y.getD r 0))).withHidden hid' =
        (s.withSymbols (y.take (r + 1))).withHidden hid' := by
  have hlen : (y.take r).length = r := List.length_take_of_le hy.le
  have hbyte : (s.withSymbols (y.take r)).byteAt .pix (slotAddr r) = s.pixels.getD (slotAddr r) 0 := by
    rw [← h.byteAt_pix]
    refine congrArg (Option.getD · 0) (h.read_withSymbols_other fun k hk => ?_)
    simp only [slotAddr]
    omega
  have hstore := Memory.store_ofBytes_set .pix ((s.embed_pixels_length (y.take r)).symm ▸ slotAddr_lt hr)
    (embedByte s.params.B (s.pixels.getD (slotAddr r) 0) (y.getD r 0))
  rw [embed_take_succ _ hy (by rwa [State.pixels_length])] at hstore
  rw [hbyte]
  simp only [State.withSymbols, State.withPixels, State.putPix, State.withHidden, hstore]

/-- Before the first symbol PIX is as it was. -/
theorem State.Inv.withSymbols_nil {s : State} (h : s.Inv) : s.withSymbols [] = s := by
  rw [State.withSymbols, embed_nil, h.withPixels_pixels]

theorem State.complete_nil (s : State) : s.complete [] = s.endOp .ok 0 := by
  rw [State.complete, Memory.store_nil_bytes, List.length_nil]

/-! ### Sequencers that write symbols -/

/-- The tests of EMBED and INJECT, for `m` symbols, before the cycles `run` (R104, R129). -/
def State.writerTested (s : State) (m : Nat) (run : Cycle) : Cycle :=
  if s.operandTooLong then .done (s.raise .operandTooLong)
  else if s.params.atomic && decide (slots s.pixlen.toNat < m) then .done (s.raise .capacityExceeded)
  else run

theorem embedSequencer_eq (n : Nat) (s : State) :
    embedSequencer n s = s.writerTested s.inlen.toNat (Cycle.run embedCycle n s) := rfl

theorem injectSequencer_eq (n : Nat) (s : State) :
    injectSequencer n s =
      s.writerTested ((8 + s.inlen.toNat + s.params.N) * spb s.params.B) (Cycle.run injectCycle n s) := rfl

theorem State.writerTested_run {s : State} {m : Nat} (hin : s.inlen.toNat ≤ s.params.inmax)
    (h : s.params.atomic = false ∨ m ≤ slots s.pixlen.toNat) (run : Cycle) : s.writerTested m run = run := by
  have htest : (s.params.atomic && decide (slots s.pixlen.toNat < m)) = false := by
    rcases h with ha | hm
    · rw [ha, Bool.false_and]
    · rw [decide_eq_false (Nat.not_lt.mpr hm), Bool.and_false]
  simp [State.writerTested, State.operandFits hin, htest]

theorem State.writerTested_atomic {s : State} {m : Nat} (hin : s.inlen.toNat ≤ s.params.inmax)
    (ha : s.params.atomic = true) (h : slots s.pixlen.toNat < m) (run : Cycle) :
    s.writerTested m run = .done (s.raise .capacityExceeded) := by
  simp [State.writerTested, State.operandFits hin, ha, h]

/-- The state after `r` of the symbols `y`, with hidden state `hid r`. -/
def State.writing (s : State) (y : List Byte) (hid : Nat → Hidden) (r : Nat) : State :=
  (s.withSymbols (y.take r)).withHidden (hid r)

/-- The cycles of a writer of the symbols `y`, whose hidden state after `r` of them is `hid r`: one symbol while there
are a symbol and a slot, then the end where the symbols are exhausted, CapacityExceeded where the slots are. -/
structure WriterCycles (s : State) (y : List Byte) (cycle : State → Cycle) (hid : Nat → Hidden) : Prop where
  start : hid 0 = s.hidden
  symbol : ∀ r < y.length, r < slots s.pixlen.toNat →
    cycle (s.writing y hid r) = .busy (s.writing y hid (r + 1))
  full : cycle (s.writing y hid y.length) = .done ((s.writing y hid y.length).endOp .ok 0)
  exhausted : slots s.pixlen.toNat < y.length →
    cycle (s.writing y hid (slots s.pixlen.toNat)) =
      .done ((s.writing y hid (slots s.pixlen.toNat)).raise .capacityExceeded)

section
variable {s : State} {y : List Byte} {cycle : State → Cycle} {hid : Nat → Hidden}

theorem WriterCycles.writing_zero (h : WriterCycles s y cycle hid) (hs : s.Inv) : s.writing y hid 0 = s := by
  rw [State.writing, List.take_zero, hs.withSymbols_nil, h.start, State.withHidden]

/-- While there are a symbol and a slot the writer is busy. -/
theorem WriterCycles.run_busy (h : WriterCycles s y cycle hid) (hs : s.Inv) :
    Cycle.run cycle (min y.length (slots s.pixlen.toNat)) s =
      .busy (s.writing y hid (min y.length (slots s.pixlen.toNat))) := by
  have hrun := Cycle.run_busy (cycle := cycle) (st := s.writing y hid) (n := min y.length (slots s.pixlen.toNat))
    (fun r hr => h.symbol r (hr.trans_le (Nat.min_le_left ..)) (hr.trans_le (Nat.min_le_right ..))) le_rfl
  rwa [h.writing_zero hs] at hrun

/-- A writer that has passed its tests ends as the operation does. -/
theorem WriterCycles.run_done (h : WriterCycles s y cycle hid) (hs : s.Inv)
    (hfits : s.params.atomic = false ∨ y.length ≤ slots s.pixlen.toNat) :
    ∃ h', Cycle.run cycle (min y.length (slots s.pixlen.toNat) + 1) s =
      .done ((s.writeSymbols y).withHidden h') := by
  rw [Cycle.run_add, h.run_busy hs]
  rcases Nat.lt_or_ge (slots s.pixlen.toNat) y.length with hover | hfit
  · refine ⟨hid (slots s.pixlen.toNat), ?_⟩
    have hatomic : s.params.atomic = false := hfits.resolve_right (Nat.not_le.mpr hover)
    rw [Nat.min_eq_right hover.le, State.writeSymbols_partial s hover hatomic]
    simp only [Cycle.run, h.exhausted hover]
    rfl
  · refine ⟨hid y.length, ?_⟩
    rw [Nat.min_eq_left hfit, State.writeSymbols_fits s hfit, State.complete_nil]
    simp only [Cycle.run, h.full]
    rw [State.writing, List.take_length]
    rfl

/-- A writer behind its tests agrees with the operation, in success and in both modes of a capacity failure. -/
theorem WriterCycles.agrees (h : WriterCycles s y cycle hid) (hs : s.Inv) :
    (∃ t h, (if s.operandTooLong then .next (s.raise .operandTooLong) else .next (s.writeSymbols y) :
        Host.Outcome State Fault Refusal) = .next t ∧
      s.writerTested y.length (Cycle.run cycle (min y.length (slots s.pixlen.toNat) + 1) s) =
        .done { t with hidden := h }) ∧
    (s.inlen.toNat ≤ s.params.inmax → (s.params.atomic = false ∨ y.length ≤ slots s.pixlen.toNat) →
      ∃ u, s.writerTested y.length (Cycle.run cycle (min y.length (slots s.pixlen.toNat)) s) = .busy u) := by
  refine ⟨?_, fun hin hfits => ⟨_, (State.writerTested_run hin hfits _).trans (h.run_busy hs)⟩⟩
  rcases Nat.lt_or_ge s.params.inmax s.inlen.toNat with hlong | hin
  · have htest := s.operandTooLong_iff.mpr hlong
    exact ⟨_, s.hidden, if_pos htest, if_pos htest⟩
  have htest := ne_true_of_eq_false (State.operandFits hin)
  by_cases hfits : s.params.atomic = false ∨ y.length ≤ slots s.pixlen.toNat
  · obtain ⟨h', hdone⟩ := h.run_done hs hfits
    exact ⟨_, h', if_neg htest, (State.writerTested_run hin hfits _).trans hdone⟩
  · obtain ⟨hoff, hnofit⟩ := not_or.mp hfits
    have hatomic : s.params.atomic = true := eq_true_of_ne_false hoff
    have hover : slots s.pixlen.toNat < y.length := Nat.not_le.mp hnofit
    have hend := State.writeSymbols_atomic s hover hatomic
    exact ⟨_, s.hidden, (if_neg htest).trans (congrArg _ hend), State.writerTested_atomic hin hatomic hover _⟩

end

/-! ### The EMBED sequencer -/

/-- A cycle that writes a symbol. -/
theorem embedCycle_symbol {s : State} (hk : s.hidden.k < s.inlen.toNat) (hp : s.hidden.p < s.pixlen.toNat) :
    embedCycle s =
      .busy ((s.putPix s.hidden.p
        (embedByte s.params.B (s.byteAt .pix s.hidden.p) (s.byteAt .inBuf s.hidden.k))).withHidden
          { s.hidden with k := s.hidden.k + 1, p := s.hidden.p + 4 }) :=
  (if_pos hk).trans (if_neg (Nat.not_le.mpr hp))

/-- The cycle that finds no slot. -/
theorem embedCycle_exhausted {s : State} (hk : s.hidden.k < s.inlen.toNat) (hp : s.pixlen.toNat ≤ s.hidden.p) :
    embedCycle s = .done (s.raise .capacityExceeded) := (if_pos hk).trans (if_pos hp)

/-- The cycle that completes. -/
theorem embedCycle_end {s : State} (hk : s.inlen.toNat ≤ s.hidden.k) : embedCycle s = .done (s.endOp .ok 0) :=
  if_neg (Nat.not_lt.mpr hk)

/-- The hidden state after `r` symbols (R106). -/
def embedHidden (s : State) (r : Nat) : Hidden := { s.hidden with k := r, p := slotAddr r }

theorem embedCycle_writes {s : State} (hs : s.Inv) :
    WriterCycles s.startOp s.operand embedCycle (embedHidden s.startOp) where
  start := rfl
  symbol r hr hslot := by
    have hk : r < s.inlen.toNat := by rwa [State.operand_length] at hr
    calc embedCycle (s.startOp.writing s.operand (embedHidden s.startOp) r)
        = .busy (((s.startOp.writing s.operand (embedHidden s.startOp) r).putPix (slotAddr r)
            (embedByte s.params.B ((s.startOp.withSymbols (s.operand.take r)).byteAt .pix (slotAddr r))
              (s.byteAt .inBuf r))).withHidden (embedHidden s.startOp (r + 1))) :=
          embedCycle_symbol (s := s.startOp.writing ..) hk (slotAddr_lt hslot)
      _ = .busy (s.startOp.writing s.operand (embedHidden s.startOp) (r + 1)) := by
        rw [← s.operand_getD 0 hk]
        exact congrArg Cycle.busy (hs.startOp.withSymbols_putPix hr hslot _ _)
  full := embedCycle_end (s := s.startOp.writing ..) s.operand_length.ge
  exhausted hover := embedCycle_exhausted (s := s.startOp.writing ..) (hover.trans_eq s.operand_length)
    (le_slotAddr_slots _)

/-! ### The INJECT sequencer -/

theorem frame_getD_header (g : Magic) (e : List Byte) {q : Nat} (hq : q < 8) :
    (frame g e).getD q 0 = headerByte g e.length q := List.getD_append _ _ _ _ hq

theorem frame_getD_payload (g : Magic) (e : List Byte) {q : Nat} (hq : 8 ≤ q) :
    (frame g e).getD q 0 = e.getD (q - 8) 0 := List.getD_append_right _ _ _ _ hq

/-- Unit `r` of a packed sequence is symbol `r % SPB` of byte `r / SPB`. -/
theorem pack_getD_div_mod {B : Nat} (hpos : 0 < spb B) {f : List Byte} {r : Nat} (hr : r / spb B < f.length) :
    (pack B f).getD r 0 = packSymbol B (f.getD (r / spb B) 0) (r % spb B) := by
  rw [← pack_getD hr (Nat.mod_lt r hpos), Nat.div_add_mod']

/-- The frame INJECT writes (R129). -/
def State.injectFrame (s : State) : List Byte := frame s.params.magic (penc s.params.N s.operand)

theorem State.injectFrame_length (s : State) : s.injectFrame.length = 8 + s.inlen.toNat + s.params.N := by
  rw [State.injectFrame, frame_length, State.penc_operand_length, Nat.add_assoc]

theorem State.operandSymbols_length (s : State) :
    (injectSymbols s.params s.operand).length = (8 + s.inlen.toNat + s.params.N) * spb s.params.B := by
  rw [injectSymbols_length, State.operand_length]

/-- The hidden state before symbol `t` of frame byte `q`: the payload bytes before byte `q` are in the accumulators. -/
def injectHiddenAt (s : State) (k q t : Nat) : Hidden :=
  { s.hidden with
    k := k, p := slotAddr k, q := q, t := t
    par := parity s.params.N (s.operand.take (q - 8)), phase := min (q - 8) s.inlen.toNat % 8 }

/-- The hidden state after `r` symbols. -/
def injectHidden (s : State) (r : Nat) : Hidden := injectHiddenAt s r (r / spb s.params.B) (r % spb s.params.B)

theorem injectHidden_zero (s : State) : injectHidden s.startOp 0 = s.startOp.hidden := by
  simp [injectHidden, injectHiddenAt, Hidden.start, parity_nil, slotAddr]

/-- Byte `q` of the frame, from the header, the operand or the accumulators. -/
theorem State.injectByte_injectHiddenAt (s : State) (k q t : Nat) :
    (s.withHidden (injectHiddenAt s k q t)).injectByte q = s.injectFrame.getD q 0 := by
  rcases Nat.lt_or_ge q 8 with hheader | hq
  · rw [State.injectFrame, frame_getD_header _ _ hheader, State.penc_operand_length]
    exact if_pos hheader
  rw [State.injectFrame, frame_getD_payload _ _ hq]
  rcases Nat.lt_or_ge (q - 8) s.inlen.toNat with hpayload | hparity
  · rw [penc_getD_payload _ (by rwa [State.operand_length]), s.operand_getD 0 hpayload]
    exact (if_neg (Nat.not_lt.mpr hq)).trans (if_pos ((Nat.sub_lt_iff_lt_add' hq).mp hpayload))
  · have hlen : s.operand.length ≤ q - 8 := by rwa [State.operand_length]
    rw [penc_getD_parity _ hlen, State.operand_length, ← List.take_of_length_le hlen]
    exact (if_neg (Nat.not_lt.mpr hq)).trans (if_neg (by change ¬ q < 8 + s.inlen.toNat; omega))

/-- A symbol that is not the last of its byte. -/
theorem injectNext_inner {s : State} (b : Byte) {k q t : Nat} (ht : t + 1 ≠ spb s.params.B) :
    (s.withHidden (injectHiddenAt s k q t)).injectNext b = injectHiddenAt s (k + 1) q (t + 1) := if_neg ht

/-- The last symbol of a payload byte: the byte goes into the accumulators. -/
theorem injectNext_payload {s : State} {k q t : Nat} (ht : t + 1 = spb s.params.B) (hq : 8 ≤ q)
    (hpayload : q - 8 < s.inlen.toNat) :
    (s.withHidden (injectHiddenAt s k q t)).injectNext (s.operand.getD (q - 8) 0) =
      injectHiddenAt s (k + 1) (q + 1) 0 := by
  have hphase : (injectHiddenAt s k q t).phase = (q - 8) % 8 := by rw [injectHiddenAt, Nat.min_eq_left hpayload.le]
  have hpar : ((injectHiddenAt s k q t).absorb (s.operand.getD (q - 8) 0)).par =
      parity s.params.N (s.operand.take (q - 8 + 1)) :=
    Hidden.absorb_par (by rwa [State.operand_length]) rfl hphase
  have hnext : q + 1 - 8 = q - 8 + 1 := Nat.sub_add_comm hq
  calc (s.withHidden (injectHiddenAt s k q t)).injectNext (s.operand.getD (q - 8) 0)
      = { (injectHiddenAt s k q t).absorb (s.operand.getD (q - 8) 0) with
          k := k + 1, p := slotAddr k + 4, t := 0, q := q + 1 } :=
        (if_pos ht).trans (if_pos ⟨hq, (Nat.sub_lt_iff_lt_add' hq).mp hpayload⟩)
    _ = injectHiddenAt s (k + 1) (q + 1) 0 := by
      simp only [hpar, Hidden.absorb_phase, hphase, Nat.mod_add_mod]
      simp only [injectHiddenAt, hnext, Nat.min_eq_left (Nat.succ_le_of_lt hpayload)]
      rfl

/-- The last symbol of a byte of the header or of the parity. -/
theorem injectNext_other {s : State} (b : Byte) {k q t : Nat} (ht : t + 1 = spb s.params.B)
    (hq : ¬ (8 ≤ q ∧ q < 8 + s.inlen.toNat)) :
    (s.withHidden (injectHiddenAt s k q t)).injectNext b = injectHiddenAt s (k + 1) (q + 1) 0 := by
  have hphase : min (q + 1 - 8) s.inlen.toNat = min (q - 8) s.inlen.toNat := by omega
  have hpar : s.operand.take (q + 1 - 8) = s.operand.take (q - 8) := by
    rw [List.take_eq_take_iff, State.operand_length, hphase]
  calc (s.withHidden (injectHiddenAt s k q t)).injectNext b
      = { injectHiddenAt s k q t with k := k + 1, p := slotAddr k + 4, t := 0, q := q + 1 } :=
        (if_pos ht).trans (if_neg hq)
    _ = injectHiddenAt s (k + 1) (q + 1) 0 := by simp only [injectHiddenAt, hphase, hpar, slotAddr_succ]

/-- The hidden state after the next symbol of the frame. -/
theorem injectNext_injectHidden {s : State} (hpos : 0 < spb s.params.B) (r : Nat) :
    (s.withHidden (injectHidden s r)).injectNext (s.injectFrame.getD (r / spb s.params.B) 0) =
      injectHidden s (r + 1) := by
  by_cases ht : r % spb s.params.B + 1 = spb s.params.B
  · obtain ⟨hquot, hrem⟩ := div_mod_succ_of_last ht
    rw [injectHidden, injectHidden, hquot, hrem]
    by_cases hq : 8 ≤ r / spb s.params.B ∧ r / spb s.params.B < 8 + s.inlen.toNat
    · obtain ⟨hheader, hend⟩ := hq
      have hpayload : r / spb s.params.B - 8 < s.inlen.toNat := Nat.sub_lt_left_of_lt_add hheader hend
      rw [State.injectFrame, frame_getD_payload _ _ hheader, penc_getD_payload _ (by rwa [State.operand_length])]
      exact injectNext_payload ht hheader hpayload
    · exact injectNext_other _ ht hq
  · obtain ⟨hquot, hrem⟩ := div_mod_succ_of_inner hpos ht
    rw [injectHidden, injectHidden, hquot, hrem]
    exact injectNext_inner _ ht

/-- A cycle that writes a symbol. -/
theorem injectCycle_symbol {s : State} (hq : s.hidden.q < 8 + s.inlen.toNat + s.params.N)
    (hp : s.hidden.p < s.pixlen.toNat) :
    injectCycle s =
      .busy ((s.putPix s.hidden.p (embedByte s.params.B (s.byteAt .pix s.hidden.p)
        (packSymbol s.params.B (s.injectByte s.hidden.q) s.hidden.t))).withHidden
          (s.injectNext (s.injectByte s.hidden.q))) :=
  (if_pos hq).trans (if_neg (Nat.not_le.mpr hp))

/-- The cycle that finds no slot. -/
theorem injectCycle_exhausted {s : State} (hq : s.hidden.q < 8 + s.inlen.toNat + s.params.N)
    (hp : s.pixlen.toNat ≤ s.hidden.p) : injectCycle s = .done (s.raise .capacityExceeded) :=
  (if_pos hq).trans (if_pos hp)

/-- The cycle that completes. -/
theorem injectCycle_end {s : State} (hq : 8 + s.inlen.toNat + s.params.N ≤ s.hidden.q) :
    injectCycle s = .done (s.endOp .ok 0) := if_neg (Nat.not_lt.mpr hq)

/-- Every symbol INJECT writes is one of a byte of its frame. -/
theorem State.frameByte_lt {s : State} {r : Nat} (hr : r < (injectSymbols s.params s.operand).length) :
    r / spb s.params.B < 8 + s.inlen.toNat + s.params.N := by
  rw [State.operandSymbols_length, Nat.mul_comm] at hr
  exact Nat.div_lt_of_lt_mul hr

/-- The state after `r` symbols of INJECT. -/
def injecting (s : State) (r : Nat) : State := s.writing (injectSymbols s.params s.operand) (injectHidden s) r

/-- The cycle of symbol `r`, which is symbol `r % SPB` of byte `r / SPB` of the frame. -/
theorem injectCycle_injecting {s : State} (hs : s.Inv) {r : Nat} (hr : r < (injectSymbols s.params s.operand).length)
    (hslot : r < slots s.pixlen.toNat) : injectCycle (injecting s r) = .busy (injecting s (r + 1)) := by
  have hpos : 0 < spb s.params.B := spb_pos (Params.legal_B hs.legal)
  have hq := State.frameByte_lt hr
  have hbyte : (injecting s r).injectByte (r / spb s.params.B) = s.injectFrame.getD (r / spb s.params.B) 0 :=
    s.injectByte_injectHiddenAt r (r / spb s.params.B) (r % spb s.params.B)
  have hsymbol : packSymbol s.params.B (s.injectFrame.getD (r / spb s.params.B) 0) (r % spb s.params.B) =
      (injectSymbols s.params s.operand).getD r 0 :=
    (pack_getD_div_mod hpos (hq.trans_eq s.injectFrame_length.symm)).symm
  have hnext : (injecting s r).injectNext (s.injectFrame.getD (r / spb s.params.B) 0) = injectHidden s (r + 1) :=
    injectNext_injectHidden hpos r
  calc injectCycle (injecting s r)
      = .busy (((injecting s r).putPix (slotAddr r) (embedByte s.params.B ((injecting s r).byteAt .pix (slotAddr r))
          (packSymbol s.params.B ((injecting s r).injectByte (r / spb s.params.B)) (r % spb s.params.B)))).withHidden
            ((injecting s r).injectNext ((injecting s r).injectByte (r / spb s.params.B)))) :=
        injectCycle_symbol (s := injecting s r) hq (slotAddr_lt hslot)
    _ = .busy (injecting s (r + 1)) := by
      rw [hbyte, hnext, hsymbol]
      exact congrArg Cycle.busy (hs.withSymbols_putPix hr hslot _ _)

theorem injectCycle_writes {s : State} (hs : s.Inv) :
    WriterCycles s.startOp (injectSymbols s.params s.operand) injectCycle (injectHidden s.startOp) where
  start := injectHidden_zero s
  symbol _ hr hslot := injectCycle_injecting hs.startOp hr hslot
  full := by
    have hpos : 0 < spb s.params.B := spb_pos (Params.legal_B hs.legal)
    have hquot : (injectSymbols s.params s.operand).length / spb s.params.B = 8 + s.inlen.toNat + s.params.N := by
      rw [State.operandSymbols_length, Nat.mul_div_cancel _ hpos]
    exact injectCycle_end (s := s.startOp.writing ..) hquot.ge
  exhausted hover := injectCycle_exhausted (s := s.startOp.writing ..) (State.frameByte_lt hover)
    (le_slotAddr_slots _)

/-! ### The INGEST sequencer -/

/-- What is left of a buffer whose front has been written when nothing is held beyond it. -/
theorem Memory.filter_store (sp : Space) (m : Memory) (bs : List Byte) :
    (Memory.store sp m 0 bs).filter (fun c => decide (c.1 < bs.length)) = Memory.ofBytes sp 0 bs := by
  have hfront : (Memory.ofBytes sp 0 bs).filter (fun c => decide (c.1 < bs.length)) = Memory.ofBytes sp 0 bs :=
    List.filter_eq_self.mpr fun c hc => decide_eq_true (by simpa using (Memory.mem_ofBytes_bounds hc).2)
  have hrest : (m.filter (fun c => decide (0 + bs.length ≤ c.1))).filter (fun c => decide (c.1 < bs.length)) = [] := by
    simp [List.filter_eq_nil_iff]
  rw [Memory.store, List.filter_append, List.filter_append, hfront, hrest]
  simp

/-- The state after `q` bytes of the operand (R101). -/
def ingesting (s : State) (q : Nat) : State :=
  { s with pixMem := Memory.store .pix s.pixMem 0 (s.operand.take q), hidden := { s.hidden with q := q } }

theorem ingesting_zero (s : State) : ingesting s.startOp 0 = s.startOp := by
  simp [ingesting, State.startOp, Hidden.start]

theorem ingestCycle_ingesting {s : State} (hs : s.Inv) {q : Nat} (hq : q < s.inlen.toNat) :
    ingestCycle (ingesting s q) = .busy (ingesting s (q + 1)) := by
  have hstore := Memory.store_take_succ .pix hs.pixWf.1 (p := s.operand) (r := q) (by rwa [State.operand_length])
  calc ingestCycle (ingesting s q)
      = .busy (((ingesting s q).putPix q (s.byteAt .inBuf q)).withHidden { s.hidden with q := q + 1 }) := if_pos hq
    _ = .busy (ingesting s (q + 1)) := by
      rw [← s.operand_getD 0 hq]
      simp only [ingesting, State.putPix, State.withHidden, hstore]

theorem ingestCycle_ingesting_all (s : State) :
    ingestCycle (ingesting s s.inlen.toNat) =
      .done ((s.withIngested.complete []).withHidden { s.hidden with q := s.inlen.toNat }) := by
  have hpix := Memory.filter_store .pix s.pixMem s.operand
  rw [State.operand_length] at hpix
  have htake : s.operand.take s.inlen.toNat = s.operand := List.take_of_length_le s.operand_length.le
  rw [State.complete_nil]
  refine (if_neg (Nat.lt_irrefl _)).trans ?_
  simp only [ingesting, htake, hpix]
  rfl

theorem ingestSequencer_fits {s : State} (hin : s.inlen.toNat ≤ s.params.inmax) (hpix : s.inlen.toNat ≤ s.params.pixmax)
    (n : Nat) : ingestSequencer n s = Cycle.run ingestCycle n s := by
  simp [ingestSequencer, State.operandFits hin, Nat.not_lt.mpr hpix]

theorem ingestSequencer_tooLong {s : State} (h : s.params.inmax < s.inlen.toNat ∨ s.params.pixmax < s.inlen.toNat)
    (n : Nat) : ingestSequencer n s = .done (s.raise .operandTooLong) := by
  rw [← s.operandTooLong_iff] at h
  simp [ingestSequencer, h]

theorem ingestSequencer_agrees {s : State} (hs : s.Inv) :
    (∃ t h, exec .ingest s.startOp = .next t ∧
      ingestSequencer (s.inlen.toNat + 1) s.startOp = .done { t with hidden := h }) ∧
    (s.inlen.toNat ≤ s.params.inmax → s.inlen.toNat ≤ s.params.pixmax →
      ∃ u, ingestSequencer s.inlen.toNat s.startOp = .busy u) := by
  have hbusy : ∀ q < s.inlen.toNat, ingestCycle (ingesting s.startOp q) = .busy (ingesting s.startOp (q + 1)) :=
    fun _ hq => ingestCycle_ingesting hs.startOp hq
  have hrun := Cycle.run_busy hbusy le_rfl
  have hdone := Cycle.run_done hbusy (ingestCycle_ingesting_all s.startOp)
  rw [ingesting_zero] at hrun hdone
  refine ⟨?_, fun hin hpix => ⟨_, (ingestSequencer_fits (s := s.startOp) hin hpix _).trans hrun⟩⟩
  rcases s.startOp.lengths_ingest_or with ⟨hin, hpix⟩ | hlong
  · exact ⟨_, _, exec_ingest_fits hin hpix, (ingestSequencer_fits hin hpix _).trans hdone⟩
  · exact ⟨_, s.startOp.hidden, exec_ingest_tooLong hlong, ingestSequencer_tooLong hlong _⟩

/-- Settles O58: after `r` cycles the first `r` symbols stand in their slots, those of EMBED from IN, those of INJECT
from the frame its hidden state makes; INGEST's bytes stand in PIX, and nothing is held beyond them at its end. -/
theorem writerSequencersAgree : Obligations.WriterSequencersAgree := by
  rintro s _ hs rfl
  obtain ⟨hembed, hembedBusy⟩ := (embedCycle_writes hs).agrees hs.startOp
  obtain ⟨hinject, hinjectBusy⟩ := (injectCycle_writes hs).agrees hs.startOp
  obtain ⟨hingest, hingestBusy⟩ := ingestSequencer_agrees hs
  rw [State.operand_length] at hembed hembedBusy
  rw [State.operandSymbols_length] at hinject hinjectBusy
  simp only [embedSequencer_eq, injectSequencer_eq]
  exact ⟨hembed, hembedBusy, hinject, hinjectBusy, hingest, hingestBusy⟩

/-! ### The XTRACT sequencer -/

/-- A cycle that reads a slot. -/
theorem xtractCycle_slot {s : State} (hp : s.hidden.p < s.pixlen.toNat) :
    xtractCycle s =
      .busy ((s.putOut s.hidden.k (symbolOf s.params.B (s.byteAt .pix s.hidden.p))).withHidden
        { s.hidden with k := s.hidden.k + 1, p := s.hidden.p + 4 }) := if_pos hp

/-- The cycle that completes. -/
theorem xtractCycle_end {s : State} (hp : s.pixlen.toNat ≤ s.hidden.p) :
    xtractCycle s = .done (s.endOp .ok s.hidden.k) := if_neg (Nat.not_lt.mpr hp)

/-- The state after `r` slots of XTRACT (R110). -/
def xtracting (s : State) (r : Nat) : State :=
  s.written ((xtract s.params.B s.pixels).take r) { s.hidden with k := r, p := slotAddr r }

theorem xtracting_zero (s : State) : xtracting s.startOp 0 = s.startOp :=
  State.written_nil s.startOp

theorem xtractCycle_xtracting {s : State} (hs : s.Inv) {r : Nat} (hr : r < slots s.pixlen.toNat) :
    xtractCycle (xtracting s r) = .busy (xtracting s (r + 1)) := by
  calc xtractCycle (xtracting s r)
      = .busy (((xtracting s r).putOut r (symbolOf s.params.B (s.byteAt .pix (slotAddr r)))).withHidden
          { s.hidden with k := r + 1, p := slotAddr (r + 1) }) := xtractCycle_slot (s := xtracting s r) (slotAddr_lt hr)
    _ = .busy (xtracting s (r + 1)) := by
      rw [← s.xtract_pixels_getD hr, xtracting,
        State.written_putOut hs.outWf.1 (hr.trans_eq s.xtract_pixels_length.symm), xtracting]

theorem xtractCycle_xtracting_all (s : State) :
    xtractCycle (xtracting s (slots s.pixlen.toNat)) =
      .done ((s.complete (xtract s.params.B s.pixels)).withHidden
        { s.hidden with k := slots s.pixlen.toNat, p := slotAddr (slots s.pixlen.toNat) }) := by
  calc xtractCycle (xtracting s (slots s.pixlen.toNat))
      = .done ((xtracting s (slots s.pixlen.toNat)).endOp .ok (slots s.pixlen.toNat)) :=
        xtractCycle_end (s := xtracting s _) (le_slotAddr_slots _)
    _ = _ := by rw [xtracting, ← s.xtract_pixels_length, List.take_length, State.written_endOp]

theorem xtractSequencer_fits {s : State} (h : slots s.pixlen.toNat ≤ s.params.outmax) (n : Nat) :
    xtractSequencer n s = Cycle.run xtractCycle n s := if_neg (ne_true_of_eq_false (State.resultFits h))

theorem xtractSequencer_tooLong {s : State} (h : s.params.outmax < slots s.pixlen.toNat) (n : Nat) :
    xtractSequencer n s = .done (s.raise .operandTooLong) := if_pos ((s.resultTooLong_iff _).mpr h)

theorem xtractSequencer_agrees {s : State} (hs : s.Inv) :
    (∃ t h, exec .xtract s.startOp = .next t ∧
      xtractSequencer (slots s.pixlen.toNat + 1) s.startOp = .done { t with hidden := h }) ∧
    (slots s.pixlen.toNat ≤ s.params.outmax →
      ∃ u, xtractSequencer (slots s.pixlen.toNat) s.startOp = .busy u) := by
  have hbusy : ∀ r < slots s.pixlen.toNat, xtractCycle (xtracting s.startOp r) = .busy (xtracting s.startOp (r + 1)) :=
    fun _ hr => xtractCycle_xtracting hs.startOp hr
  have hrun := Cycle.run_busy hbusy le_rfl
  have hdone := Cycle.run_done hbusy (xtractCycle_xtracting_all s.startOp)
  rw [xtracting_zero] at hrun hdone
  refine ⟨?_, fun hfit => ⟨_, (xtractSequencer_fits (s := s.startOp) hfit _).trans hrun⟩⟩
  rcases Nat.lt_or_ge s.params.outmax (slots s.pixlen.toNat) with hlong | hfit
  · exact ⟨_, s.startOp.hidden, exec_xtract_tooLong (s := s.startOp) hlong,
      xtractSequencer_tooLong (s := s.startOp) hlong _⟩
  · exact ⟨_, _, exec_xtract_fits (s := s.startOp) hfit, (xtractSequencer_fits (s := s.startOp) hfit _).trans hdone⟩

/-! ### Where `scan` finds MAGIC, and what follows -/

theorem isPrefixOf_magic_iff (g : Magic) (w : List Byte) : g.bytes.isPrefixOf w = true ↔ w.take 4 = g.bytes := by
  rw [List.isPrefixOf_iff_prefix, List.prefix_iff_eq_take]
  exact eq_comm

/-- No position holds MAGIC. -/
theorem findMagic_eq_none {g : Magic} {w : List Byte} (h : findMagic g w = none) (m : Nat) :
    (w.drop m).take 4 ≠ g.bytes := by
  induction w generalizing m with
  | nil => simp [Magic.bytes]
  | cons b w ih =>
    rw [findMagic_cons] at h
    split at h
    · cases h
    · rename_i hfront
      cases m with
      | zero => exact mt (isPrefixOf_magic_iff g _).mpr hfront
      | succ m => exact ih (Option.map_eq_none_iff.mp h) m

/-- The least position that holds MAGIC. -/
theorem findMagic_eq_some {g : Magic} {w : List Byte} {m : Nat} (h : findMagic g w = some m) :
    (w.drop m).take 4 = g.bytes ∧ ∀ i < m, (w.drop i).take 4 ≠ g.bytes := by
  induction w generalizing m with
  | nil => cases h
  | cons b w ih =>
    rw [findMagic_cons] at h
    split at h
    · rename_i hfront
      cases h
      exact ⟨(isPrefixOf_magic_iff g _).mp hfront, nofun⟩
    · rename_i hfront
      obtain ⟨m, hm, rfl⟩ := Option.map_eq_some_iff.mp h
      obtain ⟨hhere, hbefore⟩ := ih hm
      refine ⟨hhere, fun i hi => ?_⟩
      cases i with
      | zero => exact mt (isPrefixOf_magic_iff g _).mpr hfront
      | succ i => exact hbefore i (Nat.lt_of_succ_lt_succ hi)

/-- A position that holds MAGIC has four bytes left. -/
theorem le_of_take_four_eq {g : Magic} {w : List Byte} {m : Nat} (h : (w.drop m).take 4 = g.bytes) :
    m + 4 ≤ w.length := by
  have hlen := congrArg List.length h
  simp only [List.length_take, List.length_drop, Magic.bytes, List.length_cons, List.length_nil] at hlen
  omega

/-- The LENGTH field of the frame at position `m` (R121). -/
def lengthField (w : List Byte) (m : Nat) : Nat := ube32 ((w.drop (m + 4)).take 4)

/-- The payload of the frame at position `m` without its last `strip` bytes. -/
def strippedPayload (w : List Byte) (m strip : Nat) : List Byte :=
  ((w.drop (m + 8)).take (lengthField w m)).take (lengthField w m - strip)

theorem strippedPayload_length {w : List Byte} {m : Nat} (h : lengthField w m ≤ w.length - m - 8) (strip : Nat) :
    (strippedPayload w m strip).length = lengthField w m - strip := by
  simp only [strippedPayload, List.length_take, List.length_drop]
  omega

theorem strippedPayload_getD {w : List Byte} {m strip r : Nat} (hr : r < lengthField w m - strip) :
    (strippedPayload w m strip).getD r 0 = w.getD (m + 8 + r) 0 := by
  rw [strippedPayload, getD_take hr, getD_take (by omega)]
  simp only [List.getD, List.getElem?_drop]

theorem scan_of_none {g : Magic} {w : List Byte} (h : findMagic g w = none) : scan g w = .noPayloadFound := by
  rw [scan, h]

/-- The three outcomes of `scan` at the position of MAGIC. -/
theorem scan_of_some {g : Magic} {w : List Byte} {m : Nat} (h : findMagic g w = some m) :
    w.length - m < 8 ∧ scan g w = .truncatedHeader m ∨
    8 ≤ w.length - m ∧ w.length - m - 8 < lengthField w m ∧ scan g w = .payloadOverrun m (lengthField w m) ∨
    8 ≤ w.length - m ∧ lengthField w m ≤ w.length - m - 8 ∧
      scan g w = .found m (lengthField w m) ((w.drop (m + 8)).take (lengthField w m)) := by
  rw [scan, h]
  simp only [← Nat.sub_sub, lengthField]
  split
  · rename_i h8
    exact .inl ⟨h8, rfl⟩
  · rename_i h8
    split
    · rename_i hover
      exact .inr (.inl ⟨Nat.not_lt.mp h8, hover, rfl⟩)
    · rename_i hover
      exact .inr (.inr ⟨Nat.not_lt.mp h8, Nat.not_lt.mp hover, rfl⟩)

/-! ### The end of an operation that scans a stream -/

/-- The end of an operation that scans a stream and drops the last `strip` bytes of the payload found (R122, R134). -/
def State.streamEnd (s : State) (strip : Nat) : ScanResult → State
  | .noPayloadFound => s.raise .noPayloadFound
  | .truncatedHeader m => (s.raise .truncatedHeader).detected m none
  | .payloadOverrun m l => (s.raise .payloadOverrun).detected m (some l)
  | .found m l e =>
    if l < strip then (s.raise .tooShort).detected m (some l)
    else if s.resultTooLong (l - strip) then s.raise .operandTooLong
    else (s.complete (e.take (l - strip))).detected m (some l)

theorem State.streamEnd_tooShort (s : State) {strip l : Nat} (m : Nat) (e : List Byte) (hl : l < strip) :
    s.streamEnd strip (.found m l e) = (s.raise .tooShort).detected m (some l) := if_pos hl

theorem State.streamEnd_tooLong {s : State} {strip l : Nat} (m : Nat) (e : List Byte) (hl : strip ≤ l)
    (hout : s.params.outmax < l - strip) : s.streamEnd strip (.found m l e) = s.raise .operandTooLong :=
  (if_neg (Nat.not_lt.mpr hl)).trans (if_pos ((s.resultTooLong_iff _).mpr hout))

theorem State.streamEnd_fits {s : State} {strip l : Nat} (m : Nat) (e : List Byte) (hl : strip ≤ l)
    (hout : l - strip ≤ s.params.outmax) :
    s.streamEnd strip (.found m l e) = (s.complete (e.take (l - strip))).detected m (some l) :=
  (if_neg (Nat.not_lt.mpr hl)).trans (if_neg (ne_true_of_eq_false (State.resultFits hout)))

theorem State.withHidden_detected (s : State) (h : Hidden) (m : Nat) (l : Option Nat) :
    (s.withHidden h).detected m l = (s.detected m l).withHidden h := by cases l <;> rfl

/-- The hidden state is written by no end of an operation. -/
theorem State.withHidden_streamEnd (s : State) (h : Hidden) (strip : Nat) (r : ScanResult) :
    (s.withHidden h).streamEnd strip r = (s.streamEnd strip r).withHidden h := by
  cases r with
  | found m l e =>
    rcases Nat.lt_or_ge l strip with hl | hl
    · rw [State.streamEnd_tooShort _ _ _ hl, State.streamEnd_tooShort _ _ _ hl, ← State.withHidden_detected]
      rfl
    rcases Nat.lt_or_ge s.params.outmax (l - strip) with hout | hout
    · rw [State.streamEnd_tooLong _ _ hl hout, State.streamEnd_tooLong (s := s.withHidden h) _ _ hl hout]
      rfl
    · rw [State.streamEnd_fits _ _ hl hout, State.streamEnd_fits (s := s.withHidden h) _ _ hl hout,
        ← State.withHidden_detected]
      rfl
  | _ => rfl

theorem exec_extract (s : State) :
    exec .extract s =
      .next (s.streamEnd s.params.N (scan s.params.magic (extractStream s.params s.pixels))) := by
  simp only [exec, execExtract]
  cases hscan : scan s.params.magic (extractStream s.params s.pixels) with
  | found m l e =>
    obtain rfl := scan_found_length hscan
    rcases Nat.lt_or_ge e.length s.params.N with hl | hl
    · simp only [pdec_of_lt hl, State.streamEnd, if_pos hl]
    · simp only [pdec_of_le hl, State.streamEnd, if_neg (Nat.not_lt.mpr hl)]
      split <;> rfl
  | _ => rfl

/-! ### The cycles that scan a stream -/

/-- The four bytes from position `m` on. -/
def windowAt (src : Nat → Byte) (m : Nat) : List Byte := (List.range 4).map fun i => src (m + i)

theorem windowAt_succ (src : Nat → Byte) (m : Nat) :
    (windowAt src m).drop 1 ++ [src (m + 4)] = windowAt src (m + 1) := rfl

theorem windowAt_eq {src : Nat → Byte} {w : List Byte} (hsrc : ∀ i < w.length, src i = w.getD i 0) {m : Nat}
    (hm : m + 4 ≤ w.length) : windowAt src m = (w.drop m).take 4 := by
  rw [take_four hm, ← hsrc m (by omega), ← hsrc (m + 1) (by omega), ← hsrc (m + 2) (by omega),
    ← hsrc (m + 3) (by omega)]
  rfl

/-- A cycle that slides the window. -/
theorem streamCycle_slide {n strip : Nat} {src : Nat → Byte} {s : State} (hm : s.hidden.m + 4 ≤ n)
    (hw : s.hidden.window = windowAt src s.hidden.m) (hno : windowAt src s.hidden.m ≠ s.params.magic.bytes) :
    streamCycle n src strip s = .busy (s.withHidden
      { s.hidden with m := s.hidden.m + 1, window := windowAt src (s.hidden.m + 1) }) := by
  rw [← windowAt_succ, ← hw]
  exact if_pos ⟨hm, hw ▸ hno⟩

/-- The cycle that finds the stream at its end. -/
theorem streamCycle_none {n strip : Nat} {src : Nat → Byte} {s : State} (hm : n < s.hidden.m + 4) :
    streamCycle n src strip s = .done (s.raise .noPayloadFound) :=
  (if_neg fun hslide => Nat.not_le.mpr hm hslide.1).trans (if_pos hm)

/-- A cycle at the position of MAGIC with a LENGTH field of `l` there. -/
def payloadCycle (n : Nat) (src : Nat → Byte) (strip l : Nat) (s : State) : Cycle :=
  if n - s.hidden.m - 8 < l then .done ((s.raise .payloadOverrun).detected s.hidden.m (some l))
  else if l < strip then .done ((s.raise .tooShort).detected s.hidden.m (some l))
  else if s.resultTooLong (l - strip) then .done (s.raise .operandTooLong)
  else if s.hidden.q < l - strip then
    .busy ((s.putOut s.hidden.q (src (s.hidden.m + 8 + s.hidden.q))).withHidden
      { s.hidden with q := s.hidden.q + 1 })
  else .done ((s.endOp .ok (l - strip)).detected s.hidden.m (some l))

section
variable {n strip : Nat} {src : Nat → Byte} {s : State} (hm : s.hidden.m + 4 ≤ n)
  (hw : s.hidden.window = s.params.magic.bytes)
include hm hw

theorem streamCycle_truncated (h8 : n - s.hidden.m < 8) :
    streamCycle n src strip s = .done ((s.raise .truncatedHeader).detected s.hidden.m none) :=
  (if_neg fun hslide => hslide.2 hw).trans ((if_neg (Nat.not_lt.mpr hm)).trans (if_pos h8))

theorem streamCycle_payload (h8 : 8 ≤ n - s.hidden.m) :
    streamCycle n src strip s = payloadCycle n src strip (ube32 (windowAt src (s.hidden.m + 4))) s :=
  (if_neg fun hslide => hslide.2 hw).trans ((if_neg (Nat.not_lt.mpr hm)).trans (if_neg (Nat.not_lt.mpr h8)))

end

theorem payloadCycle_overrun {n strip l : Nat} {src : Nat → Byte} {s : State} (h : n - s.hidden.m - 8 < l) :
    payloadCycle n src strip l s = .done ((s.raise .payloadOverrun).detected s.hidden.m (some l)) := if_pos h

/-- A payload that is in the stream and longer than what is dropped is tested for OUT, then copied. -/
theorem payloadCycle_found {n strip l : Nat} {src : Nat → Byte} {s : State} (h : l ≤ n - s.hidden.m - 8)
    (hl : strip ≤ l) :
    payloadCycle n src strip l s =
      if s.resultTooLong (l - strip) then .done (s.raise .operandTooLong)
      else if s.hidden.q < l - strip then
        .busy ((s.putOut s.hidden.q (src (s.hidden.m + 8 + s.hidden.q))).withHidden
          { s.hidden with q := s.hidden.q + 1 })
      else .done ((s.endOp .ok (l - strip)).detected s.hidden.m (some l)) :=
  (if_neg (Nat.not_lt.mpr h)).trans (if_neg (Nat.not_lt.mpr hl))

theorem payloadCycle_tooShort {n strip l : Nat} {src : Nat → Byte} {s : State} (h : l ≤ n - s.hidden.m - 8)
    (hl : l < strip) :
    payloadCycle n src strip l s = .done ((s.raise .tooShort).detected s.hidden.m (some l)) :=
  (if_neg (Nat.not_lt.mpr h)).trans (if_pos hl)

/-! ### The run of a scan -/

/-- The state at position `m` with `r` bytes of `p` copied (R123). -/
def scanning (s : State) (src : Nat → Byte) (p : List Byte) (m r : Nat) : State :=
  s.written (p.take r) { s.hidden with m := m, q := r, window := windowAt src m }

/-- A sequencer that has come to its scan: of the stream `w`, byte `i` of it being `src i`, with the window loaded where
the stream has four bytes. -/
structure StreamCycles (s : State) (w : List Byte) (src : Nat → Byte) (strip : Nat) (cycle : State → Cycle) : Prop where
  source : ∀ i < w.length, src i = w.getD i 0
  scans : ∀ p h, h.p = s.hidden.p → h.stream = s.hidden.stream →
    cycle (s.written p h) = streamCycle w.length src strip (s.written p h)
  position : s.hidden.m = 0
  cursor : s.hidden.q = 0
  window : 4 ≤ w.length → s.hidden.window = windowAt src 0

namespace StreamCycles

variable {s : State} {w : List Byte} {src : Nat → Byte} {strip : Nat} {cycle : State → Cycle}

theorem cycle_scanning (h : StreamCycles s w src strip cycle) (p : List Byte) (m r : Nat) :
    cycle (scanning s src p m r) = streamCycle w.length src strip (scanning s src p m r) := h.scans _ _ rfl rfl

theorem scanning_zero (h : StreamCycles s w src strip cycle) (hfour : 4 ≤ w.length) (p : List Byte) :
    scanning s src p 0 0 = s := by
  have hhidden : { s.hidden with m := 0, q := 0, window := windowAt src 0 } = s.hidden := by
    calc { s.hidden with m := 0, q := 0, window := windowAt src 0 }
        = { s.hidden with m := s.hidden.m, q := s.hidden.q, window := s.hidden.window } := by
          rw [h.position, h.cursor, h.window hfour]
      _ = s.hidden := rfl
  rw [scanning, hhidden, List.take_zero, State.written_nil]

/-- The window slides to a position before which there is no MAGIC. -/
theorem run_slide (h : StreamCycles s w src strip cycle) {m : Nat} (hm : m + 3 ≤ w.length) (hfour : 4 ≤ w.length)
    (hno : ∀ i < m, (w.drop i).take 4 ≠ s.params.magic.bytes) (p : List Byte) :
    Cycle.run cycle m s = .busy (scanning s src p m 0) := by
  have hrun := Cycle.run_busy (cycle := cycle) (st := fun i => scanning s src p i 0) (n := m) (fun i hi => ?_) le_rfl
  · rwa [h.scanning_zero hfour] at hrun
  · have hfit : i + 4 ≤ w.length := by omega
    have hwindow : windowAt src i ≠ s.params.magic.bytes := windowAt_eq h.source hfit ▸ hno i hi
    rw [h.cycle_scanning]
    exact streamCycle_slide (s := scanning s src p i 0) hfit rfl hwindow

/-- A stream too short for MAGIC ends the scan at once. -/
theorem run_short (h : StreamCycles s w src strip cycle) (hshort : w.length < 4) :
    Cycle.run cycle 1 s = .done (s.raise .noPayloadFound) := by
  have hcycle : cycle s = streamCycle w.length src strip s := by
    simpa only [State.written_nil] using h.scans [] s.hidden rfl rfl
  have hend : w.length < s.hidden.m + 4 := by rwa [h.position, Nat.zero_add]
  simp only [Cycle.run, hcycle, streamCycle_none hend]

/-- No MAGIC: the window slides to the end of the stream. -/
theorem run_none (h : StreamCycles s w src strip cycle) (hnone : findMagic s.params.magic w = none) :
    ∃ h', Cycle.run cycle (w.length - 3 + 1) s = .done ((s.raise .noPayloadFound).withHidden h') := by
  rcases Nat.lt_or_ge w.length 4 with hshort | hfour
  · refine ⟨s.hidden, ?_⟩
    rw [Nat.sub_eq_zero_of_le (Nat.le_of_lt_succ hshort)]
    exact h.run_short hshort
  · refine ⟨(scanning s src [] (w.length - 3) 0).hidden, ?_⟩
    have hlast : w.length < (scanning s src [] (w.length - 3) 0).hidden.m + 4 := by
      change w.length < w.length - 3 + 4
      omega
    rw [Cycle.run_add, h.run_slide (by omega) hfour (fun i _ => findMagic_eq_none hnone i) []]
    simp only [Cycle.run, h.cycle_scanning, streamCycle_none hlast]
    rfl

section
variable {m : Nat} (h : StreamCycles s w src strip cycle) (hsome : findMagic s.params.magic w = some m)
include h hsome

/-- MAGIC at `m`: the window slides there, and the cycles go on from there. -/
theorem run_some (k : Nat) (p : List Byte) :
    Cycle.run cycle (m + k) s = Cycle.run cycle k (scanning s src p m 0) := by
  obtain ⟨hhere, hbefore⟩ := findMagic_eq_some hsome
  have hfit := le_of_take_four_eq hhere
  rw [Cycle.run_add, h.run_slide (by omega) (by omega) hbefore p]

theorem window_some : windowAt src m = s.params.magic.bytes := by
  obtain ⟨hhere, -⟩ := findMagic_eq_some hsome
  rw [windowAt_eq h.source (le_of_take_four_eq hhere), hhere]

theorem cycle_truncated (h8 : w.length - m < 8) :
    cycle (scanning s src [] m 0) =
      .done (((s.raise .truncatedHeader).detected m none).withHidden (scanning s src [] m 0).hidden) := by
  have hfit := le_of_take_four_eq (findMagic_eq_some hsome).1
  rw [h.cycle_scanning]
  exact streamCycle_truncated (s := scanning s src [] m 0) hfit (h.window_some hsome) h8

theorem cycle_payload (h8 : 8 ≤ w.length - m) (p : List Byte) (r : Nat) :
    cycle (scanning s src p m r) = payloadCycle w.length src strip (lengthField w m) (scanning s src p m r) := by
  have hfit := le_of_take_four_eq (findMagic_eq_some hsome).1
  rw [h.cycle_scanning, lengthField, ← windowAt_eq h.source (by omega)]
  exact streamCycle_payload (s := scanning s src p m r) hfit (h.window_some hsome) h8

/-- A cycle at MAGIC that completes. -/
theorem run_ends {u : State} (hdone : cycle (scanning s src [] m 0) = .done u) :
    Cycle.run cycle (m + 1) s = .done u := by
  rw [h.run_some hsome 1 []]
  simp only [Cycle.run, hdone]

theorem cycle_overrun (h8 : 8 ≤ w.length - m) (hl : w.length - m - 8 < lengthField w m) :
    cycle (scanning s src [] m 0) =
      .done (((s.raise .payloadOverrun).detected m (some (lengthField w m))).withHidden
        (scanning s src [] m 0).hidden) := by
  rw [h.cycle_payload hsome h8]
  exact payloadCycle_overrun (s := scanning s src [] m 0) hl

section
variable (h8 : 8 ≤ w.length - m) (hl : lengthField w m ≤ w.length - m - 8)
include h8 hl

theorem cycle_tooShort (hstrip : lengthField w m < strip) :
    cycle (scanning s src [] m 0) =
      .done (((s.raise .tooShort).detected m (some (lengthField w m))).withHidden
        (scanning s src [] m 0).hidden) := by
  rw [h.cycle_payload hsome h8]
  exact payloadCycle_tooShort (s := scanning s src [] m 0) hl hstrip

theorem cycle_tooLong (hstrip : strip ≤ lengthField w m) (hout : s.params.outmax < lengthField w m - strip) :
    cycle (scanning s src [] m 0) =
      .done ((s.raise .operandTooLong).withHidden (scanning s src [] m 0).hidden) := by
  rw [h.cycle_payload hsome h8, payloadCycle_found (s := scanning s src [] m 0) hl hstrip]
  exact if_pos ((s.resultTooLong_iff _).mpr hout)

/-- A payload that fits OUT is copied without its last `strip` bytes. -/
theorem run_copies (hs : s.Inv) (hstrip : strip ≤ lengthField w m)
    (hout : lengthField w m - strip ≤ s.params.outmax) :
    ∃ h', Cycle.run cycle (m + (lengthField w m - strip + 1)) s =
      .done (((s.complete (strippedPayload w m strip)).detected m (some (lengthField w m))).withHidden h') := by
  have hlen := strippedPayload_length hl strip
  have hfits := ne_true_of_eq_false (State.resultFits hout)
  have hcycle (r : Nat) := (h.cycle_payload hsome h8 (strippedPayload w m strip) r).trans
    (payloadCycle_found (s := scanning s src (strippedPayload w m strip) m r) hl hstrip)
  have hbusy : ∀ r < lengthField w m - strip,
      cycle (scanning s src (strippedPayload w m strip) m r) =
        .busy (scanning s src (strippedPayload w m strip) m (r + 1)) := by
    intro r hr
    have hbyte : src (m + 8 + r) = (strippedPayload w m strip).getD r 0 := by
      rw [h.source _ (by omega), strippedPayload_getD hr]
    calc cycle (scanning s src (strippedPayload w m strip) m r)
        = .busy (((scanning s src (strippedPayload w m strip) m r).putOut r (src (m + 8 + r))).withHidden
            { s.hidden with m := m, q := r + 1, window := windowAt src m }) :=
          (hcycle r).trans ((if_neg hfits).trans (if_pos hr))
      _ = .busy (scanning s src (strippedPayload w m strip) m (r + 1)) := by
        rw [hbyte, scanning, State.written_putOut hs.outWf.1 (hlen.symm ▸ hr), scanning]
  have hdone : cycle (scanning s src (strippedPayload w m strip) m (lengthField w m - strip)) =
      .done (((s.complete (strippedPayload w m strip)).detected m (some (lengthField w m))).withHidden
        { s.hidden with m := m, q := lengthField w m - strip, window := windowAt src m }) := by
    refine (hcycle _).trans ((if_neg hfits).trans ((if_neg (Nat.lt_irrefl _)).trans ?_))
    rw [← State.withHidden_detected, ← State.written_endOp, hlen, scanning, ← hlen, List.take_length]
    rfl
  exact ⟨_, (h.run_some hsome _ _).trans (Cycle.run_done hbusy hdone)⟩

end

end

/-- A scan ends as the operation does, after at most one cycle for each byte of the stream, one for each byte of the
result and one to complete (R123). -/
theorem run_end (h : StreamCycles s w src strip cycle) (hs : s.Inv) :
    ∃ n h', n ≤ w.length + (s.streamEnd strip (scan s.params.magic w)).outlen.toNat + 1 ∧
      Cycle.run cycle n s = .done ((s.streamEnd strip (scan s.params.magic w)).withHidden h') := by
  cases hfind : findMagic s.params.magic w with
  | none =>
    obtain ⟨h', hrun⟩ := h.run_none hfind
    rw [scan_of_none hfind]
    exact ⟨_, h', by omega, hrun⟩
  | some m =>
    have hfit := le_of_take_four_eq (findMagic_eq_some hfind).1
    rcases scan_of_some hfind with ⟨h8, hscan⟩ | ⟨h8, hl, hscan⟩ | ⟨h8, hl, hscan⟩ <;> rw [hscan]
    · exact ⟨m + 1, _, by omega, h.run_ends hfind (h.cycle_truncated hfind h8)⟩
    · exact ⟨m + 1, _, by omega, h.run_ends hfind (h.cycle_overrun hfind h8 hl)⟩
    rcases Nat.lt_or_ge (lengthField w m) strip with hstrip | hstrip
    · rw [State.streamEnd_tooShort _ _ _ hstrip]
      exact ⟨m + 1, _, by omega, h.run_ends hfind (h.cycle_tooShort hfind h8 hl hstrip)⟩
    rcases Nat.lt_or_ge s.params.outmax (lengthField w m - strip) with hout | hout
    · rw [State.streamEnd_tooLong _ _ hstrip hout]
      exact ⟨m + 1, _, by omega, h.run_ends hfind (h.cycle_tooLong hfind h8 hl hstrip hout)⟩
    · rw [State.streamEnd_fits _ _ hstrip hout]
      obtain ⟨h', hrun⟩ := h.run_copies hfind h8 hl hs hstrip hout
      refine ⟨_, h', ?_, hrun⟩
      have hword : lengthField w m - strip ≤ wordMax := hout.trans (Params.legal_bounds hs.legal).2.1
      rw [State.detected_outlen, State.complete_outlen, ← strippedPayload, strippedPayload_length hl,
        toNat_ofNat_wordMax hword]
      omega

end StreamCycles

/-! ### The EXTRACT sequencer -/

theorem State.extractStream_length (s : State) :
    (extractStream s.params s.pixels).length = slots s.pixlen.toNat / spb s.params.B := by
  rw [extractStream, unpack_length, State.xtract_pixels_length]

/-- A cycle that reads a slot. -/
theorem extractCycle_slot {s : State} (hp : s.hidden.p < s.pixlen.toNat) :
    extractCycle s = .busy (s.withHidden (s.extractNext (symbolOf s.params.B (s.byteAt .pix s.hidden.p)))) := if_pos hp

/-- A cycle after the slots have been read. -/
theorem extractCycle_scan {s : State} (hp : s.pixlen.toNat ≤ s.hidden.p) :
    extractCycle s =
      streamCycle s.hidden.stream.length (fun i => s.hidden.stream.getD i 0) s.params.N s := if_neg (Nat.not_lt.mpr hp)

/-- The hidden state after `r` slots: the bytes of the whole groups are in the stream, the units of the group begun in
the accumulator (R136). -/
def extractHidden (s : State) (r : Nat) : Hidden :=
  let q := r / spb s.params.B
  { s.hidden with
    k := r, p := slotAddr r, t := r % spb s.params.B
    acc := joinByte s.params.B (groupUnits s.params.B (xtract s.params.B s.pixels) q (r % spb s.params.B))
    stream := (extractStream s.params s.pixels).take q
    window := if q = 0 then s.hidden.window else ((extractStream s.params s.pixels).take q).take 4 }

theorem extractHidden_zero (s : State) : extractHidden s.startOp 0 = s.startOp.hidden := by
  simp [extractHidden, Hidden.start, groupUnits, joinByte, slotAddr]

/-- The accumulator after the next unit. -/
theorem joinStep_extractHidden (s : State) (r : Nat) :
    joinStep s.params.B (extractHidden s r).acc ((xtract s.params.B s.pixels).getD r 0) =
      joinByte s.params.B (groupUnits s.params.B (xtract s.params.B s.pixels) (r / spb s.params.B)
        (r % spb s.params.B + 1)) := by
  have hplace : r / spb s.params.B * spb s.params.B + r % spb s.params.B = r := Nat.div_add_mod' ..
  rw [groupUnits_succ, joinByte_snoc, hplace]
  rfl

/-- A unit that fills its group: the byte it completes goes to the stream. -/
theorem extractNext_full {s : State} (hs : s.Inv) {r : Nat} (hr : r < slots s.pixlen.toNat)
    (ht : r % spb s.params.B + 1 = spb s.params.B) :
    (s.withHidden (extractHidden s r)).extractNext ((xtract s.params.B s.pixels).getD r 0) =
      extractHidden s (r + 1) := by
  obtain ⟨hquot, hrem⟩ := div_mod_succ_of_last ht
  have hq : r / spb s.params.B < (xtract s.params.B s.pixels).length / spb s.params.B := by
    rw [State.xtract_pixels_length, Nat.lt_iff_add_one_le, ← hquot]
    exact Nat.div_le_div_right hr
  have hstream : (extractStream s.params s.pixels).take (r / spb s.params.B) ++
      [joinStep s.params.B (extractHidden s r).acc ((xtract s.params.B s.pixels).getD r 0)] =
        (extractStream s.params s.pixels).take (r / spb s.params.B + 1) := by
    rw [joinStep_extractHidden, ht, ← unpack_getD (Params.legal_B hs.legal) hq]
    exact take_succ_getD (by rwa [extractStream, unpack_length])
  calc (s.withHidden (extractHidden s r)).extractNext ((xtract s.params.B s.pixels).getD r 0)
      = { extractHidden s r with
          k := r + 1, p := slotAddr (r + 1), t := 0, acc := 0
          stream := (extractStream s.params s.pixels).take (r / spb s.params.B) ++
            [joinStep s.params.B (extractHidden s r).acc ((xtract s.params.B s.pixels).getD r 0)]
          window := ((extractStream s.params s.pixels).take (r / spb s.params.B) ++
            [joinStep s.params.B (extractHidden s r).acc ((xtract s.params.B s.pixels).getD r 0)]).take 4 } :=
        if_pos ht
    _ = extractHidden s (r + 1) := by
      rw [hstream]
      simp [extractHidden, hquot, hrem, groupUnits, joinByte]

/-- A unit that does not fill its group: it goes into the accumulator. -/
theorem extractNext_partial {s : State} (hpos : 0 < spb s.params.B) {r : Nat}
    (ht : r % spb s.params.B + 1 ≠ spb s.params.B) :
    (s.withHidden (extractHidden s r)).extractNext ((xtract s.params.B s.pixels).getD r 0) =
      extractHidden s (r + 1) := by
  obtain ⟨hquot, hrem⟩ := div_mod_succ_of_inner hpos ht
  calc (s.withHidden (extractHidden s r)).extractNext ((xtract s.params.B s.pixels).getD r 0)
      = { extractHidden s r with
          k := r + 1, p := slotAddr (r + 1), t := r % spb s.params.B + 1
          acc := joinStep s.params.B (extractHidden s r).acc ((xtract s.params.B s.pixels).getD r 0) } := if_neg ht
    _ = extractHidden s (r + 1) := by
      rw [joinStep_extractHidden]
      simp [extractHidden, hquot, hrem]

/-- The state after `r` slots of EXTRACT. -/
def extracting (s : State) (r : Nat) : State := s.withHidden (extractHidden s r)

theorem extractCycle_extracting {s : State} (hs : s.Inv) {r : Nat} (hr : r < slots s.pixlen.toNat) :
    extractCycle (extracting s r) = .busy (extracting s (r + 1)) := by
  have hnext : (extracting s r).extractNext ((xtract s.params.B s.pixels).getD r 0) = extractHidden s (r + 1) := by
    by_cases ht : r % spb s.params.B + 1 = spb s.params.B
    · exact extractNext_full hs hr ht
    · exact extractNext_partial (spb_pos (Params.legal_B hs.legal)) ht
  calc extractCycle (extracting s r)
      = .busy ((extracting s r).withHidden
          ((extracting s r).extractNext (symbolOf s.params.B (s.byteAt .pix (slotAddr r))))) :=
        extractCycle_slot (s := extracting s r) (slotAddr_lt hr)
    _ = .busy (extracting s (r + 1)) := by
      rw [← s.xtract_pixels_getD hr, hnext]
      rfl

/-- Every slot is read before the scan, in one cycle each (R136). -/
theorem extractCycle_run {s : State} (hs : s.Inv) :
    Cycle.run extractCycle (slots s.pixlen.toNat) s.startOp =
      .busy (extracting s.startOp (slots s.pixlen.toNat)) := by
  have hstart : extracting s.startOp 0 = s.startOp := by rw [extracting, extractHidden_zero, State.withHidden]
  have hrun := Cycle.run_busy (st := extracting s.startOp) (n := slots s.pixlen.toNat)
    (fun _ hr => extractCycle_extracting hs.startOp hr) le_rfl
  rwa [hstart] at hrun

/-- The stream after all slots. -/
theorem extractHidden_stream_all (s : State) :
    (extractHidden s (slots s.pixlen.toNat)).stream = extractStream s.params s.pixels :=
  List.take_of_length_le s.extractStream_length.le

/-- After the last slot EXTRACT scans the stream it has read. -/
theorem extractCycle_scans (s : State) :
    StreamCycles (extracting s.startOp (slots s.pixlen.toNat)) (extractStream s.params s.pixels)
      (fun i => (extractStream s.params s.pixels).getD i 0) s.params.N extractCycle where
  source _ _ := rfl
  scans p h hp hstream := by
    have hstream : h.stream = extractStream s.params s.pixels :=
      hstream.trans (extractHidden_stream_all s.startOp)
    have hend : s.pixlen.toNat ≤ h.p := (le_slotAddr_slots _).trans_eq hp.symm
    rw [extractCycle_scan (s := (extracting s.startOp _).written p h) hend, ← hstream]
    rfl
  position := rfl
  cursor := rfl
  window hfour := by
    have hlen := s.extractStream_length
    have hq : slots s.pixlen.toNat / spb s.params.B ≠ 0 := by omega
    have hwindow : (extractHidden s.startOp (slots s.pixlen.toNat)).window =
        ((extractStream s.params s.pixels).take (slots s.pixlen.toNat / spb s.params.B)).take 4 := if_neg hq
    rw [windowAt_eq (fun _ _ => rfl) hfour, List.drop_zero]
    exact hwindow.trans (by rw [List.take_of_length_le hlen.le])

theorem extractSequencer_agrees {s : State} (hs : s.Inv) :
    ∃ t h n, exec .extract s.startOp = .next t ∧
      n ≤ slots s.pixlen.toNat + slots s.pixlen.toNat / spb s.params.B + t.outlen.toNat + 1 ∧
      extractSequencer n s.startOp = .done { t with hidden := h } := by
  obtain ⟨n, h, hn, hdone⟩ := (extractCycle_scans s).run_end { hs.startOp with }
  rw [extracting, State.withHidden_streamEnd, State.extractStream_length] at hn
  rw [extracting, State.withHidden_streamEnd] at hdone
  refine ⟨_, h, slots s.pixlen.toNat + n, exec_extract s.startOp, ?_, ?_⟩
  · rw [Nat.add_assoc, Nat.add_assoc, ← Nat.add_assoc (slots s.pixlen.toNat / spb s.params.B)]
    exact Nat.add_le_add_left hn _
  · rw [extractSequencer, Cycle.run_add, extractCycle_run hs]
    exact hdone

/-- Settles O59: XTRACT's first `r` symbols stand in OUT after `r` cycles; EXTRACT's stream is the bytes of the whole
groups read, and after the last slot the scan of it ends as the operation does. -/
theorem readerSequencersAgree : Obligations.ReaderSequencersAgree := by
  intro s hs
  obtain ⟨hxtract, hxtractBusy⟩ := xtractSequencer_agrees hs
  exact ⟨hxtract, hxtractBusy, ⟨_, extractCycle_run hs, extractHidden_stream_all s.startOp⟩, extractSequencer_agrees hs⟩

end Sys2Proof.Machine

/-! PROOFS. The frame builder and the frame scanner (43_frame.md): the header fields as numbers, what the frame at a
position of a stream is, `scan` outcome by outcome, the operations FRAME and SCAN, and their sequencers. -/

namespace Sys2Proof.Machine

/-! ### Four bytes as a number (R12) -/

/-- Four bytes are the `be32` of a word: read as MAGIC, that of `CFG_MAGIC`. -/
theorem exists_be32_eq {w : List Byte} (h : w.length = 4) : ∃ v, be32 v = w := by
  obtain ⟨a, b, c, d, rfl⟩ := List.length_eq_four.mp h
  exact ⟨_, be32_cfgMagicWord ⟨a, b, c, d⟩⟩

theorem be32_ube32 {w : List Byte} (h : w.length = 4) : be32 (BitVec.ofNat 32 (ube32 w)) = w := by
  obtain ⟨v, rfl⟩ := exists_be32_eq h
  rw [ube32_be32, BitVec.ofNat_toNat, BitVec.setWidth_eq]

theorem ube32_le_wordMax {w : List Byte} (h : w.length = 4) : ube32 w ≤ wordMax := by
  obtain ⟨v, rfl⟩ := exists_be32_eq h
  rw [ube32_be32]
  exact Nat.le_pred_of_lt v.isLt

/-! ### The parts of a frame (R62) -/

theorem frame_take_four (g : Magic) (e : List Byte) : (frame g e).take 4 = g.bytes := rfl

theorem frame_lengthField (g : Magic) (e : List Byte) :
    ((frame g e).drop 4).take 4 = be32 (BitVec.ofNat 32 e.length) := rfl

theorem frame_drop_eight (g : Magic) (e : List Byte) : (frame g e).drop 8 = e := rfl

/-- A byte sequence is a frame by its three parts. -/
theorem eq_frame_iff {g : Magic} {e f : List Byte} :
    f = frame g e ↔ f.take 4 = g.bytes ∧ (f.drop 4).take 4 = be32 (BitVec.ofNat 32 e.length) ∧ f.drop 8 = e := by
  refine ⟨?_, fun ⟨hmagic, hlength, hpayload⟩ => ?_⟩
  · rintro rfl
    exact ⟨frame_take_four g e, frame_lengthField g e, frame_drop_eight g e⟩
  · calc f = f.take 4 ++ ((f.drop 4).take 4 ++ f.drop 8) := by
          rw [← List.drop_drop (i := 4) (j := 4), List.take_append_drop, List.take_append_drop]
      _ = frame g e := by rw [hmagic, hlength, hpayload, ← List.append_assoc, frame]

/-- Settles O18: the three parts of a frame are read off it, and the payload alone decides two frames. -/
theorem frameLaws : Obligations.FrameLaws := by
  intro g e he
  refine ⟨rfl, frame_length g e, frame_take_four g e, ?_, frame_drop_eight g e, fun e' _ heq => ?_,
    fun hlen => ⟨?_, ?_⟩⟩
  · rw [frame_lengthField, ube32_be32, toNat_ofNat_wordMax he]
  · rw [← frame_drop_eight g e, heq, frame_drop_eight]
  · rw [frame_lengthField, hlen]
    decide
  · rw [frame_length, hlen]

/-! ### The outcomes of `scan` (R121) -/

/-- `findMagic` answers the least position that holds MAGIC. -/
theorem findMagic_eq_some_iff {g : Magic} {w : List Byte} {m : Nat} :
    findMagic g w = some m ↔ (w.drop m).take 4 = g.bytes ∧ ∀ i < m, (w.drop i).take 4 ≠ g.bytes := by
  refine ⟨findMagic_eq_some, fun ⟨hhere, hbefore⟩ => ?_⟩
  cases hfind : findMagic g w with
  | none => exact absurd hhere (findMagic_eq_none hfind m)
  | some k =>
    obtain ⟨hkhere, hkbefore⟩ := findMagic_eq_some hfind
    have hmk : m ≤ k := Nat.not_lt.mp fun hlt => hbefore k hlt hkhere
    have hkm : k ≤ m := Nat.not_lt.mp fun hlt => hkbefore m hlt hhere
    rw [Nat.le_antisymm hkm hmk]

section
variable {g : Magic} {w : List Byte} {m : Nat} (hfind : findMagic g w = some m)
include hfind

theorem scan_truncated (h8 : w.length - m < 8) : scan g w = .truncatedHeader m := by
  rcases scan_of_some hfind with ⟨-, hscan⟩ | ⟨h, -⟩ | ⟨h, -⟩
  · exact hscan
  all_goals omega

theorem scan_overrun (h8 : 8 ≤ w.length - m) (hl : w.length - m - 8 < lengthField w m) :
    scan g w = .payloadOverrun m (lengthField w m) := by
  rcases scan_of_some hfind with ⟨h, -⟩ | ⟨-, -, hscan⟩ | ⟨-, h, -⟩
  · omega
  · exact hscan
  · omega

theorem scan_found (h8 : 8 ≤ w.length - m) (hl : lengthField w m ≤ w.length - m - 8) :
    scan g w = .found m (lengthField w m) ((w.drop (m + 8)).take (lengthField w m)) := by
  rcases scan_of_some hfind with ⟨h, -⟩ | ⟨-, h, -⟩ | ⟨-, -, hscan⟩
  · omega
  · omega
  · exact hscan

end

/-! ### The LENGTH field of a header that is whole -/

section
variable {w : List Byte} {m : Nat} (h8 : 8 ≤ w.length - m)
include h8

theorem lengthField_bytes : ((w.drop (m + 4)).take 4).length = 4 := by
  rw [List.length_take, List.length_drop]
  omega

theorem be32_lengthField : be32 (BitVec.ofNat 32 (lengthField w m)) = (w.drop (m + 4)).take 4 :=
  be32_ube32 (lengthField_bytes h8)

theorem lengthField_le_wordMax : lengthField w m ≤ wordMax := ube32_le_wordMax (lengthField_bytes h8)

theorem lengthField_eq_sum :
    lengthField w m = (w.getD (m + 4) 0).toNat * 2 ^ 24 + (w.getD (m + 5) 0).toNat * 2 ^ 16
      + (w.getD (m + 6) 0).toNat * 2 ^ 8 + (w.getD (m + 7) 0).toNat := by
  rw [lengthField, take_four (by omega)]
  simp only [ube32, List.foldl_cons, List.foldl_nil, Nat.add_assoc, Nat.reduceAdd]
  omega

end

/-- Settles O19: the least position of MAGIC is what `findMagic` answers, and the outcomes there are decided in the order
of R121. -/
theorem scanFunction : Obligations.ScanFunction := by
  intro g w
  refine ⟨fun hno => ?_, fun m _ hhere hbefore => ?_⟩
  · cases hfind : findMagic g w with
    | none => exact scan_of_none hfind
    | some m =>
      have hhere := (findMagic_eq_some hfind).1
      exact absurd hhere (hno m (le_of_take_four_eq hhere))
  · have hfind := findMagic_eq_some_iff.mpr ⟨hhere, hbefore⟩
    refine ⟨scan_truncated hfind, fun h8 L hL => ?_⟩
    rw [← lengthField_eq_sum h8] at hL
    subst hL
    rw [← Nat.sub_sub]
    exact ⟨scan_overrun hfind h8, scan_found hfind h8⟩

/-! ### What is found is a frame (R125) -/

/-- Bytes `i` to `i + k` of a sequence are found in its first `n`. -/
theorem take_drop_take {w : List Byte} {n i k : Nat} (h : i + k ≤ n) :
    ((w.take n).drop i).take k = (w.drop i).take k := by
  rw [List.drop_take, List.take_take, Nat.min_eq_left (by omega)]

/-- The frame at position `m` of a stream, by its three parts. -/
theorem take_drop_eq_frame_iff {g : Magic} {w e : List Byte} {m l : Nat} :
    (w.drop m).take (8 + l) = frame g e ↔
      (w.drop m).take 4 = g.bytes ∧ (w.drop (m + 4)).take 4 = be32 (BitVec.ofNat 32 e.length) ∧
        (w.drop (m + 8)).take l = e := by
  rw [eq_frame_iff, List.take_take, Nat.min_eq_left (by omega), take_drop_take (by omega), List.drop_take,
    Nat.add_sub_cancel_left, List.drop_drop, List.drop_drop]

/-- A frame at position `m` ends within the stream. -/
theorem le_of_take_drop_eq_frame {g : Magic} {w e : List Byte} {m : Nat}
    (h : (w.drop m).take (8 + e.length) = frame g e) : m + 8 + e.length ≤ w.length := by
  have hlen := congrArg List.length h
  rw [List.length_take, List.length_drop, frame_length] at hlen
  omega

/-- `scan` finds what is at the least position of MAGIC, where that is a frame. -/
theorem scan_eq_found_iff {g : Magic} {w e : List Byte} {m l : Nat} :
    scan g w = .found m l e ↔
      e.length = l ∧ l ≤ wordMax ∧ (w.drop m).take (8 + l) = frame g e ∧ ∀ i < m, (w.drop i).take 4 ≠ g.bytes := by
  refine ⟨fun h => ?_, fun ⟨hlen, hword, hframe, hbefore⟩ => ?_⟩
  · cases hfind : findMagic g w with
    | none => cases h.symm.trans (scan_of_none hfind)
    | some k =>
      have hlen := scan_found_length h
      rcases scan_of_some hfind with ⟨-, hscan⟩ | ⟨-, -, hscan⟩ | ⟨h8, -, hscan⟩ <;> cases h.symm.trans hscan
      obtain ⟨hhere, hbefore⟩ := findMagic_eq_some hfind
      have hlength := (be32_lengthField h8).symm
      exact ⟨hlen, lengthField_le_wordMax h8, take_drop_eq_frame_iff.mpr ⟨hhere, hlen.symm ▸ hlength, rfl⟩, hbefore⟩
  · subst hlen
    have hfit := le_of_take_drop_eq_frame hframe
    obtain ⟨hhere, hlength, hpayload⟩ := take_drop_eq_frame_iff.mp hframe
    have hfield : lengthField w m = e.length := by
      rw [lengthField, hlength, ube32_be32, toNat_ofNat_wordMax hword]
    rw [scan_found (findMagic_eq_some_iff.mpr ⟨hhere, hbefore⟩) (by omega) (by omega), hfield, hpayload]

/-- `scan` looks at nothing after the payload it finds. -/
theorem scan_found_of_take_eq {g : Magic} {w w' e : List Byte} {m l : Nat} (h : scan g w = .found m l e)
    (htake : w'.take (m + 8 + l) = w.take (m + 8 + l)) : scan g w' = .found m l e := by
  obtain ⟨hlen, hword, hframe, hbefore⟩ := scan_eq_found_iff.mp h
  have hsame {i k : Nat} (hik : i + k ≤ m + 8 + l) : (w'.drop i).take k = (w.drop i).take k := by
    rw [← take_drop_take hik, htake, take_drop_take hik]
  refine scan_eq_found_iff.mpr ⟨hlen, hword, ?_, fun i hi => ?_⟩
  · rw [hsame (by omega), hframe]
  · rw [hsame (by omega)]
    exact hbefore i hi

/-- Settles O20: a frame at the front is found by `scan_eq_found_iff`, which also says that what is found is one. -/
theorem scanFindsFrames : Obligations.ScanFindsFrames := by
  refine fun g => ⟨fun e z he => ?_, fun w m l e h => ?_, fun w m l e h z => ?_⟩
  · refine scan_eq_found_iff.mpr ⟨rfl, he, ?_, nofun⟩
    rw [List.drop_zero, List.take_left' (frame_length g e)]
  · obtain ⟨-, -, hframe, -⟩ := scan_eq_found_iff.mp h
    exact hframe
  · obtain ⟨rfl, -, hframe, -⟩ := scan_eq_found_iff.mp h
    have hfit := le_of_take_drop_eq_frame hframe
    refine scan_found_of_take_eq h ?_
    rw [List.take_left' (List.length_take_of_le hfit)]

/-! ### The two operations -/

/-- The frame of the operand (R118). -/
def State.framed (s : State) : List Byte := frame s.params.magic s.operand

theorem State.framed_eq (s : State) :
    s.framed = s.params.magic.bytes ++ be32 (BitVec.ofNat 32 s.inlen.toNat) ++ s.operand := by
  rw [State.framed, frame, State.operand_length]

theorem State.framed_length (s : State) : s.framed.length = 8 + s.inlen.toNat := by
  rw [State.framed, frame_length, State.operand_length]

theorem exec_frame_eq (s : State) :
    exec .frame s = s.returnTested (8 + s.inlen.toNat) s.framed := rfl

/-- Settles O25: FRAME tests its two lengths and returns `frame` of the operand, eight bytes longer. -/
theorem frameRuns : Obligations.FrameRuns := by
  refine ⟨by decide, fun s hs => ?_⟩
  rw [← State.framed_eq]
  exact hs.returnTested_runs s.framed_length

theorem exec_scan_tooLong {s : State} (h : s.params.inmax < s.inlen.toNat) :
    exec .scan s = .next (s.raise .operandTooLong) := if_pos (s.operandTooLong_iff.mpr h)

/-- On an operand that fits IN, SCAN ends as its scan does, with nothing dropped from the payload. -/
theorem exec_scan_fits {s : State} (h : s.inlen.toNat ≤ s.params.inmax) :
    exec .scan s = .next (s.streamEnd 0 (scan s.params.magic s.operand)) := by
  simp only [exec, execScan, State.operandFits h, Bool.false_eq_true, if_false]
  cases hscan : scan s.params.magic s.operand with
  | found m l e =>
    rcases Nat.lt_or_ge s.params.outmax l with hout | hout
    · rw [State.streamEnd_tooLong m e (Nat.zero_le l) hout]
      exact if_pos ((s.resultTooLong_iff l).mpr hout)
    · have hall : e.take (l - 0) = e := List.take_of_length_le (scan_found_length hscan).le
      rw [State.streamEnd_fits m e (Nat.zero_le l) hout, hall]
      exact if_neg (ne_true_of_eq_false (State.resultFits hout))
  | _ => rfl

/-- The values `scan` reports, as `FPOS` and `FLEN` hold them (R32). -/
def ScanResult.fieldsFit : ScanResult → Prop
  | .noPayloadFound => True
  | .truncatedHeader m => m ≤ wordMax
  | .payloadOverrun m l => m ≤ wordMax ∧ l ≤ wordMax
  | .found m l _ => m ≤ wordMax ∧ l ≤ wordMax

/-- They fit their registers in a stream whose length does. -/
theorem scan_fieldsFit {w : List Byte} (hw : w.length ≤ wordMax) (g : Magic) : (scan g w).fieldsFit := by
  cases hfind : findMagic g w with
  | none => rw [scan_of_none hfind]; trivial
  | some m =>
    have hm := le_of_take_four_eq (findMagic_eq_some hfind).1
    have hpos : m ≤ wordMax := by omega
    rcases scan_of_some hfind with ⟨-, hscan⟩ | ⟨h8, -, hscan⟩ | ⟨h8, -, hscan⟩ <;> rw [hscan]
    · exact hpos
    · exact ⟨hpos, lengthField_le_wordMax h8⟩
    · exact ⟨hpos, lengthField_le_wordMax h8⟩

/-- No operation changes the parameters, `INLEN` or a byte of IN (R8, R29, R33). -/
theorem exec_keepsOperand {i : Instr} {s t : State} (h : exec i s = .next t) : s.KeepsOperand t := by
  cases exec_shape h with
  | raised e ht => exact ht ▸ s.raise_keepsOperand e
  | raisedAt e m l ht => exact ht ▸ (s.raise_keepsOperand e).detected m l
  | returned r ht => exact ht ▸ s.complete_keepsOperand r
  | returnedAt r m l ht => exact ht ▸ (s.complete_keepsOperand r).detected m (some l)
  | ingested _ ht => exact ht ▸ ⟨rfl, rfl, fun _ => rfl, rfl, rfl⟩
  | written y ht => exact ht ▸ s.writeSymbols_keepsOperand y

/-- Settles O26: SCAN ends as `scan` of the operand says, and the position and LENGTH it writes fit their registers. -/
theorem scanRuns : Obligations.ScanRuns := by
  refine ⟨by decide, fun s hs => ⟨fun hlong => ?_, fun hin => ?_, fun t ht => ?_⟩⟩
  · exact ⟨_, exec_scan_tooLong hlong, s.raise_raises _, s.raise_scanUnspecified _⟩
  · have hexec := exec_scan_fits hin
    have hfields := scan_fieldsFit (w := s.operand) (s.operand_length.trans_le (Nat.le_pred_of_lt s.inlen.isLt))
      s.params.magic
    refine ⟨fun hscan => ?_, fun m hscan => ?_, fun m L hscan => ?_, fun m L e hscan hout => ?_,
      fun m L e hscan hout => ?_⟩ <;> rw [hscan] at hexec hfields
    · exact ⟨_, hexec, s.raise_raises _, s.raise_scanUnspecified _⟩
    · exact ⟨_, hexec, (s.raise_raises _).detected m none, rfl, toNat_ofNat_wordMax hfields, rfl⟩
    · obtain ⟨hm, hL⟩ := hfields
      exact ⟨_, hexec, (s.raise_raises _).detected m (some L), rfl, toNat_ofNat_wordMax hm, rfl, toNat_ofNat_wordMax hL⟩
    · rw [State.streamEnd_tooLong m e (Nat.zero_le L) hout] at hexec
      exact ⟨_, hexec, s.raise_raises _, s.raise_scanUnspecified _⟩
    · obtain ⟨hm, hL⟩ := hfields
      have hlen := scan_found_length hscan
      have hreturns := State.complete_returns hs.outWf.1 (res := e) (hlen.trans_lt (Nat.lt_of_le_pred (by decide) hL))
      rw [State.streamEnd_fits m e (Nat.zero_le L) hout, Nat.sub_zero, List.take_of_length_le hlen.le] at hexec
      exact ⟨_, hexec, hreturns.detected m (some L), hreturns.outlen.trans hlen, rfl, toNat_ofNat_wordMax hm, rfl,
        toNat_ofNat_wordMax hL⟩
  · exact ⟨exec_keepsOperand ht, (exec_pixels ht).resolve_right (by simp)⟩

/-! ### The SCAN sequencer -/

/-- The state SCAN's cycles start from: the window loaded at position 0 (R123). -/
def scanLoaded (s : State) : State := s.withHidden { s.hidden with window := windowAt (s.byteAt .inBuf) 0 }

theorem scanSequencer_fits {s : State} (h : s.inlen.toNat ≤ s.params.inmax) (n : Nat) :
    scanSequencer n s = Cycle.run scanCycle n (scanLoaded s) := by
  simp only [scanSequencer, State.operandFits h, Bool.false_eq_true, if_false, scanLoaded, windowAt, Nat.zero_add,
    State.withHidden]

theorem scanSequencer_tooLong {s : State} (h : s.params.inmax < s.inlen.toNat) (n : Nat) :
    scanSequencer n s = .done (s.raise .operandTooLong) := if_pos (s.operandTooLong_iff.mpr h)

/-- SCAN's cycles scan the operand. -/
theorem scanCycle_scans (s : State) :
    StreamCycles (scanLoaded s.startOp) s.operand (s.byteAt .inBuf) 0 scanCycle where
  source _ hi := (s.operand_getD 0 (hi.trans_eq s.operand_length)).symm
  scans p h _ _ := by
    rw [State.operand_length]
    rfl
  position := rfl
  cursor := rfl
  window _ := rfl

theorem scanSequencer_agrees {s : State} (hs : s.Inv) :
    ∃ t h n, exec .scan s.startOp = .next t ∧ n ≤ s.inlen.toNat + t.outlen.toNat + 1 ∧
      scanSequencer n s.startOp = .done { t with hidden := h } := by
  rcases Nat.lt_or_ge s.params.inmax s.inlen.toNat with hlong | hin
  · exact ⟨_, s.startOp.hidden, 0, exec_scan_tooLong (s := s.startOp) hlong, Nat.zero_le _,
      scanSequencer_tooLong (s := s.startOp) hlong 0⟩
  · obtain ⟨n, h, hn, hdone⟩ := (scanCycle_scans s).run_end { hs.startOp with }
    rw [scanLoaded, State.withHidden_streamEnd, State.operand_length] at hn
    rw [scanLoaded, State.withHidden_streamEnd] at hdone
    exact ⟨_, h, n, exec_scan_fits (s := s.startOp) hin, hn, (scanSequencer_fits (s := s.startOp) hin n).trans hdone⟩

/-! ### The FRAME sequencer -/

/-- A cycle of FRAME during its copy. -/
theorem frameCycle_eq_copyCycle (s : State) (r : Nat) :
    frameCycle (copied s s.framed r) =
      copyCycle s.framed.length (fun i => s.framed.getD i 0) (copied s s.framed r) := by
  rw [State.framed_length]
  refine copyCycle_congr (fun i (hi : i < 8 + s.inlen.toNat) => ?_) _
  rw [State.framed]
  split
  · rename_i hheader
    rw [frame_getD_header _ _ hheader, State.operand_length]
    rfl
  · rename_i hpayload
    rw [frame_getD_payload _ _ (Nat.not_lt.mp hpayload), s.operand_getD 0 (by omega)]
    rfl

theorem frameCycle_copied {s : State} (hs : s.Inv) {r : Nat} (hr : r < 8 + s.inlen.toNat) :
    frameCycle (copied s s.framed r) = .busy (copied s s.framed (r + 1)) := by
  rw [frameCycle_eq_copyCycle, copyCycle_copied hs.outWf.1 (by rwa [State.framed_length])]

theorem frameCycle_copied_all (s : State) :
    frameCycle (copied s s.framed (8 + s.inlen.toNat)) =
      .done ((s.complete s.framed).withHidden { s.hidden with q := 8 + s.inlen.toNat }) := by
  rw [frameCycle_eq_copyCycle, ← State.framed_length, copyCycle_end, State.withHidden]

/-- Settles O60: SCAN's cycles scan the operand, and FRAME's copy the frame of it byte by byte. -/
theorem frameSequencersAgree : Obligations.FrameSequencersAgree := fun s hs =>
  ⟨scanSequencer_agrees hs, State.sequencer_agrees (copied_zero s s.startOp.framed)
    (fun _ hr => frameCycle_copied hs.startOp hr) (frameCycle_copied_all s.startOp)⟩

end Sys2Proof.Machine

/-! PROOFS. The composite operations (44_composite.md): INJECT as the writer of its symbols, EXTRACT as the end of its
scan, the round trip, and both as the programs of their primitives with a `MOVE` between two. -/

namespace Sys2Proof.Machine

/-! ### The writer's two modes of writing -/

/-- A writer that has passed its capacity test, or has none, writes the symbols that have a slot (R104, R105). -/
theorem State.writeSymbols_pixMem (s : State) {y : List Byte}
    (h : s.params.atomic = false ∨ y.length ≤ slots s.pixlen.toNat) :
    (s.writeSymbols y).pixMem = (s.withSymbols (y.take (slots s.pixlen.toNat))).pixMem := by
  rcases Nat.lt_or_ge (slots s.pixlen.toNat) y.length with hover | hfit
  · rw [s.writeSymbols_partial hover (h.resolve_right (Nat.not_le.mpr hover))]
    rfl
  · rw [s.writeSymbols_fits hfit, List.take_of_length_le hfit]
    rfl

section
variable {s : State} (hs : s.Inv) {y : List Byte} (h : s.params.atomic = false ∨ y.length ≤ slots s.pixlen.toNat)
include hs h

/-- A slot there is a symbol for. -/
theorem State.Inv.byteAt_written {k : Nat} (hy : k < y.length) (hk : k < slots s.pixlen.toNat) :
    (s.writeSymbols y).byteAt .pix (slotAddr k) = embedByte s.params.B (s.byteAt .pix (slotAddr k)) (y.getD k 0) := by
  have hmem := s.writeSymbols_pixMem h
  calc (s.writeSymbols y).byteAt .pix (slotAddr k)
      = (s.withSymbols (y.take (slots s.pixlen.toNat))).byteAt .pix (slotAddr k) :=
        congrArg (fun m => (Memory.read m (slotAddr k)).getD 0) hmem
    _ = embedByte s.params.B (s.byteAt .pix (slotAddr k)) (y.getD k 0) := by
      rw [hs.byteAt_withSymbols_slot (by rw [List.length_take]; exact Nat.lt_min.mpr ⟨hk, hy⟩) hk, getD_take hk]

/-- Any other byte of PIX. -/
theorem State.Inv.read_written_other {a : Nat} (ha : ∀ k < min (slots s.pixlen.toNat) y.length, a ≠ slotAddr k) :
    Memory.read (s.writeSymbols y).pixMem a = Memory.read s.pixMem a := by
  rw [s.writeSymbols_pixMem h]
  exact hs.read_withSymbols_other (by rwa [List.length_take])

end

/-! ### INJECT -/

theorem exec_inject_tooLong {s : State} (h : s.params.inmax < s.inlen.toNat) :
    exec .inject s = .next (s.raise .operandTooLong) := if_pos (s.operandTooLong_iff.mpr h)

theorem symbolOf_of_mem_pack {B : Nat} {f : List Byte} {u : Byte} (hu : u ∈ pack B f) : symbolOf B u = u := by
  obtain ⟨b, -, hu⟩ := List.mem_flatMap.mp hu
  obtain ⟨t, -, rfl⟩ := List.mem_map.mp hu
  exact symbolOf_packSymbol B b t

/-- A packed symbol is written as it is, under the bits the blue byte keeps (R61). -/
theorem embedByte_pack_getD (B : Nat) (x : Byte) {f : List Byte} {k : Nat} (hk : k < (pack B f).length) :
    embedByte B x ((pack B f).getD k 0) = (x &&& (0xFF - mask B)) ||| (pack B f).getD k 0 := by
  rw [embedByte, ← List.getElem_eq_getD (h := hk), symbolOf_of_mem_pack (List.getElem_mem hk)]

/-- Settles O30, by the outcomes of the writer: the symbols that have a slot stand in it, and with `ATOMIC = 1` none
where one has no slot. -/
theorem injectRuns : Obligations.InjectRuns := by
  refine ⟨by decide, fun s y hs hy => ?_⟩
  have hpack (x : Byte) {k : Nat} (hk : k < y.length) :
      embedByte s.params.B x (y.getD k 0) = (x &&& (0xFF - mask s.params.B)) ||| y.getD k 0 := by
    subst hy
    exact embedByte_pack_getD _ x hk
  have hexec (hin : s.inlen.toNat ≤ s.params.inmax) : exec .inject s = .next (s.writeSymbols y) :=
    hy ▸ exec_inject_fits hin
  refine ⟨hy ▸ s.operandSymbols_length, fun hin hfit => ⟨_, hexec hin, ?_, fun k hk => ?_, fun a ha => ?_⟩,
    fun hin hover hatomic => ⟨_, hexec hin, ?_⟩,
    fun hin hover hatomic => ⟨_, hexec hin, ?_, fun k hk => ?_, fun a ha => ?_⟩,
    fun hlong => ⟨_, exec_inject_tooLong hlong, s.raise_raises _, s.raise_keepsPixels _⟩, fun t ht => ?_⟩
  · rw [s.writeSymbols_fits hfit]
    exact { State.complete_returns hs.outWf.1 (by simp) with }
  · rw [hs.byteAt_written (.inr hfit) hk (hk.trans_le hfit), hpack _ hk]
  · exact hs.read_written_other (.inr hfit) (by rwa [Nat.min_eq_right hfit])
  · rw [s.writeSymbols_atomic hover hatomic]
    exact ⟨s.raise_raises _, s.raise_keepsPixels _⟩
  · rw [s.writeSymbols_partial hover hatomic]
    exact State.raise_raises _ _
  · rw [hs.byteAt_written (.inl hatomic) (hk.trans hover) hk, hpack _ (hk.trans hover)]
  · exact hs.read_written_other (.inl hatomic) (by rwa [Nat.min_eq_left hover.le])
  · rcases Nat.lt_or_ge s.params.inmax s.inlen.toNat with hlong | hin
    · rw [exec_inject_tooLong hlong] at ht
      cases ht
      exact ⟨s.raise_keepsOperand _, s.raise_scanUnspecified _, rfl, rfl⟩
    · rw [hexec hin] at ht
      cases ht
      exact ⟨s.writeSymbols_keepsOperand _, s.writeSymbols_scanUnspecified _, s.writeSymbols_pixlen _,
        (s.writeSymbols_frame _).2.1⟩

/-! ### EXTRACT -/

theorem State.extractStream_length_le (s : State) : (extractStream s.params s.pixels).length ≤ slots s.pixlen.toNat :=
  s.extractStream_length.trans_le (Nat.div_le_self _ _)

theorem slots_le_wordMax (n : Word) : slots n.toNat ≤ wordMax := by
  have hlt := n.isLt
  simp only [slots, wordMax]
  omega

/-- Settles O31: EXTRACT ends as `scan` of its stream says, and the position and LENGTH it writes fit their
registers. -/
theorem extractRuns : Obligations.ExtractRuns := by
  refine ⟨by decide, fun s r hs hr => ?_⟩
  have hexec : exec .extract s = .next (s.streamEnd s.params.N r) := hr ▸ exec_extract s
  have hfields : r.fieldsFit :=
    hr ▸ scan_fieldsFit (s.extractStream_length_le.trans (slots_le_wordMax _)) s.params.magic
  refine ⟨fun hscan => ?_, fun m hscan => ?_, fun m L hscan => ?_, fun m L e hscan hshort => ?_,
    fun m L e hscan hN hout => ?_, fun m L e hscan hN hout => ?_, fun t ht => ?_⟩
  · subst hscan
    exact ⟨_, hexec, s.raise_raises _, s.raise_scanUnspecified _⟩
  · subst hscan
    exact ⟨_, hexec, (s.raise_raises _).detected m none, rfl, toNat_ofNat_wordMax hfields, rfl⟩
  · subst hscan
    obtain ⟨hm, hL⟩ := hfields
    exact ⟨_, hexec, (s.raise_raises _).detected m (some L), rfl, toNat_ofNat_wordMax hm, rfl, toNat_ofNat_wordMax hL⟩
  · subst hscan
    obtain ⟨hm, hL⟩ := hfields
    rw [s.streamEnd_tooShort m e hshort] at hexec
    exact ⟨_, hexec, (s.raise_raises _).detected m (some L), rfl, toNat_ofNat_wordMax hm, rfl, toNat_ofNat_wordMax hL⟩
  · subst hscan
    rw [State.streamEnd_tooLong m e hN hout] at hexec
    exact ⟨_, hexec, s.raise_raises _, s.raise_scanUnspecified _⟩
  · subst hscan
    obtain ⟨hm, hL⟩ := hfields
    have hlen : (e.take (L - s.params.N)).length = L - s.params.N :=
      List.length_take_of_le ((Nat.sub_le _ _).trans_eq (scan_found_length hr.symm).symm)
    have hreturns := State.complete_returns hs.outWf.1 (res := e.take (L - s.params.N))
      (by rw [hlen]; exact (Nat.sub_le _ _).trans_lt (Nat.lt_of_le_pred (by decide) hL))
    rw [State.streamEnd_fits m e hN hout] at hexec
    exact ⟨_, hexec, hreturns.detected m (some L), hreturns.outlen.trans hlen, rfl, toNat_ofNat_wordMax hm, rfl,
      toNat_ofNat_wordMax hL⟩
  · exact ⟨exec_keepsOperand ht, (exec_pixels ht).resolve_right (by simp)⟩

/-! ### The round trip (R138) -/

/-- The reader takes back the symbols of a `pack` that the writer has written, in front of what it has not. -/
theorem xtract_embed_pack (B : Nat) {X f : List Byte} (hfit : (pack B f).length ≤ slots X.length) :
    xtract B (embed B X (pack B f)) = pack B f ++ (xtract B X).drop (pack B f).length := by
  have hlen : (xtract B (embed B X (pack B f))).length = slots X.length := by rw [xtract_length, embed_length]
  refine List.ext_getElem (by rw [hlen, List.length_append, List.length_drop, xtract_length]; omega) fun k hk hk' => ?_
  rw [List.getElem_eq_getD 0, List.getElem_eq_getD (h := hk') 0]
  rcases Nat.lt_or_ge k (pack B f).length with hsymbol | hother
  · rw [xtract_embed_getD B hsymbol (hlen ▸ hk), List.getD_append _ _ _ _ hsymbol,
      ← List.getElem_eq_getD (h := hsymbol), symbolOf_of_mem_pack (List.getElem_mem hsymbol)]
  · rw [xtract_embed_getD_other B X hother, List.getD_append_right _ _ _ _ hother]
    simp only [List.getD, List.getElem?_drop, Nat.add_sub_cancel' hother]

/-- The stream EXTRACT scans begins with the frame INJECT has written. -/
theorem extractStream_embed {p : Params} (hp : p.legal = true) {X payload : List Byte}
    (hfit : (injectSymbols p payload).length ≤ slots X.length) :
    ∃ z, extractStream p (embed p.B X (injectSymbols p payload)) = frame p.magic (penc p.N payload) ++ z := by
  have hB := Params.legal_B hp
  have hgroups : (injectSymbols p payload).length % spb p.B = 0 := by rw [injectSymbols_length, Nat.mul_mod_left]
  refine ⟨unpack p.B ((xtract p.B X).drop (injectSymbols p payload).length), ?_⟩
  calc extractStream p (embed p.B X (injectSymbols p payload))
      = unpack p.B (injectSymbols p payload ++ (xtract p.B X).drop (injectSymbols p payload).length) :=
        congrArg (unpack p.B) (xtract_embed_pack p.B hfit)
    _ = _ := by rw [unpack_append hB _ _ hgroups, injectSymbols, unpack_pack hB]

/-- The buffer held after a writer all of whose symbols have a slot. -/
theorem State.writeSymbols_pixels (s : State) {y : List Byte} (hfit : y.length ≤ slots s.pixlen.toNat) :
    (s.writeSymbols y).pixels = embed s.params.B s.pixels y := by
  rw [s.writeSymbols_fits hfit]
  exact s.withPixels_pixels _ (s.embed_pixels_length y)

/-- Bytes of PIX that read the same, as many of them, are the same buffer held. -/
theorem State.pixels_congr {s t : State} (hlen : s.pixlen = t.pixlen)
    (hread : ∀ a, Memory.read s.pixMem a = Memory.read t.pixMem a) : s.pixels = t.pixels := by
  simp only [State.pixels, Memory.range_eq_map, hread, hlen, unlistedByte_pix]

/-- EXTRACT of a stream that begins with the frame of a payload returns the payload. -/
theorem exec_extract_frame {u : State} (hu : u.Inv) {payload z : List Byte}
    (hin : payload.length ≤ u.params.inmax) (hout : payload.length ≤ u.params.outmax)
    (hstream : extractStream u.params u.pixels = frame u.params.magic (penc u.params.N payload) ++ z) :
    ∃ v, exec .extract u = .next v ∧ v.err = .ok ∧ v.result = payload := by
  obtain ⟨-, hlimit, -, -, -, -, hlength, -⟩ := Params.legal_bounds hu.legal
  have hlen : (penc u.params.N payload).length = payload.length + u.params.N := penc_length ..
  have hscan := (scanFindsFrames u.params.magic).1 (penc u.params.N payload) z
    (hlen.trans_le ((Nat.add_le_add_right hin _).trans hlength))
  have hpayload : (penc u.params.N payload).take (payload.length + u.params.N - u.params.N) = payload := by
    rw [Nat.add_sub_cancel]
    exact List.take_left
  have hexec := exec_extract u
  rw [hstream, hscan, hlen, State.streamEnd_fits _ _ (Nat.le_add_left ..) (by rwa [Nat.add_sub_cancel]), hpayload]
    at hexec
  exact ⟨_, hexec, rfl, u.complete_result payload hu.outWf.1 ((hout.trans hlimit).trans_lt (by decide))⟩

/-- Settles O34: the buffer INJECT leaves is the one EXTRACT reads, and its stream begins with the frame. -/
theorem injectThenExtractGivesThePayload : Obligations.InjectThenExtractGivesThePayload := by
  intro s hs hfit hlen
  obtain ⟨hin, hout⟩ := Nat.le_min.mp hlen
  have hslots : (injectSymbols s.params s.operand).length ≤ slots s.pixlen.toNat := by rwa [State.operandSymbols_length]
  refine ⟨_, exec_inject_fits hin, (s.writeSymbols_ok_iff _).mpr hslots, fun u hu hparams hpixlen hpix => ?_⟩
  have hpixels : u.pixels = embed s.params.B s.pixels (injectSymbols s.params s.operand) :=
    (State.pixels_congr hpixlen hpix).trans (s.writeSymbols_pixels hslots)
  have hsame : u.params = s.params := hparams.trans (s.writeSymbols_frame _).1
  obtain ⟨z, hz⟩ := extractStream_embed hs.legal (X := s.pixels) (by rwa [State.pixels_length])
  exact exec_extract_frame hu (by rwa [hsame, State.operand_length]) (by rwa [hsame, State.operand_length])
    (by rw [hpixels, hsame, hz])

/-! ### A result moved to IN (R75) -/

/-- The state after a `MOVE`. -/
def State.moved (s : State) : State :=
  { s with
    inMem := Memory.store .inBuf s.inMem 0 (s.result.take s.params.inmax), inlen := s.outlen, fresh := s.fresh + 1 }

/-- The state after an operation that returns `r`, and a `MOVE`. -/
def State.relay (s : State) (r : List Byte) : State := (s.startOp.complete r).moved

theorem State.detected_moved (s : State) (m : Nat) (l : Option Nat) :
    (s.detected m l).moved = s.moved.detected m l := by cases l <;> rfl

section
variable {s : State} (hs : s.Inv) {r : List Byte} (hr : r.length ≤ s.params.outmax)
include hs hr

theorem State.Inv.relay : (s.relay r).Inv := (hs.startOp.complete hr).storeOperand (by simp) _ _

/-- `INLEN` is the length of the result. -/
theorem State.Inv.relay_inlen : (s.relay r).inlen.toNat = r.length :=
  toNat_ofNat_wordMax (hr.trans (Params.legal_bounds hs.legal).2.1)

/-- Where IN has room for the result, it is the operand. -/
theorem State.Inv.relay_operand (hin : r.length ≤ s.params.inmax) : (s.relay r).operand = r := by
  have hword : r.length < 2 ^ 32 := Nat.lt_of_le_pred (by decide) (hr.trans (Params.legal_bounds hs.legal).2.1)
  have hresult : (s.startOp.complete r).result = r := s.startOp.complete_result r hs.outWf.1 hword
  have hall : (s.startOp.complete r).result.take s.params.inmax = r := by rw [hresult, List.take_of_length_le hin]
  refine (State.operand_store (s := s.startOp.complete r) hs.inWf.1 ?_ (s.fresh + 2)).trans hall
  exact (hs.relay_inlen hr).trans (congrArg List.length hall.symm)

end

/-- Operation `i` tests the lengths of its operand and of its result (R149) and returns `f` of the operand. -/
def Computes (i : Instr) (f : Params → List Byte → List Byte) : Prop :=
  ∀ s : State, exec i s = s.returnTested (f s.params s.operand).length (f s.params s.operand)

theorem penc_computes : Computes .penc fun p => penc p.N := fun s => by
  rw [s.penc_operand_length, exec_penc]

theorem frame_computes : Computes .frame fun p => frame p.magic := fun s => by
  rw [exec_frame_eq, ← s.framed_length, State.framed]

theorem pack_computes : Computes .pack fun p => pack p.B := fun s => by
  rw [pack_length, s.operand_length, exec_pack]

theorem unpack_computes : Computes .unpack fun p => unpack p.B := fun s => by
  rw [unpack_length, s.operand_length, exec_unpack]

/-- `u` is a state between two operations of a host program begun in `s`: its operand is `r`, where IN has room for
that, and the parameters and PIX are those of `s`. -/
structure State.Carries (s u : State) (r : List Byte) : Prop where
  inv      : u.Inv
  idle     : u.busy = false
  params   : u.params = s.params
  pixlen   : u.pixlen = s.pixlen
  ingested : u.ingested = s.ingested
  pixMem   : u.pixMem = s.pixMem
  inlen    : u.inlen.toNat = r.length
  operand  : r.length ≤ s.params.inmax → u.operand = r

namespace State.Carries

theorem refl {s : State} (hs : s.Inv) (hb : s.busy = false) : s.Carries s s.operand where
  inv := hs
  idle := hb
  params := rfl
  pixlen := rfl
  ingested := rfl
  pixMem := rfl
  inlen := s.operand_length.symm
  operand _ := rfl

section
variable {s u : State} {r : List Byte} (h : s.Carries u r)
include h

theorem keepsPixels : s.KeepsPixels u := ⟨h.pixlen, h.ingested, fun a => by rw [h.pixMem]⟩

theorem raise_keepsPixels (e : ErrCode) : s.KeepsPixels (u.startOp.raise e) := { h.keepsPixels with }

theorem pixels : u.pixels = s.pixels := State.pixels_congr h.pixlen h.keepsPixels.pixBytes

/-- The next result, moved. -/
theorem relay {q : List Byte} (hq : q.length ≤ s.params.outmax) : s.Carries (u.relay q) q := by
  rw [← h.params] at hq
  exact
    { h with
      inv := h.inv.relay hq
      idle := rfl
      inlen := h.inv.relay_inlen hq
      operand := fun hin => h.inv.relay_operand hq (h.params ▸ hin) }

theorem detected (m : Nat) (l : Option Nat) : s.Carries (u.detected m l) r := by
  cases l <;> exact { h with inv := h.inv.detected m _ }

theorem inlen_le (hin : r.length ≤ s.params.inmax) : u.startOp.inlen.toNat ≤ u.startOp.params.inmax := by
  change u.inlen.toNat ≤ u.params.inmax
  rwa [h.inlen, h.params]

/-- An operation that computes `f`, on `r`. -/
theorem exec_computes {i : Instr} {f : Params → List Byte → List Byte} (hi : Computes i f) :
    exec i u.startOp = u.startOp.returnTested (f s.params r).length (f s.params r) := by
  rcases Nat.lt_or_ge s.params.inmax r.length with hlong | hin
  · have htest : u.startOp.params.inmax < u.startOp.inlen.toNat := by
      rwa [State.startOp_inlen, State.startOp_params, h.inlen, h.params]
    rw [hi, State.returnTested_tooLong (.inl htest), State.returnTested_tooLong (.inl htest)]
  · rw [hi, State.startOp_params, State.startOp_operand, h.operand hin, h.params]

/-- Where `r` fits IN and the result OUT it returns. -/
theorem exec_returns {i : Instr} {f : Params → List Byte → List Byte} (hi : Computes i f)
    (hin : r.length ≤ s.params.inmax) (hout : (f s.params r).length ≤ s.params.outmax) :
    exec i u.startOp = .next (u.startOp.complete (f s.params r)) := by
  have hresult : (f s.params r).length ≤ u.startOp.params.outmax := h.params.symm ▸ hout
  rw [h.exec_computes hi, State.returnTested_fits (h.inlen_le hin) hresult]

end

end State.Carries

/-! ### Programs of operations with a `MOVE` between two -/

section
variable {s t : State} (hb : s.busy = false) {i : Instr} (ht : exec i s.startOp = .next t)
include hb ht

theorem hostRun_command (as : List HostAction) : hostRun (hostCommand i :: as) s = hostRun as t := by
  rw [hostRun, hostStep_hostCommand hb, ht]

/-- The host issues nothing after the last operation, or after one that ends with an error. -/
theorem hostChain_stops {is : List Instr} (h : t.err ≠ .ok ∨ is = []) : hostChain (i :: is) s = .next t := by
  have hnot : ¬ (t.err = .ok ∧ is ≠ []) := fun ⟨hok, his⟩ => h.elim (absurd hok) his
  rw [hostChain, hostStep_hostCommand hb, ht]
  exact if_neg hnot

/-- After an operation that ends without error the host moves its result and goes on. -/
theorem hostChain_moves {is : List Instr} (hok : t.err = .ok) (his : is ≠ []) :
    hostChain (i :: is) s = hostChain is t.moved := by
  rw [hostChain, hostStep_hostCommand hb, ht]
  refine (if_pos ⟨hok, his⟩).trans ?_
  rw [hostStep_move (exec_idle ht)]
  rfl

end

section
variable {s : State} (hb : s.busy = false) {i : Instr} {r : List Byte}
  (hexec : exec i s.startOp = .next (s.startOp.complete r))
include hb hexec

theorem hostRun_returns (as : List HostAction) : hostRun (hostCommand i :: .move :: as) s = hostRun as (s.relay r) := by
  rw [hostRun_command hb hexec, hostRun, hostStep_move rfl]
  rfl

theorem hostChain_returns {is : List Instr} (his : is ≠ []) : hostChain (i :: is) s = hostChain is (s.relay r) :=
  hostChain_moves hb hexec rfl his

end

/-! ### INJECT as primitives (R132) -/

/-- What the writer leaves of PIX, `ERR` and `OUTLEN` depends on the parameters and on PIX. -/
theorem State.writeSymbols_congr {s t : State} (hparams : s.params = t.params) (hpixlen : s.pixlen = t.pixlen)
    (hpixels : s.pixels = t.pixels) (hpixMem : s.pixMem = t.pixMem) (y : List Byte) :
    (s.writeSymbols y).pixMem = (t.writeSymbols y).pixMem ∧ (s.writeSymbols y).err = (t.writeSymbols y).err ∧
      (s.writeSymbols y).outlen = (t.writeSymbols y).outlen := by
  rcases Nat.lt_or_ge (slots t.pixlen.toNat) y.length with hover | hfit
  · cases hatomic : t.params.atomic
    · rw [t.writeSymbols_partial hover hatomic,
        s.writeSymbols_partial (hpixlen ▸ hover) (hparams ▸ hatomic), hparams, hpixlen, hpixels]
      exact ⟨rfl, rfl, rfl⟩
    · rw [t.writeSymbols_atomic hover hatomic, s.writeSymbols_atomic (hpixlen ▸ hover) (hparams ▸ hatomic)]
      exact ⟨hpixMem, rfl, rfl⟩
  · rw [t.writeSymbols_fits hfit, s.writeSymbols_fits (hpixlen ▸ hfit), hparams, hpixels]
    exact ⟨rfl, rfl, rfl⟩

/-- The writer raises no error but CapacityExceeded. -/
theorem State.writeSymbols_err_ne (s : State) (y : List Byte) : (s.writeSymbols y).err ≠ .operandTooLong := by
  rcases s.writeSymbols_cases y with hw | ⟨z, hw⟩ | ⟨z, hw⟩ <;> rw [hw] <;> simp

/-- Where the last of the three intermediate results fits, all do. -/
theorem State.Inv.intermediates_fit {s : State} (hs : s.Inv) {n : Nat}
    (h : (8 + s.inlen.toNat + s.params.N) * spb s.params.B ≤ n) :
    s.operand.length ≤ n ∧ (penc s.params.N s.operand).length ≤ n ∧ s.injectFrame.length ≤ n ∧
      (injectSymbols s.params s.operand).length ≤ n := by
  have hframe : 8 + s.inlen.toNat + s.params.N ≤ n :=
    (Nat.le_mul_of_pos_right _ (spb_pos (Params.legal_B hs.legal))).trans h
  rw [State.operand_length, State.penc_operand_length, State.injectFrame_length, State.operandSymbols_length]
  omega

/-- EMBED on a result moved is the writer of it. -/
theorem State.Carries.exec_embed {s u : State} {y : List Byte} (h : s.Carries u y) (hin : y.length ≤ s.params.inmax) :
    exec .embed u.startOp = .next (u.startOp.writeSymbols y) := by
  rw [exec_embed_fits (h.inlen_le hin), State.startOp_operand, h.operand hin]

/-- Where every intermediate result fits, the program completes and writes the symbols INJECT writes. -/
theorem hostRun_injectPrimitives {s : State} (hs : s.Inv) (hb : s.busy = false)
    (hin : (8 + s.inlen.toNat + s.params.N) * spb s.params.B ≤ s.params.inmax)
    (hout : (8 + s.inlen.toNat + s.params.N) * spb s.params.B ≤ s.params.outmax) :
    ∃ u, s.Carries u (injectSymbols s.params s.operand) ∧
      hostRun [hostCommand .penc, .move, hostCommand .frame, .move, hostCommand .pack, .move, hostCommand .embed] s =
        .next (u.startOp.writeSymbols (injectSymbols s.params s.operand)) := by
  obtain ⟨hpin, hein, hfin, hyin⟩ := hs.intermediates_fit hin
  obtain ⟨-, heout, hfout, hyout⟩ := hs.intermediates_fit hout
  have hpayload := State.Carries.refl hs hb
  have hencoded := hpayload.relay heout
  have hframed := hencoded.relay hfout
  have hpacked := hframed.relay hyout
  refine ⟨_, hpacked, ?_⟩
  calc hostRun [hostCommand .penc, .move, hostCommand .frame, .move, hostCommand .pack, .move, hostCommand .embed] s
      = hostRun [hostCommand .frame, .move, hostCommand .pack, .move, hostCommand .embed] _ :=
        hostRun_returns hb (hpayload.exec_returns penc_computes hpin heout) _
    _ = hostRun [hostCommand .pack, .move, hostCommand .embed] _ :=
        hostRun_returns hencoded.idle (hencoded.exec_returns frame_computes hein hfout) _
    _ = hostRun [hostCommand .embed] _ :=
        hostRun_returns hframed.idle (hframed.exec_returns pack_computes hfin hyout) _
    _ = _ := hostRun_command hpacked.idle (hpacked.exec_embed hyin) _

/-- The end of a program stopped by an operand or a result that does not fit, with PIX as in `s`. -/
def State.EndsTooLong (s : State) (o : Host.Outcome State Fault Refusal) : Prop :=
  ∃ t, o = .next t ∧ t.err = .operandTooLong ∧ t.outlen = 0 ∧ s.KeepsPixels t

/-- An operation of a program ends so, or its result fits OUT and the program goes on. -/
theorem State.Carries.endsTooLong {s u : State} {r : List Byte} (h : s.Carries u r) {i : Instr} {is : List Instr}
    {f : Params → List Byte → List Byte} (hi : Computes i f) (his : is ≠ [])
    (hrest : (f s.params r).length ≤ s.params.outmax → s.EndsTooLong (hostChain is (u.relay (f s.params r)))) :
    s.EndsTooLong (hostChain (i :: is) u) := by
  have hexec := h.exec_computes hi
  rcases u.startOp.lengths_fit_or (f s.params r).length with ⟨hin, hout⟩ | hlong
  · rw [State.returnTested_fits hin hout] at hexec
    rw [hostChain_returns h.idle hexec his]
    exact hrest (h.params ▸ hout)
  · rw [State.returnTested_tooLong hlong] at hexec
    exact ⟨_, hostChain_stops h.idle hexec (.inl nofun), rfl, rfl, h.raise_keepsPixels _⟩

/-- Where the symbols do not fit IN or OUT the program of INJECT's primitives ends so, at EMBED at the latest. -/
theorem injectPrimitives_endsTooLong {s : State} (hs : s.Inv) (hb : s.busy = false)
    (hlong : min s.params.inmax s.params.outmax < (8 + s.inlen.toNat + s.params.N) * spb s.params.B) :
    s.EndsTooLong (hostChain [.penc, .frame, .pack, .embed] s) := by
  have hpayload := State.Carries.refl hs hb
  refine hpayload.endsTooLong penc_computes nofun fun hout => ?_
  have hencoded := hpayload.relay hout
  refine hencoded.endsTooLong frame_computes nofun fun hout => ?_
  have hframed := hencoded.relay hout
  refine hframed.endsTooLong pack_computes nofun fun hout => ?_
  have hpacked := hframed.relay hout
  have hlen := s.operandSymbols_length
  rw [injectSymbols] at hlen
  have hin := (min_lt_iff.mp (hlen ▸ hlong)).resolve_right (Nat.not_lt.mpr hout)
  have hembed := exec_embed_tooLong (s := State.startOp _) (by
    rw [State.startOp_params, State.startOp_inlen, hpacked.params, hpacked.inlen]
    exact hin)
  exact ⟨_, hostChain_stops hpacked.idle hembed (.inr rfl), rfl, rfl, hpacked.raise_keepsPixels _⟩

/-- Settles O35: the program writes what INJECT writes into the same PIX; where a result does not fit, the next test of
a length stops it, and INJECT tests no intermediate length. -/
theorem injectIsItsPrimitives : Obligations.InjectIsItsPrimitives := by
  refine fun s hs hb => ⟨fun hfit => ?_, fun hin hlong => ?_⟩
  · obtain ⟨hin, hout⟩ := Nat.le_min.mp hfit
    have hpayload : s.inlen.toNat ≤ s.params.inmax := s.operand_length ▸ (hs.intermediates_fit hin).1
    obtain ⟨u, hu, hrun⟩ := hostRun_injectPrimitives hs hb hin hout
    obtain ⟨hpixMem, herr, houtlen⟩ := State.writeSymbols_congr (s := u.startOp) (t := s.startOp) hu.params hu.pixlen
      hu.pixels hu.pixMem (injectSymbols s.params s.operand)
    have hpixlen : (u.startOp.writeSymbols (injectSymbols s.params s.operand)).pixlen =
        (s.startOp.writeSymbols (injectSymbols s.params s.operand)).pixlen := by
      rw [State.writeSymbols_pixlen, State.writeSymbols_pixlen]
      exact hu.pixlen
    exact ⟨_, _, hrun, (hostStep_hostCommand hb _).trans (exec_inject_fits (s := s.startOp) hpayload), hpixMem, hpixlen,
      herr, houtlen⟩
  · obtain ⟨t, hchain, herr, houtlen, hpixels⟩ := injectPrimitives_endsTooLong hs hb hlong
    exact ⟨t, _, hchain, (hostStep_hostCommand hb _).trans (exec_inject_fits (s := s.startOp) hin), herr, houtlen,
      hpixels, State.writeSymbols_err_ne _ _⟩

/-! ### EXTRACT as primitives (R137) -/

/-- Two ends of an operation with the same `ERR`, `OUTLEN` and result. -/
structure State.SameResult (t u : State) : Prop where
  err      : t.err = u.err
  outlen   : t.outlen = u.outlen
  outBytes : ∀ i < u.outlen.toNat, Memory.read t.outMem i = Memory.read u.outMem i

theorem State.complete_sameResult {s t : State} (hs : s.outMem.Rising) (ht : t.outMem.Rising) (r : List Byte) :
    (s.complete r).SameResult (t.complete r) where
  err := rfl
  outlen := rfl
  outBytes i hi := by
    have hlen : i < r.length := hi.trans_le (Nat.mod_le _ _)
    rw [State.complete_read_inside _ _ hs hlen, State.complete_read_inside _ _ ht hlen]

theorem State.SameResult.detected {t u : State} (h : t.SameResult u) (m : Nat) (l : Option Nat) :
    t.SameResult (u.detected m l) := by cases l <;> exact { h with }

/-- `FPOS` and `FLEN` are valid alike, and hold the same where they are. -/
def State.SameScan (t u : State) : Prop :=
  t.fposValid = u.fposValid ∧ t.flenValid = u.flenValid ∧ (u.fposValid = true → t.fpos = u.fpos) ∧
    (u.flenValid = true → t.flen = u.flen)

/-- The errors at which a program of EXTRACT's primitives stops at SCAN (R137). -/
def scanErrors : List ErrCode := [.noPayloadFound, .truncatedHeader, .payloadOverrun]

/-- A payload found is no longer than the stream. -/
theorem scan_found_length_le {g : Magic} {w e : List Byte} {m l : Nat} (h : scan g w = .found m l e) :
    e.length ≤ w.length := by
  obtain ⟨rfl, -, hframe, -⟩ := scan_eq_found_iff.mp h
  exact (Nat.le_add_left ..).trans (le_of_take_drop_eq_frame hframe)

namespace State.Carries

/-- SCAN on a stream moved. -/
theorem exec_scan {s u : State} {w : List Byte} (h : s.Carries u w) (hin : w.length ≤ s.params.inmax) :
    exec .scan u.startOp = .next (u.startOp.streamEnd 0 (scan s.params.magic w)) := by
  rw [exec_scan_fits (h.inlen_le hin), State.startOp_operand, State.startOp_params, h.operand hin, h.params]

/-- PDEC on a payload moved ends as EXTRACT does on the payload found. -/
theorem pdec_ends {s u : State} {e : List Byte} (h : s.Carries u e) (hs : s.Inv) (hin : e.length ≤ s.params.inmax)
    (hout : e.length ≤ s.params.outmax) (m : Nat) :
    ∃ t, hostChain [.pdec] u = .next t ∧
      t.SameResult (s.startOp.streamEnd s.params.N (.found m e.length e)) ∧ t.err ∉ scanErrors := by
  have hlen : u.startOp.inlen.toNat = e.length := h.inlen
  have hN : u.startOp.params.N = s.params.N := congrArg Params.N h.params
  rcases Nat.lt_or_ge e.length s.params.N with hshort | hlong
  · have hpdec := exec_pdec_tooShort (s := u.startOp) ⟨h.inlen_le hin, by rwa [hlen, hN]⟩
    refine ⟨_, hostChain_stops h.idle hpdec (.inr rfl), ?_, by simp [scanErrors]⟩
    rw [State.streamEnd_tooShort _ _ _ hshort]
    exact ⟨rfl, rfl, fun _ _ => rfl⟩
  · have hstripped : u.startOp.stripped = e.take (e.length - s.params.N) := by
      rw [State.stripped, State.startOp_operand, h.operand hin, hlen, hN]
    have hresult : e.length - s.params.N ≤ s.params.outmax := (Nat.sub_le _ _).trans hout
    have hpdec : exec .pdec u.startOp = .next (u.startOp.complete (e.take (e.length - s.params.N))) := by
      rw [exec_pdec_not_tooShort (by rw [State.tooShort, hlen, hN]; omega), hlen, hN, hstripped]
      exact State.returnTested_fits (h.inlen_le hin) (h.params.symm ▸ hresult) _
    refine ⟨_, hostChain_stops h.idle hpdec (.inr rfl), ?_, by simp [scanErrors]⟩
    rw [State.streamEnd_fits (s := s.startOp) _ _ hlong hresult]
    exact (State.complete_sameResult h.inv.startOp.outWf.1 hs.startOp.outWf.1 _).detected _ _

/-- SCAN and PDEC on a stream moved end as EXTRACT does on the stream. -/
theorem scan_pdec_ends {s u : State} {w : List Byte} (h : s.Carries u w) (hs : s.Inv)
    (hin : w.length ≤ s.params.inmax) (hout : w.length ≤ s.params.outmax) :
    ∃ t, hostChain [.scan, .pdec] u = .next t ∧
      t.SameResult (s.startOp.streamEnd s.params.N (scan s.params.magic w)) ∧
      (t.err ∈ scanErrors → t.SameScan (s.startOp.streamEnd s.params.N (scan s.params.magic w))) := by
  have hexec := h.exec_scan hin
  cases hscan : scan s.params.magic w with
  | noPayloadFound =>
    rw [hscan] at hexec
    exact ⟨_, hostChain_stops h.idle hexec (.inl nofun), ⟨rfl, rfl, fun _ _ => rfl⟩,
      fun _ => ⟨rfl, rfl, nofun, nofun⟩⟩
  | truncatedHeader m =>
    rw [hscan] at hexec
    exact ⟨_, hostChain_stops h.idle hexec (.inl nofun), ⟨rfl, rfl, fun _ _ => rfl⟩,
      fun _ => ⟨rfl, rfl, fun _ => rfl, nofun⟩⟩
  | payloadOverrun m l =>
    rw [hscan] at hexec
    exact ⟨_, hostChain_stops h.idle hexec (.inl nofun), ⟨rfl, rfl, fun _ _ => rfl⟩,
      fun _ => ⟨rfl, rfl, fun _ => rfl, fun _ => rfl⟩⟩
  | found m l e =>
    have hle := scan_found_length_le hscan
    obtain rfl := scan_found_length hscan
    have hfits : e.length - 0 ≤ u.startOp.params.outmax := h.params.symm ▸ hle.trans hout
    rw [hscan, State.streamEnd_fits m e (Nat.zero_le _) hfits, Nat.sub_zero, List.take_length] at hexec
    obtain ⟨t, hchain, hresult, herr⟩ :=
      ((h.relay (hle.trans hout)).detected m (some e.length)).pdec_ends hs (hle.trans hin) (hle.trans hout) m
    refine ⟨t, ?_, hresult, fun hmem => absurd hmem herr⟩
    rw [hostChain_moves h.idle hexec rfl (List.cons_ne_nil _ _), State.detected_moved]
    exact hchain

end State.Carries

/-- Settles O36: XTRACT and UNPACK leave the stream EXTRACT scans as the operand of SCAN. -/
theorem extractIsItsPrimitives : Obligations.ExtractIsItsPrimitives := by
  intro s hs hb hfit
  obtain ⟨hin, hout⟩ := Nat.le_min.mp hfit
  have hsymbols := s.xtract_pixels_length
  have hstream := s.extractStream_length_le
  have hextracted := (State.Carries.refl hs hb).relay (hsymbols.trans_le hout)
  have hunpacked := hextracted.relay (hstream.trans hout)
  obtain ⟨t, hchain, ⟨herr, houtlen, hbytes⟩, hscan⟩ :=
    hunpacked.scan_pdec_ends hs (hstream.trans hin) (hstream.trans hout)
  refine ⟨t, _, ?_, (hostStep_hostCommand hb _).trans (exec_extract s.startOp), herr, houtlen, hbytes, hscan⟩
  rw [hostChain_returns hb (exec_xtract_fits (s := s.startOp) hout) (List.cons_ne_nil _ _)]
  exact (hostChain_returns hextracted.idle (hextracted.exec_returns unpack_computes (hsymbols.trans_le hin)
    (hstream.trans hout)) (List.cons_ne_nil _ _)).trans hchain

end Sys2Proof.Machine

/-! PROOFS. The error codes (60_exceptions.md): which operation can end with which code, and OperandTooLong as the end of
an operation that has written nothing but `ERR` and `OUTLEN`. -/

namespace Sys2Proof.Machine

/-! ### The code of each end (R151) -/

theorem ok_mem_endCodes (i : Instr) : ErrCode.ok ∈ endCodes i := by cases i <;> simp [endCodes]

theorem operandTooLong_mem_endCodes (i : Instr) : ErrCode.operandTooLong ∈ endCodes i := by
  cases i <;> simp [endCodes]

theorem illegalCommand_notMem_endCodes (i : Instr) : ErrCode.illegalCommand ∉ endCodes i := by
  cases i <;> simp [endCodes]

theorem State.writeSymbols_err_mem (s : State) (y : List Byte) :
    (s.writeSymbols y).err ∈ [ErrCode.ok, .capacityExceeded] := by
  rcases s.writeSymbols_cases y with hw | ⟨z, hw⟩ | ⟨z, hw⟩ <;> rw [hw] <;> simp

/-- Where nothing is dropped from the payload found, no payload is too short. -/
theorem State.streamEnd_zero_err_ne (s : State) (r : ScanResult) : (s.streamEnd 0 r).err ≠ .tooShort := by
  cases r with
  | found m l e =>
    rcases Nat.lt_or_ge s.params.outmax (l - 0) with hout | hout
    · simp [State.streamEnd_tooLong m e (Nat.zero_le l) hout]
    · simp [State.streamEnd_fits m e (Nat.zero_le l) hout]
  | _ => simp [State.streamEnd]

theorem exec_scan_err_ne {s t : State} (h : exec .scan s = .next t) : t.err ≠ .tooShort := by
  rcases Nat.lt_or_ge s.params.inmax s.inlen.toNat with hlong | hin
  · rw [exec_scan_tooLong hlong] at h
    cases h
    simp
  · rw [exec_scan_fits hin] at h
    cases h
    exact s.streamEnd_zero_err_ne _

theorem exec_err_mem_endCodes {i : Instr} {s t : State} (h : exec i s = .next t) : t.err ∈ endCodes i := by
  cases exec_end h with
  | tooLong ht => exact ht ▸ operandTooLong_mem_endCodes i
  | tooShort hi ht => simp [hi, ht, endCodes]
  | noPayload hi ht => rcases hi with rfl | rfl <;> simp [ht, endCodes]
  | truncated hi m ht => rcases hi with rfl | rfl <;> simp [ht, endCodes]
  | damaged hi e he m l ht =>
    have herr : t.err = e := by simp [ht]
    rcases hi with rfl | rfl
    · obtain rfl := he.resolve_right fun hshort => exec_scan_err_ne h (herr.trans hshort)
      simp [herr, endCodes]
    · rcases he with rfl | rfl <;> simp [herr, endCodes]
  | found _ r _ m l ht => simp [ht, ok_mem_endCodes]
  | returned _ _ _ r _ ht => simp [ht, ok_mem_endCodes]
  | ingested _ _ ht => simp [ht, ok_mem_endCodes]
  | written hi y ht =>
    have herr := s.writeSymbols_err_mem y
    rw [← ht] at herr
    rcases hi with rfl | rfl <;> exact List.mem_append_left [.operandTooLong] herr

/-- Settles O43: every operation answers, and the code of each of its ends is in its row; IllegalCommand is in no row. -/
theorem operationsEndWithTheirCodes : Obligations.OperationsEndWithTheirCodes := by
  intro i s
  obtain ⟨t, ht⟩ := exec_next i s
  have hmem := exec_err_mem_endCodes ht
  exact ⟨t, ht, hmem, fun hillegal => illegalCommand_notMem_endCodes i (hillegal ▸ hmem)⟩

/-! ### OperandTooLong (R149) -/

/-- The first test of every operation that reads IN. -/
theorem exec_operandTooLong {i : Instr} {s : State} (hi : readsOperand i = true)
    (h : s.params.inmax < s.inlen.toNat) : exec i s = .next (s.raise .operandTooLong) := by
  cases i with
  | xtract | extract => cases hi
  | _ => exact if_pos (s.operandTooLong_iff.mpr h)

/-- An operation raises OperandTooLong before it writes anything, the writer's pixels and `FPOS` and `FLEN` included. -/
theorem exec_eq_raise_of_operandTooLong {i : Instr} {s t : State} (h : exec i s = .next t)
    (herr : t.err = .operandTooLong) : t = s.raise .operandTooLong := by
  cases exec_end h with
  | tooLong ht => exact ht
  | tooShort _ ht => simp [ht] at herr
  | noPayload _ ht => simp [ht] at herr
  | truncated _ m ht => simp [ht] at herr
  | damaged _ e he m l ht => rcases he with rfl | rfl <;> simp [ht] at herr
  | found _ r _ m l ht => simp [ht] at herr
  | returned _ _ _ r _ ht => simp [ht] at herr
  | ingested _ _ ht => simp [ht] at herr
  | written _ y ht => exact absurd (ht ▸ herr) (s.writeSymbols_err_ne y)

/-- Settles O44: a failed test of R149 raises OperandTooLong on the state as it was, and no other end has that code. -/
theorem operandTooLongKeepsPixelsAndOperand : Obligations.OperandTooLongKeepsPixelsAndOperand := by
  refine ⟨fun i s hi hlong => ⟨_, exec_operandTooLong hi hlong, s.raise_raises _⟩, fun i s t h herr => ?_⟩
  obtain rfl := exec_eq_raise_of_operandTooLong h herr
  exact ⟨s.raise_raises _, s.raise_keepsOperand _, s.raise_keepsPixels _, s.raise_scanUnspecified _⟩

end Sys2Proof.Machine

/-! PROOFS. The step (70_reset_and_hazards.md): what it is with no access of the host pending, and with one. -/

namespace Sys2Proof.Machine

/-- The block does nothing of its own: with no access pending it waits (R160, R175). -/
theorem step_of_pending_nil {s : State} (hpending : s.pending = []) : step s = .next s := by
  simp only [step, hpending]

/-- The access performed no longer stands among the pending ones of the state it is performed on. -/
theorem step_of_pending_cons {s : State} {a : HostAction} {rest : List HostAction} (hpending : s.pending = a :: rest) :
    step s = hostStep a { s with pending := rest } := by
  simp only [step, hpending]

/-- Settles O5, by the two shapes of the list of pending accesses. -/
theorem stepPerformsTheNextAccess : Obligations.StepPerformsTheNextAccess :=
  ⟨fun _ hnone => step_of_pending_nil hnone, fun _ _ _ hnext => step_of_pending_cons hnext⟩

end Sys2Proof.Machine
